-- ==== Sys2Proof/Word.lean ====
section
/-! DEFINITION. The words of the core (spec/00_scope.md R7): every quantity software can see as bits has the
width the spec gives it, and nothing else is a bit vector. -/

namespace Sys2Proof

/-- One byte of a packet, a response or the sink; a channel value is one too (R7). -/
abbrev Byte := BitVec 8

/-- A 16-bit operand: `width` and `height` (R7). -/
abbrev Half := BitVec 16

/-- A 32-bit operand or register: counts, offsets, sizes, the sink position (R7). -/
abbrev Word := BitVec 32

/-- A Color565 value: red in bits 15-11, green in bits 10-5, blue in bits 4-0 (R80). -/
abbrev Color565 := BitVec 16

end Sys2Proof
end

