-- ==== Sys2Proof/Config.lean ====
section
/-! DEFINITION. What an implementation fixes (the parameters of spec/00_scope.md R5) and the free values of the
model: constants with no body, so that a claim holds whatever they are. -/

namespace Sys2Proof

/-- `SHORT_POLICY` (R5): what `CW_FINALIZE` does when fewer frames were written than declared. -/
inductive ShortPolicy where
  | fail
  | truncate
deriving DecidableEq, Repr

/-- The answer of the sink to one write transaction (R54, R55). -/
inductive Answer where
  | ok
  | fail
deriving DecidableEq, Repr, Inhabited

/-- The four bytes `M0 M1 M2 M3` of the parameter `MAGIC` (R5). -/
structure Magic where
  m0 : Byte
  m1 : Byte
  m2 : Byte
  m3 : Byte
deriving DecidableEq, Repr

/-- The parameters of R5. `cap` and `maxFrames` are naturals up to 0xFFFFFFFF there, so 32-bit words;
`maxRleLen` is at most 0x7F000000 (a part of `Params.wf`). -/
structure Params where
  magic : Magic
  cap : Word
  maxFrames : Word
  shortPolicy : ShortPolicy
  seekable : Bool
  maxRleLen : Word
deriving DecidableEq, Repr

namespace Config

/-! The fixed constants of the format (R6). -/

abbrev headerSize : Nat := 20
abbrev entrySize : Nat := 8
abbrev compressionRle : Byte := 0x01
abbrev segMax : Nat := 128
abbrev runMin : Nat := 3

/-- The largest `MAX_RLE_LEN` (R5, R141). -/
abbrev rleLenLimit : Nat := 0x7F000000

/-! Free values. -/

/-- The sink's answer to transaction number `tx` where the environment has fixed none (R55, U9: "a free
input"). Free value, safe: a claim holds for every answer. -/
opaque sinkAnswer (tx : Nat) : Answer

/-- What address `a` holds after transaction number `tx` drew `fail` (R54: "an unspecified value afterwards
(unwritten or any byte, independently per address)"); `none` is unwritten. Free value, safe. -/
opaque failedCell (tx a : Nat) : Option Byte

/-- `OFF[i]` after reset number `r`, until a `CW_FRAME` writes it (R35: unspecified; U14). Free value, safe. -/
opaque unspecifiedOff (r i : Nat) : Word

/-- `SIZE[i]` after reset number `r`, until a `CW_FRAME` writes it (R35, U14). Free value, safe. -/
opaque unspecifiedSize (r i : Nat) : Word

/-- Which of the values that R62 admits host read number `k`, racing with an operation, sees at address `a` (U12).
Free value, safe. -/
opaque raceChoice (k a : Nat) : Nat

/-- Byte `i` of the parameter `MAGIC` of the machine `State.reset` stands for: OPEN in the spec (R5, D11). -/
opaque openMagic (i : Nat) : Byte

/-- The parameter `MAX_FRAMES` of the machine `State.reset` stands for: OPEN in the spec (R5, D17). -/
opaque openMaxFrames : Word

end Config

/-- The bound R5 puts on the one parameter whose width does not give it. -/
def Params.wf (p : Params) : Bool := p.maxRleLen.toNat ≤ Config.rleLenLimit

end Sys2Proof
end

