-- ==== Sys2Proof/Syntax.lean ====
section
/-! DEFINITION. The syntax: one constructor per row of spec/opcode_table.json. Seven rows are command packets
(spec/30_encoding.md R100), two are segments of the compressed stream (R82, R83). -/

namespace Sys2Proof

/-- One raw RGB888 pixel of a `CW_FRAME` packet (spec/20_memory.md R59). -/
structure Pixel where
  r : Byte
  g : Byte
  b : Byte
deriving DecidableEq, Repr

/-- An instruction: a command packet or a segment. The length fields `L` and `P` of R100 are the lengths of
the operand lists. -/
inductive Instr where
  /-- `QUANT R, G, B`, opcode 0x01. -/
  | quant (r g b : Byte)
  /-- `RLE_ENC V`, opcode 0x02, `L` the length of `V`. -/
  | rleEnc (v : List Color565)
  /-- `CW_BEGIN N, W, H, FPS`, opcode 0x10. -/
  | cwBegin (n : Word) (w h : Half) (fps : Byte)
  /-- `CW_FRAME`, opcode 0x11, `P` the length of the pixel list. -/
  | cwFrame (px : List Pixel)
  /-- `CW_FINALIZE`, opcode 0x12. -/
  | cwFinalize
  /-- `RDREG A`, opcode 0x20. -/
  | rdreg (a : Byte)
  /-- A packet whose opcode byte is in no other command row (R102). -/
  | illegal (op : Byte)
  /-- A Run segment: header bits 6-0 are `n`, standing for `n + 1` copies of `c` (R82). -/
  | run (n : BitVec 7) (c : Color565)
  /-- A Literal segment: the values, one to 128 of them (R83). -/
  | lit (vs : List Color565)
deriving DecidableEq, Repr

end Sys2Proof
end

