-- ==== Sys2Proof/WellFormed.lean ====
section
/-! DEFINITION. Which terms of `Instr` have words of their own: the lengths fit their length fields
(spec/30_encoding.md R100, R81), and an undefined opcode is one that no command row has (R102). -/

namespace Sys2Proof

/-- The opcode bytes of the table of R100. -/
def commandOpcodes : List Byte := [0x01#8, 0x02#8, 0x10#8, 0x11#8, 0x12#8, 0x20#8]

/-- The instruction can be written in its encoding. -/
def WellFormed : Instr → Bool
  | .quant _ _ _ => true
  | .rleEnc v => v.length < 2 ^ 32
  | .cwBegin _ _ _ _ => true
  | .cwFrame px => px.length < 2 ^ 32
  | .cwFinalize => true
  | .rdreg _ => true
  | .illegal op => !commandOpcodes.contains op
  | .run _ _ => true
  | .lit vs => 1 ≤ vs.length ∧ vs.length ≤ Config.segMax

/-- The instruction is a command packet, not a segment of a compressed stream. -/
def Instr.isCommand : Instr → Bool
  | .quant _ _ _ => true
  | .rleEnc _ => true
  | .cwBegin _ _ _ _ => true
  | .cwFrame _ => true
  | .cwFinalize => true
  | .rdreg _ => true
  | .illegal _ => true
  | .run _ _ => false
  | .lit _ => false

end Sys2Proof
end

