-- ==== Sys2Proof/Decode.lean ====
section
/-! DEFINITION. Byte images, the decoder and the encoder (spec/30_encoding.md; byte order spec/20_memory.md R52).
There are two code spaces: command packets (R100) and segments of a compressed stream (R81); each has its
decoder, total on any bytes and rejecting by name. -/

namespace Sys2Proof

/-! ## Byte images (spec/00_scope.md R9) -/

/-- `le16(v)`. -/
def le16 (v : BitVec 16) : List Byte := [v.extractLsb' 0 8, v.extractLsb' 8 8]

/-- `le32(v)`. -/
def le32 (v : Word) : List Byte :=
  [v.extractLsb' 0 8, v.extractLsb' 8 8, v.extractLsb' 16 8, v.extractLsb' 24 8]

/-- `rd16` of two bytes in address order. -/
def rd16 (b0 b1 : Byte) : BitVec 16 := b1 ++ b0

/-- `rd32` of four bytes in address order. -/
def rd32 (b0 b1 b2 b3 : Byte) : Word := b3 ++ b2 ++ b1 ++ b0

/-! ## Operand lists -/

/-- The first `n` Color565 values of a byte list, low byte first, and the bytes after them (R103). -/
def takeColors : Nat → List Byte → Option (List Color565 × List Byte)
  | 0, bs => some ([], bs)
  | n + 1, b0 :: b1 :: bs =>
    match takeColors n bs with
    | some (cs, rest) => some (rd16 b0 b1 :: cs, rest)
    | none => none
  | _ + 1, _ => none

/-- The first `n` pixels of a byte list, channels in the order R, G, B, and the bytes after them (R59, R103). -/
def takePixels : Nat → List Byte → Option (List Pixel × List Byte)
  | 0, bs => some ([], bs)
  | n + 1, r :: g :: b :: bs =>
    match takePixels n bs with
    | some (ps, rest) => some (⟨r, g, b⟩ :: ps, rest)
    | none => none
  | _ + 1, _ => none

/-! ## The decoders -/

/-- Why a decoder gives no instruction. -/
inductive DecodeError where
  /-- The bytes are a proper beginning of a packet: the port waits for more (R28, R100). -/
  | incompletePacket
  /-- There is no segment at the end of a stream (block `B-DEC` stops there). -/
  | endOfStream
  /-- Fewer bytes follow the header than the segment needs (R153). -/
  | truncatedSegment
deriving DecidableEq, Repr

/-- What a decoder answers: an instruction and the bytes after it, or a named reason. -/
abbrev Decoded := Except DecodeError (Instr × List Byte)

/-- `RLE_ENC` after its opcode: `L`, then `L` values (R100, R103). -/
def decodeRleEnc : List Byte → Decoded
  | l0 :: l1 :: l2 :: l3 :: bs =>
    match takeColors (rd32 l0 l1 l2 l3).toNat bs with
    | some (v, rest) => .ok (.rleEnc v, rest)
    | none => .error .incompletePacket
  | _ => .error .incompletePacket

/-- `CW_FRAME` after its opcode: `P`, then `P` pixels (R100, R103). -/
def decodeCwFrame : List Byte → Decoded
  | p0 :: p1 :: p2 :: p3 :: bs =>
    match takePixels (rd32 p0 p1 p2 p3).toNat bs with
    | some (px, rest) => .ok (.cwFrame px, rest)
    | none => .error .incompletePacket
  | _ => .error .incompletePacket

/-- `CW_BEGIN` after its opcode: `N`, `W`, `H`, `FPS` (R100, R103). -/
def decodeCwBegin : List Byte → Decoded
  | n0 :: n1 :: n2 :: n3 :: w0 :: w1 :: h0 :: h1 :: fps :: rest =>
    .ok (.cwBegin (rd32 n0 n1 n2 n3) (rd16 w0 w1) (rd16 h0 h1) fps, rest)
  | _ => .error .incompletePacket

/-- `QUANT` after its opcode. -/
def decodeQuant : List Byte → Decoded
  | r :: g :: b :: rest => .ok (.quant r g b, rest)
  | _ => .error .incompletePacket

/-- `RDREG` after its opcode. -/
def decodeRdreg : List Byte → Decoded
  | a :: rest => .ok (.rdreg a, rest)
  | _ => .error .incompletePacket

/-- The command decoder: the opcode byte and the packet's own length fields decide how many bytes it takes,
never the state (R100, R104); every opcode outside the table is a one-byte packet (R102). -/
def decodeCommand : List Byte → Decoded
  | [] => .error .incompletePacket
  | op :: bs =>
    if op = 0x01#8 then decodeQuant bs
    else if op = 0x02#8 then decodeRleEnc bs
    else if op = 0x10#8 then decodeCwBegin bs
    else if op = 0x11#8 then decodeCwFrame bs
    else if op = 0x12#8 then .ok (.cwFinalize, bs)
    else if op = 0x20#8 then decodeRdreg bs
    else .ok (.illegal op, bs)

/-- A Run segment after its header with count field `n` (R82). -/
def decodeRun (n : BitVec 7) : List Byte → Decoded
  | b0 :: b1 :: rest => .ok (.run n (rd16 b0 b1), rest)
  | _ => .error .truncatedSegment

/-- A Literal segment after its header with count field `n` (R83). -/
def decodeLit (n : BitVec 7) (bs : List Byte) : Decoded :=
  match takeColors (n.toNat + 1) bs with
  | some (vs, rest) => .ok (.lit vs, rest)
  | none => .error .truncatedSegment

/-- The segment decoder: header bit 7 is the run flag, bits 6-0 the count minus one (R81, R85); all 256
header bytes are legal (R86). -/
def decodeSegment : List Byte → Decoded
  | [] => .error .endOfStream
  | h :: bs =>
    if h.getLsbD 7 then decodeRun (h.extractLsb' 0 7) bs else decodeLit (h.extractLsb' 0 7) bs

/-! ## The encoder -/

/-- The header byte of a segment: the run flag and the count field (R81). -/
def segmentHeader (flag : BitVec 1) (n : BitVec 7) : Byte := flag ++ n

/-- The bytes of a well-formed instruction (R82, R83, R100). -/
def encode : Instr → List Byte
  | .quant r g b => [0x01, r, g, b]
  | .rleEnc v => 0x02 :: le32 (BitVec.ofNat 32 v.length) ++ v.flatMap le16
  | .cwBegin n w h fps => 0x10 :: le32 n ++ le16 w ++ le16 h ++ [fps]
  | .cwFrame px => 0x11 :: le32 (BitVec.ofNat 32 px.length) ++ px.flatMap fun p => [p.r, p.g, p.b]
  | .cwFinalize => [0x12]
  | .rdreg a => [0x20, a]
  | .illegal op => [op]
  | .run n c => segmentHeader 1 n :: le16 c
  | .lit vs => segmentHeader 0 (BitVec.ofNat 7 (vs.length - 1)) :: vs.flatMap le16

/-- The length of an instruction in bytes, as the tables of R100 and R84 give it. -/
def Instr.byteLength : Instr → Nat
  | .quant _ _ _ => 4
  | .rleEnc v => 5 + 2 * v.length
  | .cwBegin _ _ _ _ => 10
  | .cwFrame px => 5 + 3 * px.length
  | .cwFinalize => 1
  | .rdreg _ => 2
  | .illegal _ => 1
  | .run _ _ => 3
  | .lit vs => 1 + 2 * vs.length

/-! ## The host's table words -/

/-- The lowest `k` bytes of `w`, lowest first. -/
def wordBytes : Nat → Nat → List Byte
  | 0, _ => []
  | k + 1, w => BitVec.ofNat 8 w :: wordBytes k (w / 256)

/-- Byte `i` of a byte list that zeros follow. -/
def byteAt (bs : List Byte) (i : Nat) : Byte := bs.getD i 0

/-- The 32-bit length field at bytes 1 to 4 of a packet that zeros follow. -/
def lengthField (bs : List Byte) : Nat :=
  (rd32 (byteAt bs 1) (byteAt bs 2) (byteAt bs 3) (byteAt bs 4)).toNat

/-- How long the instruction is that begins with these bytes and goes on with zeros: a command where the first
byte is the opcode of a command row, else the segment whose header the first byte is. -/
def tableLength (bs : List Byte) : Nat :=
  let op := byteAt bs 0
  if op = 0x01#8 then 4
  else if op = 0x02#8 then 5 + 2 * lengthField bs
  else if op = 0x10#8 then 10
  else if op = 0x11#8 then 5 + 3 * lengthField bs
  else if op = 0x12#8 then 1
  else if op = 0x20#8 then 2
  else if op.getLsbD 7 then 3
  else 1 + 2 * (op.toNat + 1)

/-- The bytes of a row of spec/opcode_table.json whose bits are `w`, every bit above `nbits` zero. -/
def tableBytes (nbits w : Nat) : List Byte :=
  let bs := wordBytes ((nbits + 7) / 8) w
  let need := tableLength bs
  bs.take need ++ List.replicate (need - bs.length) 0

/-- The first byte of a table word is the opcode of a command row. -/
def tableIsCommand (nbits w : Nat) : Bool := commandOpcodes.contains (byteAt (tableBytes nbits w) 0)

/-- The instruction the decoders read from a table word. The table mixes two code spaces and a word does not
say which it is in: a byte that is the opcode of a command row is read by the command decoder, every other one
by the segment decoder (DESIGN CHOICE, notes/assumptions/9.md). -/
def decodeTableWord (nbits w : Nat) : Option Instr :=
  match (if tableIsCommand nbits w then decodeCommand (tableBytes nbits w)
    else decodeSegment (tableBytes nbits w)) with
  | .ok (i, _) => some i
  | .error _ => none

end Sys2Proof
end

