-- ==== Sys2Proof/Machine/State.lean ====
section
/-! DEFINITION. The state of the machine as plain data: the record of spec/10_state.md R20, the sink of
spec/20_memory.md R51, the parameters of spec/00_scope.md R5, and what the host sends and sees. -/

namespace Sys2Proof.Machine

/-- `PHASE` (R21). -/
inductive Phase where
  /-- `IDLE` (0): no conversion is open. -/
  | idle
  /-- `OPEN` (1): a header and placeholder index have been written. -/
  | opened
  /-- `DONE` (2): the container is complete and valid. -/
  | done
  /-- `FAILED` (3): a conversion error was taken; only reset leaves it. -/
  | failed
deriving DecidableEq, Repr

/-- What the host does (spec/00_scope.md R13). The host has no write to the sink (spec/20_memory.md R69). -/
inductive HostEvent where
  /-- One byte on the command port (R100). -/
  | byte (b : Byte)
  /-- The reset input, between two bytes (R212). -/
  | reset
  /-- The reset input, requested while the operation executes whose last byte has just arrived (R212); with no
  operation executing it is a reset like any other. -/
  | resetDuring
  /-- A fresh sink is bound, every address unwritten (R263). -/
  | bindSink
  /-- `MemRead(addr, n)` with no operation in progress (R60). -/
  | memRead (addr n : Nat)
  /-- `MemRead(addr, n)` while the operation executes whose last byte has just arrived (R62); with no operation
  executing it is a read like any other. -/
  | memReadDuring (addr n : Nat)
  /-- A consumer reads `n` bytes at `addr` of a finished container and starts the reference decoder on them (R150,
  R184, R189). -/
  | decodeBlob (addr n : Nat)
deriving DecidableEq, Repr

/-- Why the machine stops with a fault. No operation of the core does. -/
inductive Fault where
  /-- Raised by a host read of a sink address that holds no value (R60, U11). Safe: the model stops. -/
  | unwrittenRead
  /-- Raised by a host read of an address that is not below `CAP`, which the sink does not have (R51). DEDUCED,
  notes/assumptions/10.md. Safe. -/
  | outsideSink
  /-- Raised by the reference decoder on a stream that ends inside a segment (R153, U18). Safe. -/
  | truncatedSegment
deriving DecidableEq, Repr

/-- Why the machine refuses. -/
inductive Refusal where
  /-- An instruction with no meaning yet; no arm of `exec` uses it. Safe. -/
  | notModelled (mnemonic : String)
  /-- Raised when the host binds a sink while a conversion is open (R273): the model gives it no move. Safe. -/
  | rebindDuringConversion
  /-- Raised when a consumer starts the reference decoder on a sink that holds no finished container (R189, R248,
  R272, U10: the model gives such a sink no meaning as frames). Safe. -/
  | noFinishedContainer
deriving DecidableEq, Repr

/-- One write transaction as the core issues it: the bytes and where they go, whatever the sink answers (R54). -/
structure Transaction where
  addr : Nat
  bytes : List Byte
deriving DecidableEq, Repr

/-- Plain data by key, keys strictly rising; an unlisted key holds nothing. -/
abbrev Cells (α : Type) := List (Nat × α)

/-- The machine. -/
@[ext]
structure State where
  /-- `PHASE`. -/
  phase : Phase
  /-- `ERR`, the sticky error cause (R22). -/
  err : Byte
  /-- `N`, the declared frame count (R23). -/
  n : Word
  /-- `W` (R23). -/
  w : Half
  /-- `H` (R23). -/
  h : Half
  /-- `FPS` (R23). -/
  fps : Byte
  /-- `IDX`, the recorded index offset (R25). -/
  idx : Word
  /-- `POS`, the write position (R24). -/
  pos : Word
  /-- `K`, the frames written so far (R27). -/
  k : Word
  /-- `OFF`: the entries written since the last reset (R26); an unlisted entry is unspecified (R35). -/
  off : Cells Word
  /-- `SIZE`: the entries written since the last reset (R26, R35). -/
  size : Cells Word
  /-- The command-port parser: the bytes received of the packet being received (R28). -/
  port : List Byte
  /-- The sink: an unlisted address is unwritten (R51). -/
  sink : List Host.Cell
  /-- The parameters (R5): no operation changes them (R20). -/
  cfg : Params
  /-- The responses emitted, oldest first (R101). -/
  out : List (List Byte)
  /-- What the host does next, first thing first. -/
  input : List HostEvent
  /-- The results of the host's reads of the sink, oldest first (R60). -/
  reads : List (List Byte)
  /-- The reference decoder's undecoded bytes (R150, block `B-DEC`: `S[j:]`). -/
  segs : List Byte
  /-- The values the reference decoder has decoded (block `B-DEC`: `F`). -/
  frame : List Color565
  /-- MODEL: the sink answers the environment has fixed, next one first (R55, U9). -/
  answers : List Answer
  /-- The write transactions issued, oldest first (R54, R68). -/
  issued : List Transaction
  /-- MODEL: the sink holds the container of a conversion whose `CW_FINALIZE` answered `0x00` (R189, R264), and no
  conversion has begun and no sink been bound since. -/
  finished : Bool
  /-- MODEL: how many resets have been taken. -/
  resets : Nat
deriving DecidableEq, Repr

/-- The parameters of the machine that `State.reset` stands for: the spec's defaults (R5), and a free value
where it gives none. -/
def Params.unset : Params where
  magic := ⟨Config.openMagic 0, Config.openMagic 1, Config.openMagic 2, Config.openMagic 3⟩
  cap := 0xFFFFFFFF
  maxFrames := Config.openMaxFrames
  shortPolicy := .fail
  seekable := true
  maxRleLen := 0x7F000000

/-- The machine right after power-on (R35, R260, R261) with a fresh sink bound (R263). -/
def State.reset : State where
  phase := .idle
  err := 0
  n := 0
  w := 0
  h := 0
  fps := 0
  idx := 0
  pos := 0
  k := 0
  off := []
  size := []
  port := []
  sink := []
  cfg := Params.unset
  out := []
  input := []
  reads := []
  segs := []
  frame := []
  answers := []
  issued := []
  finished := false
  resets := 0

end Sys2Proof.Machine
end

