-- ==== Sys2Proof/Machine/Flags.lean ====
section
/-! DEFINITION. Status codes and the `STATUS` word (spec/60_exceptions.md R230, spec/43_control.md R214): the
core's only flags (spec/10_state.md R32). -/

namespace Sys2Proof.Machine

/-- The statuses a response can carry (R230). -/
inductive Status where
  | ok
  | illegalOp
  | badSequence
  | badReg
  | tooLong
  | ioError
  | frameCountMismatch
  | tooManyFrames
  | frameSizeMismatch
  | capacity
deriving DecidableEq, Repr

/-- The code of a status (R230). -/
def statusCode : Status → Byte
  | .ok => 0x00
  | .illegalOp => 0x01
  | .badSequence => 0x02
  | .badReg => 0x03
  | .tooLong => 0x04
  | .ioError => 0x10
  | .frameCountMismatch => 0x11
  | .tooManyFrames => 0x12
  | .frameSizeMismatch => 0x13
  | .capacity => 0x14

/-- The statuses that are also stored in `ERR` (R230). -/
def isSticky : Status → Bool
  | .ok => false
  | .illegalOp => false
  | .badSequence => false
  | .badReg => false
  | .tooLong => false
  | .ioError => true
  | .frameCountMismatch => true
  | .tooManyFrames => true
  | .frameSizeMismatch => true
  | .capacity => true

/-- The 2-bit code of a phase (R21). -/
def phaseCode : Phase → BitVec 2
  | .idle => 0
  | .opened => 1
  | .done => 2
  | .failed => 3

/-- `STATUS[16]`: 0 FAIL, 1 TRUNCATE (R214). -/
def policyBit : ShortPolicy → BitVec 1
  | .fail => 0
  | .truncate => 1

/-- `STATUS` (R214): `PHASE` in bits 1-0, `ERR` in bits 15-8, `SHORT_POLICY` in bit 16, `SINK_SEEKABLE` in
bit 17, the rest hardwired 0. -/
def statusWord (s : State) : Word :=
  (phaseCode s.phase).setWidth 32 ||| (s.err.setWidth 32 <<< 8) |||
    ((policyBit s.cfg.shortPolicy).setWidth 32 <<< 16) ||| ((BitVec.ofBool s.cfg.seekable).setWidth 32 <<< 17)

end Sys2Proof.Machine
end

