-- ==== Sys2Proof/Machine/Ops.lean ====
section
/-! DEFINITION. The named operations over sparse memory, the sink and the registers: one write transaction
(spec/20_memory.md R54), a host read (R60), the two error exits (spec/60_exceptions.md R233, R234), the response
(spec/30_encoding.md R101) and the reset input (spec/43_control.md R212). -/

namespace Sys2Proof.Machine

/-! ## Cells -/

/-- The canonical form: keys strictly rising. An unlisted key holds nothing, so no listed entry repeats what an
unlisted one reads as. -/
abbrev Cells.wf {α : Type} (m : Cells α) : Prop := m.Pairwise fun x y => x.1 < y.1

/-- The canonical form of the sink's memory. -/
abbrev Memory.wf (m : List Host.Cell) : Prop := Cells.wf m

/-- What key `a` holds. -/
def cellGet {α : Type} : Cells α → Nat → Option α
  | [], _ => none
  | (b, v) :: m, a => if a = b then some v else cellGet m a

/-- Key `a` holds `v` afterwards. -/
def cellSet {α : Type} : Cells α → Nat → α → Cells α
  | [], a, v => [(a, v)]
  | (b, u) :: m, a, v =>
    if a < b then (a, v) :: (b, u) :: m
    else if a = b then (a, v) :: m
    else (b, u) :: cellSet m a v

/-- Key `a` holds nothing afterwards. -/
def cellErase {α : Type} (m : Cells α) (a : Nat) : Cells α := m.filter fun c => c.1 ≠ a

/-- Key `a` holds what is given, a value or nothing. -/
def cellPut {α : Type} (m : Cells α) (a : Nat) : Option α → Cells α
  | some v => cellSet m a v
  | none => cellErase m a

/-- The bytes `bs` at addresses `a`, `a + 1`, … (R54 on `ok`). -/
def writeBytes : Nat → List Byte → List Host.Cell → List Host.Cell
  | _, [], m => m
  | a, b :: bs, m => writeBytes (a + 1) bs (cellSet m a b)

/-- `len` addresses from `a` on after transaction `tx` drew `fail`: each unwritten or any byte (R54, U8). -/
def scrambleBytes (tx : Nat) : Nat → Nat → List Host.Cell → List Host.Cell
  | _, 0, m => m
  | a, len + 1, m => scrambleBytes tx (a + 1) len (cellPut m a (Config.failedCell tx a))

/-- The `n` bytes at `a`, if every one of them is written (R60). -/
def readBytes (m : List Host.Cell) : Nat → Nat → Option (List Byte)
  | _, 0 => some []
  | a, n + 1 =>
    match cellGet m a, readBytes m (a + 1) n with
    | some b, some bs => some (b :: bs)
    | _, _ => none

/-! ## The sink -/

/-- The sink's answer to the `j`-th transaction from now: fixed by the environment, else free (R55). -/
def answerAt (s : State) (j : Nat) : Answer :=
  match s.answers[j]? with
  | some a => a
  | none => Config.sinkAnswer (s.issued.length + j)

/-- The transaction is issued, and one answer drawn. -/
def issue (addr : Nat) (bs : List Byte) (s : State) : State :=
  { s with answers := s.answers.tail, issued := s.issued ++ [⟨addr, bs⟩] }

/-- `SinkWrite(addr, S)` (R54): one transaction. It does not move `POS`. -/
def sinkWrite (addr : Nat) (bs : List Byte) (s : State) : Answer × State :=
  match answerAt s 0 with
  | .ok => (.ok, { issue addr bs s with sink := writeBytes addr bs s.sink })
  | .fail => (.fail, { issue addr bs s with sink := scrambleBytes s.issued.length addr bs.length s.sink })

/-- `SinkWrite(addr, S)` where `S` may be empty: there is no transaction of length 0 (R54, R68). -/
def sinkPlace (addr : Nat) (bs : List Byte) (s : State) : Answer × State :=
  match bs with
  | [] => (.ok, s)
  | b :: rest => sinkWrite addr (b :: rest) s

/-! ## Responses and error exits -/

/-- The response `bs` is emitted (R101). -/
def emit (bs : List Byte) (s : State) : State := { s with out := s.out ++ [bs] }

/-- `return OK` with a payload (R10, R101). -/
def respondOk (payload : List Byte) (s : State) : State := emit (statusCode .ok :: payload) s

/-- `reject(e)`, the non-sticky exit: nothing changes, the response is `[e]` (R234). -/
def reject (e : Status) (s : State) : State := emit [statusCode e] s

/-- `fail(e)`, the sticky exit, the core's only trap: `ERR <- e`, `PHASE <- FAILED`, the response is `[e]`
(R233). -/
def failWith (e : Status) (s : State) : State :=
  emit [statusCode e] { s with err := statusCode e, phase := .failed }

/-- Go on if the transaction was answered `ok`, else take `fail(IO_ERROR)` (R54, R232). -/
def onOk (r : Answer × State) (go : State → State) : State :=
  match r.1 with
  | .ok => go r.2
  | .fail => failWith .ioError r.2

/-! ## The tables -/

/-- `OFF[i]` (R26). -/
def offAt (s : State) (i : Nat) : Word := (cellGet s.off i).getD (Config.unspecifiedOff s.resets i)

/-- `SIZE[i]` (R26). -/
def sizeAt (s : State) (i : Nat) : Word := (cellGet s.size i).getD (Config.unspecifiedSize s.resets i)

/-! ## Reset -/

/-- The reset input (R212, R35): every register to its reset value, `OFF` and `SIZE` unspecified, a partly
received packet discarded; the sink, the parameters and everything on the host's side unchanged; no response. -/
def takeReset (s : State) : State :=
  { s with
    phase := .idle, err := 0, n := 0, w := 0, h := 0, fps := 0, idx := 0, pos := 0, k := 0
    off := [], size := [], port := [], resets := s.resets + 1 }

end Sys2Proof.Machine
end

