-- ==== Sys2Proof/Machine/Operands.lean ====
section
/-! DEFINITION. The operand forms of the operations: the register map of `RDREG` (spec/43_control.md R213), the
pixel count of a frame (spec/10_state.md R23), and the byte images the Container Writer stores
(spec/42_container.md R170, spec/30_encoding.md R91, R94). -/

namespace Sys2Proof.Machine

/-- `Reg(A)` (R213); `none` where the map has no register. -/
def registerValue (s : State) (a : Byte) : Option Word :=
  match a.toNat with
  | 0 => some (statusWord s)
  | 1 => some s.n
  | 2 => some s.k
  | 3 => some (s.w.setWidth 32 ||| (s.h.setWidth 32 <<< 16))
  | 4 => some (s.fps.setWidth 32 ||| (Config.compressionRle.setWidth 32 <<< 8))
  | 5 => some s.idx
  | 6 => some s.pos
  | 7 => some s.cfg.maxFrames
  | 8 => some s.cfg.cap
  | 9 => some (rd32 s.cfg.magic.m0 s.cfg.magic.m1 s.cfg.magic.m2 s.cfg.magic.m3)
  | _ => none

/-- `W * H`, the pixel count every `CW_FRAME` must supply (R23), with no wrap-around (R7). -/
def pixelCount (s : State) : Nat := s.w.toNat * s.h.toNat

/-- `20 + 8*n`: where the blob region begins (R58). -/
def blobBase (n : Word) : Nat := Config.headerSize + Config.entrySize * n.toNat

/-- The four bytes of `MAGIC`. -/
def magicBytes (m : Magic) : List Byte := [m.m0, m.m1, m.m2, m.m3]

/-- `Header(n, w, h, fps, io)`, the 20-byte header image (R170, R90). -/
def headerImage (m : Magic) (n : Word) (w h : Half) (fps : Byte) (io : Word) : List Byte :=
  magicBytes m ++ le32 n ++ le16 w ++ le16 h ++ [fps] ++ [Config.compressionRle] ++ [0, 0] ++ le32 io

/-- `zeros(n)` (R9). -/
def zeros (n : Nat) : List Byte := List.replicate n 0

/-- An index entry: `le32(offset) ++ le32(size)` (R91). -/
def entryImage (offset size : Word) : List Byte := le32 offset ++ le32 size

end Sys2Proof.Machine
end

