-- ==== Sys2Proof/Machine/Quantizer.lean ====
section
/-! DEFINITION. The Pixel Quantizer (spec/40_quantizer.md). -/

namespace Sys2Proof.Machine

/-- `Quant(r, g, b)` (R121): the top 5, 6 and 5 bits of the channels; no rounding. -/
def quantize (r g b : Byte) : Color565 :=
  ((r >>> 3).setWidth 16 <<< 11) ||| ((g >>> 2).setWidth 16 <<< 5) ||| (b >>> 3).setWidth 16

/-- The Color565 value of a raw pixel (R124). -/
def quantizePixel (p : Pixel) : Color565 := quantize p.r p.g p.b

/-- The frame of a raw pixel buffer, element by element in pixel order (R124). -/
def quantizeFrame (px : List Pixel) : List Color565 := px.map quantizePixel

/-- `QUANT` (R120): no error, no state, every phase. -/
def execQuant (r g b : Byte) (s : State) : Host.Outcome State Fault Refusal :=
  .next (respondOk (le16 (quantize r g b)) s)

end Sys2Proof.Machine
end

