-- ==== Sys2Proof/Machine/Rle.lean ====
section
/-! DEFINITION. The Frame RLE encoder and the segments it emits (spec/41_rle.md). The cursor of block `B-RLE` is
kept as the part of the frame still to be encoded: `F[i:]`. -/

namespace Sys2Proof.Machine

/-- How many of the first `cap` values of a list equal `c` before the first that does not. -/
def countEqual (c : Color565) : Nat → List Color565 → Nat
  | 0, _ => 0
  | _ + 1, [] => 0
  | cap + 1, d :: ds => if d = c then countEqual c cap ds + 1 else 0

/-- `RunLen(F, i, cap)` (R130, block `B-RUNLEN`) at the head of `F[i:]`; the value there is counted, whatever
the cap. -/
def runLen (cap : Nat) : List Color565 → Nat
  | [] => 0
  | c :: cs => countEqual c (cap - 1) cs + 1

/-- The count of a literal that begins here (R133): the inner loop of block `B-RLE` with `room` values left
under the cap of 128. The three tests are made before a value is taken. -/
def literalLen : Nat → List Color565 → Nat
  | 0, _ => 0
  | _ + 1, [] => 0
  | room + 1, c :: cs => if runLen 3 (c :: cs) < Config.runMin then literalLen room cs + 1 else 0

/-- The outer loop of block `B-RLE` (R131, R132), one segment a round, at most `rounds` of them. -/
def segmentsWithin : Nat → List Color565 → List Instr
  | 0, _ => []
  | _ + 1, [] => []
  | rounds + 1, c :: cs =>
    let r := runLen Config.segMax (c :: cs)
    if Config.runMin ≤ r then
      .run (BitVec.ofNat 7 (r - 1)) c :: segmentsWithin rounds ((c :: cs).drop r)
    else
      let l := literalLen Config.segMax (c :: cs)
      .lit ((c :: cs).take l) :: segmentsWithin rounds ((c :: cs).drop l)

/-- The segments of a frame in order: every round takes at least one value, so `|F|` rounds reach its end. -/
def rleSegments (f : List Color565) : List Instr := segmentsWithin f.length f

/-- `RleEncode(F)` (R131): the bytes of the segments (R134, R135), with no separator (R84). -/
def rleEncode (f : List Color565) : List Byte := (rleSegments f).flatMap encode

/-- The values a segment stands for (R151, R152); a command stands for none. -/
def segmentValues : Instr → List Color565
  | .run n c => List.replicate (n.toNat + 1) c
  | .lit vs => vs
  | .quant _ _ _ => []
  | .rleEnc _ => []
  | .cwBegin _ _ _ _ => []
  | .cwFrame _ => []
  | .cwFinalize => []
  | .rdreg _ => []
  | .illegal _ => []

/-- `RleDecode(S)` (R150, block `B-DEC`) with at most `rounds` segments; `none` is `TRUNCATED` (R153). -/
def decodeWithin : Nat → List Byte → Option (List Color565)
  | _, [] => some []
  | 0, _ :: _ => none
  | rounds + 1, h :: bs =>
    match decodeSegment (h :: bs) with
    | .ok (i, rest) => (decodeWithin rounds rest).map fun f => segmentValues i ++ f
    | .error _ => none

/-- `RleDecode(S)`, a reference function and no operation of the core (R150): every segment takes at least one
byte, so `|S|` rounds reach the end of `S`. -/
def rleDecode (bs : List Byte) : Option (List Color565) := decodeWithin bs.length bs

/-- `RLE_ENC` (R140): every phase; a sequence longer than `MAX_RLE_LEN` is refused with `TOO_LONG`. -/
def runRleEnc (v : List Color565) (s : State) : State :=
  if s.cfg.maxRleLen.toNat < v.length then reject .tooLong s
  else respondOk (le32 (BitVec.ofNat 32 (rleEncode v).length) ++ rleEncode v) s

/-- `RLE_ENC` (R140). -/
def execRleEnc (v : List Color565) (s : State) : Host.Outcome State Fault Refusal := .next (runRleEnc v s)

/-- The reference decoder takes the values of one segment (block `B-DEC`). -/
def takeSegment (i : Instr) (s : State) : State := { s with frame := s.frame ++ segmentValues i }

/-- `RUN` (R151): `n + 1` copies of the value. -/
def execRun (n : BitVec 7) (c : Color565) (s : State) : Host.Outcome State Fault Refusal :=
  .next (takeSegment (.run n c) s)

/-- `LIT` (R152): the values in order. -/
def execLit (vs : List Color565) (s : State) : Host.Outcome State Fault Refusal :=
  .next (takeSegment (.lit vs) s)

end Sys2Proof.Machine
end

