-- ==== Sys2Proof/Machine/Container.lean ====
section
/-! DEFINITION. The Container Writer (spec/42_container.md): blocks `B-BEGIN`, `B-FRAME` and `B-FIN`, each step of
a block a definition of its own. The tests stand in the order of spec/60_exceptions.md R236. -/

namespace Sys2Proof.Machine

/-! ## CW_BEGIN -/

/-- `N <- n; W <- w; H <- h; FPS <- fps` (R23). A conversion has begun: until its `CW_FINALIZE` succeeds the sink
holds no finished container (R189, R248). -/
def setMeta (n : Word) (w h : Half) (fps : Byte) (s : State) : State :=
  { s with n := n, w := w, h := h, fps := fps, finished := false }

/-- After the header write: `POS <- 20; IDX <- POS` (R25). -/
def recordIndex (s : State) : State :=
  { s with pos := BitVec.ofNat 32 Config.headerSize, idx := BitVec.ofNat 32 Config.headerSize }

/-- After the placeholders: `POS <- 20 + 8*n; K <- 0; PHASE <- OPEN`. -/
def openConversion (s : State) : State :=
  { s with pos := BitVec.ofNat 32 (blobBase s.n), k := 0, phase := .opened }

/-- The writes of block `B-BEGIN`: the header with a zero index offset, then the zero placeholders (R94). -/
def writeHead (s : State) : State :=
  onOk (sinkWrite 0 (headerImage s.cfg.magic s.n s.w s.h s.fps 0) s) fun s1 =>
    onOk (sinkPlace Config.headerSize (zeros (Config.entrySize * s.n.toNat)) (recordIndex s1)) fun s2 =>
      respondOk [] (openConversion s2)

/-- Block `B-BEGIN` once the metadata is stored: the sink and capacity tests, then the writes (R56, R57). -/
def beginConversion (s : State) : State :=
  if s.cfg.seekable = false then failWith .ioError s
  else if s.cfg.maxFrames.toNat < s.n.toNat then failWith .capacity s
  else if s.cfg.cap.toNat < blobBase s.n then failWith .ioError s
  else writeHead s

/-- Block `B-BEGIN` (R180). -/
def runBegin (n : Word) (w h : Half) (fps : Byte) (s : State) : State :=
  if s.phase ≠ .idle then reject .badSequence s else beginConversion (setMeta n w h fps s)

/-- `CW_BEGIN` (R180). -/
def execCwBegin (n : Word) (w h : Half) (fps : Byte) (s : State) : Host.Outcome State Fault Refusal :=
  .next (runBegin n w h fps s)

/-! ## CW_FRAME -/

/-- `OFF[K] <- POS; SIZE[K] <- |B|; POS <- POS + |B|; K <- K + 1` (R26, R27). -/
def recordFrame (len : Nat) (s : State) : State :=
  { s with
    off := cellSet s.off s.k.toNat s.pos
    size := cellSet s.size s.k.toNat (BitVec.ofNat 32 len)
    pos := BitVec.ofNat 32 (s.pos.toNat + len)
    k := s.k + 1 }

/-- Block `B-FRAME` once the blob is encoded: the capacity test, the write, the records (R56). -/
def placeBlob (blob : List Byte) (s : State) : State :=
  if s.cfg.cap.toNat < s.pos.toNat + blob.length then failWith .ioError s
  else onOk (sinkPlace s.pos.toNat blob s) fun s1 => respondOk [] (recordFrame blob.length s1)

/-- Block `B-FRAME` (R181). -/
def runFrame (px : List Pixel) (s : State) : State :=
  if s.phase ≠ .opened then reject .badSequence s
  else if s.k = s.n then failWith .tooManyFrames s
  else if px.length ≠ pixelCount s then failWith .frameSizeMismatch s
  else placeBlob (rleEncode (quantizeFrame px)) s

/-- `CW_FRAME` (R181). -/
def execCwFrame (px : List Pixel) (s : State) : Host.Outcome State Fault Refusal := .next (runFrame px s)

/-! ## CW_FINALIZE -/

/-- Under `TRUNCATE` with `K < N`, the header's `frame_count` is corrected to `K` (R187); else no write. -/
def patchCount (s : State) : Answer × State :=
  if s.k.toNat < s.n.toNat then sinkWrite 4 (le32 s.k) s else (.ok, s)

/-- Entry `i` of the index as the tables have it (R91). -/
def tableEntry (s : State) (i : Nat) : List Byte := entryImage (offAt s i) (sizeAt s i)

/-- Entries `i`, `i + 1`, …, `m` of them, patched in order, one transaction each, up to the first that draws
`fail` (R182, R68). -/
def patchEntries : Nat → Nat → State → Answer × State
  | 0, _, s => (.ok, s)
  | m + 1, i, s =>
    match sinkWrite (s.idx.toNat + Config.entrySize * i) (tableEntry s i) s with
    | (.fail, s1) => (.fail, s1)
    | (.ok, s1) => patchEntries m (i + 1) s1

/-- The patches of block `B-FIN`: the index offset, the frame count, the entries; then `PHASE <- DONE`, and
the container is finished (R189). -/
def patchContainer (s : State) : State :=
  onOk (sinkWrite 16 (le32 s.idx) s) fun s1 =>
    onOk (patchCount s1) fun s2 =>
      onOk (patchEntries s2.k.toNat 0 s2) fun s3 => respondOk [] { s3 with phase := .done, finished := true }

/-- Block `B-FIN` (R182). -/
def runFinalize (s : State) : State :=
  if s.phase ≠ .opened then reject .badSequence s
  else if s.k.toNat < s.n.toNat ∧ s.cfg.shortPolicy = .fail then failWith .frameCountMismatch s
  else patchContainer s

/-- `CW_FINALIZE` (R182). -/
def execCwFinalize (s : State) : Host.Outcome State Fault Refusal := .next (runFinalize s)

end Sys2Proof.Machine
end

