-- ==== Sys2Proof/Machine/Control.lean ====
section
/-! DEFINITION. The control operations (spec/43_control.md). -/

namespace Sys2Proof.Machine

/-- `RDREG` (R210): the register's value, or `BAD_REG` where the map has none; every phase, no side effect. -/
def runRdreg (a : Byte) (s : State) : State :=
  match registerValue s a with
  | some v => respondOk (le32 v) s
  | none => reject .badReg s

/-- `RDREG` (R210). -/
def execRdreg (a : Byte) (s : State) : Host.Outcome State Fault Refusal := .next (runRdreg a s)

/-- An undefined opcode byte (R211, R102): refused with `ILLEGAL_OP` whatever the byte. -/
def execIllegal (_op : Byte) (s : State) : Host.Outcome State Fault Refusal := .next (reject .illegalOp s)

end Sys2Proof.Machine
end

