-- ==== Sys2Proof/Machine/Dispatch.lean ====
section
/-! DEFINITION. The meaning of each instruction, one arm per constructor. -/

namespace Sys2Proof.Machine

def exec (i : Instr) (s : State) : Host.Outcome State Fault Refusal :=
  match i with
  | .quant r g b => Sys2Proof.Machine.execQuant r g b s
  | .rleEnc v => Sys2Proof.Machine.execRleEnc v s
  | .cwBegin n w h fps => Sys2Proof.Machine.execCwBegin n w h fps s
  | .cwFrame px => Sys2Proof.Machine.execCwFrame px s
  | .cwFinalize => Sys2Proof.Machine.execCwFinalize s
  | .rdreg a => Sys2Proof.Machine.execRdreg a s
  | .illegal op => Sys2Proof.Machine.execIllegal op s
  | .run n c => Sys2Proof.Machine.execRun n c s
  | .lit vs => Sys2Proof.Machine.execLit vs s

end Sys2Proof.Machine
end

