-- ==== Sys2Proof/Machine/Port.lean ====
section
/-! DEFINITION. The command port and the host (spec/30_encoding.md R100, spec/43_control.md R212,
spec/20_memory.md R60-R62, spec/70_reset_and_hazards.md R263): where the next instruction comes from, and what the
host does before, during and after it. -/

namespace Sys2Proof.Machine

/-- Where the next instruction stands: the reference decoder's stream while it has bytes, else the command port.
Either way the state comes with the instruction's bytes taken away. -/
def fetch (s : State) : Except DecodeError (Instr × State) :=
  match s.segs with
  | [] => (decodeCommand s.port).map fun d => (d.1, { s with port := d.2 })
  | h :: bs => (decodeSegment (h :: bs)).map fun d => (d.1, { s with segs := d.2 })

/-- A host read of `n` bytes at `addr` reads some address that is not below `CAP`. A read of no byte reads no
address, so it does not, wherever it is (DEDUCED, notes/assumptions/10.md). -/
def leavesSink (addr n : Nat) (s : State) : Bool := n ≠ 0 ∧ s.cfg.cap.toNat < addr + n

/-- `MemRead(addr, n)` after the last response (R60): every byte must exist (R51; that its absence is a fault is
DEDUCED, notes/assumptions/10.md) and be written. -/
def hostRead (addr n : Nat) (s : State) : Except Fault (List Byte) :=
  if leavesSink addr n s then .error .outsideSink
  else
    match readBytes s.sink addr n with
    | some bs => .ok bs
    | none => .error .unwrittenRead

/-- The byte that transaction `tx` writes at `a`, if it writes there. -/
def transactionByte (a : Nat) (tx : Transaction) : Option Byte := if tx.addr ≤ a then tx.bytes[a - tx.addr]? else none

/-- The values that R62 admits at `a` for a read racing with the operation that takes `before` to `after`: the one
before, the one it leaves, and every byte it writes there, whatever the sink answers. -/
def racingViews (before after : State) (a : Nat) : List (Option Byte) :=
  cellGet before.sink a :: cellGet after.sink a ::
    ((after.issued.drop before.issued.length).filterMap (transactionByte a)).map some

/-- What that read, being host read number `k`, sees at `a`: one of those values, freely chosen (R62, U12). -/
def racingCell (k : Nat) (before after : State) (a : Nat) : Option Byte :=
  let views := racingViews before after a
  views.getD (Config.raceChoice k a % views.length) (cellGet before.sink a)

/-- The `n` bytes a racing read sees at `a`, if each of them is a byte. -/
def racingBytes (k : Nat) (before after : State) : Nat → Nat → Option (List Byte)
  | _, 0 => some []
  | a, n + 1 =>
    match racingCell k before after a, racingBytes k before after (a + 1) n with
    | some b, some bs => some (b :: bs)
    | _, _ => none

/-- `MemRead(addr, n)` while an operation takes `before` to `after` (R62). -/
def hostReadRacing (before : State) (addr n : Nat) (after : State) : Except Fault (List Byte) :=
  if leavesSink addr n after then .error .outsideSink
  else
    match racingBytes after.reads.length before after addr n with
    | some bs => .ok bs
    | none => .error .unwrittenRead

/-- What the host does while an operation executes that takes `before` to `after`: it may read the sink, and it
may assert reset, which takes effect after the operation's writes and before its response (R62, R212). A container
whose `CW_FINALIZE` so gives no response is not a finished one (R264, R272). -/
def hostDuring (before : State) : List HostEvent → State → Host.Outcome State Fault Refusal
  | .memReadDuring addr n :: es, after =>
    match hostReadRacing before addr n after with
    | .ok bs => hostDuring before es { after with reads := after.reads ++ [bs] }
    | .error f => .fault f
  | .resetDuring :: es, after => .next (takeReset { after with
      out := before.out, input := es, finished := before.finished && after.finished })
  | es, after => .next { after with input := es }

/-- The next state of an operation, where there is one, under what the host, whose next actions are those of the
state before it, does meanwhile. -/
def underHost (before : State) (r : Host.Outcome State Fault Refusal) : Host.Outcome State Fault Refusal :=
  match r with
  | .next t => hostDuring before before.input t
  | .fault f => .fault f
  | .refused q => .refused q

/-- A fresh sink is bound, which holds no container; during a conversion the host has no such move (R263, R273;
DEDUCED, notes/assumptions/11.md). -/
def bindSink (s : State) : Host.Outcome State Fault Refusal :=
  if s.phase = .opened then .refused .rebindDuringConversion else .next { s with sink := [], finished := false }

/-- The result of a read is the host's. -/
def hostReadDone (addr n : Nat) (s : State) : Host.Outcome State Fault Refusal :=
  match hostRead addr n s with
  | .ok bs => .next { s with reads := s.reads ++ [bs] }
  | .error f => .fault f

/-- The reference decoder starts on bytes of a finished container (R150, R184). Any other sink, that of an open, a
failed or an abandoned conversion among them, has no meaning as frames: the consumer is refused (R189, R248, R272,
U10). That any bytes of a finished container may be decoded, and in `IDLE` after a reset too, is the model's choice
(DESIGN CHOICE, notes/assumptions/6.md). -/
def startDecoder (addr n : Nat) (s : State) : Host.Outcome State Fault Refusal :=
  if s.finished then
    match hostRead addr n s with
    | .ok bs => .next { s with segs := bs, frame := [] }
    | .error f => .fault f
  else .refused .noFinishedContainer

/-- One thing the host does while no operation executes. -/
def hostAct : HostEvent → State → Host.Outcome State Fault Refusal
  | .byte b, s => .next { s with port := s.port ++ [b] }
  | .reset, s => .next (takeReset s)
  | .resetDuring, s => .next (takeReset s)
  | .bindSink, s => bindSink s
  | .memRead addr n, s => hostReadDone addr n s
  | .memReadDuring addr n, s => hostReadDone addr n s
  | .decodeBlob addr n, s => startDecoder addr n s

/-- No complete packet is held: the next thing the host does; while it does nothing, the core waits (R276). -/
def awaitHost (s : State) : Host.Outcome State Fault Refusal :=
  match s.input with
  | [] => .next s
  | e :: es => hostAct e { s with input := es }

end Sys2Proof.Machine
end

