-- ==== Sys2Proof/Machine/Step.lean ====
section
/-! DEFINITION. One step of the machine: one operation, from its complete packet to its complete response
(spec/00_scope.md R14), or one segment, or one thing the host does. -/

namespace Sys2Proof.Machine

/-- One step. A complete instruction is executed, with what the host does meanwhile; a stream that ends inside a
segment faults (spec/41_rle.md R153); else the machine takes the host's next action. -/
def step (s : State) : Host.Outcome State Fault Refusal :=
  match fetch s with
  | .ok (i, s1) => underHost s (exec i s1)
  | .error .truncatedSegment => .fault .truncatedSegment
  | .error .incompletePacket => awaitHost s
  | .error .endOfStream => awaitHost s

/-- `s` with the instruction of a table word where `step` fetches next: a command in the command port with no
segment stream before it, a segment in the reference decoder's stream. -/
def State.withFetchWord (s : State) (nbits w : Nat) : State :=
  if tableIsCommand nbits w then { s with segs := [], port := tableBytes nbits w }
  else { s with segs := tableBytes nbits w }

end Sys2Proof.Machine
end

