-- ==== Sys2Proof/Safety.lean ====
section
/-! DEFINITION. What claims about the machine are stated in: the premise that the sink answers ok
(spec/20_memory.md R55), the invariant of the state (spec/10_state.md R33), a conversion whose frames are known,
and the container it leaves (spec/42_container.md R184-R187). -/

namespace Sys2Proof.Machine

/-! ## Premises -/

/-- The sink answers ok to each of the next `m` transactions (R55: "takes 'every sink answer was ok' as a named
premise"). -/
def SinkAnswersOk (s : State) (m : Nat) : Prop := ∀ j, j < m → answerAt s j = .ok

/-- The transactions `CW_BEGIN n, w, h, fps` issues if none fails: the header and, for `n > 0`, the placeholders
(R68). -/
def beginWrites (m : Magic) (n : Word) (w h : Half) (fps : Byte) : List Transaction :=
  ⟨0, headerImage m n w h fps 0⟩ :: if n = 0 then [] else [⟨20, List.replicate (8 * n.toNat) 0⟩]

/-- The transactions `CW_FINALIZE` issues in `s` if none fails: the index offset, the count under `TRUNCATE`, and one
for each entry (R68). -/
def finalizeWrites (s : State) : List Transaction :=
  ⟨16, le32 s.idx⟩ :: (if s.k.toNat < s.n.toNat then [⟨4, le32 s.k⟩] else []) ++
    (List.range s.k.toNat).map fun i => ⟨s.idx.toNat + 8 * i, le32 (offAt s i) ++ le32 (sizeAt s i)⟩

/-- The operation is one of the three container operations. -/
def isContainerOp : Instr → Bool
  | .cwBegin _ _ _ _ => true
  | .cwFrame _ => true
  | .cwFinalize => true
  | .quant _ _ _ => false
  | .rleEnc _ => false
  | .rdreg _ => false
  | .illegal _ => false
  | .run _ _ => false
  | .lit _ => false

/-- The phase accepts the operation (R21). -/
def phaseAccepts (p : Phase) : Instr → Bool
  | .cwBegin _ _ _ _ => p = .idle
  | .cwFrame _ => p = .opened
  | .cwFinalize => p = .opened
  | .quant _ _ _ => true
  | .rleEnc _ => true
  | .rdreg _ => true
  | .illegal _ => true
  | .run _ _ => true
  | .lit _ => true

/-- What the host does next happens while an operation executes (R62, R212). -/
def HostEvent.isDuring : HostEvent → Bool
  | .resetDuring => true
  | .memReadDuring _ _ => true
  | .byte _ => false
  | .reset => false
  | .bindSink => false
  | .memRead _ _ => false
  | .decodeBlob _ _ => false

/-! ## The invariant of the state -/

/-- `SIZE[0] + ... + SIZE[i-1]` (R33). -/
def sizeSum (s : State) : Nat → Nat
  | 0 => 0
  | i + 1 => sizeSum s i + (sizeAt s i).toNat

/-- The invariants of R33, of the phases `OPEN` and `DONE`. -/
structure ConversionInv (s : State) : Prop where
  idx_eq : s.idx = 20
  n_le : s.n.toNat ≤ s.cfg.maxFrames.toNat
  off_eq : ∀ i, i < s.k.toNat → (offAt s i).toNat = blobBase s.n + sizeSum s i
  pos_eq : s.pos.toNat = blobBase s.n + sizeSum s s.k.toNat

/-- The registers as reset leaves them (R35). -/
def RegistersReset (s : State) : Prop :=
  s.n = 0 ∧ s.w = 0 ∧ s.h = 0 ∧ s.fps = 0 ∧ s.idx = 0 ∧ s.pos = 0 ∧ s.k = 0 ∧ s.err = 0

/-- The command port holds at most one complete packet (R100: "only then accepts the first byte of the next
packet"). -/
def PortHoldsOnePacket (s : State) : Prop := ∀ i rest, decodeCommand s.port = .ok (i, rest) → rest = []

/-- The invariant of the state: the sink in its canonical form below `CAP` (R51, R56), the tables within
`MAX_FRAMES` (R26), `POS <= CAP` (R24), `K <= N` (R27), `ERR` zero exactly outside `FAILED` and a sticky code in
it (R22, R214), every register at its reset value in `IDLE` (R21, R35), R33 in `OPEN` and `DONE`, and no finished container while a
conversion is open or has failed (R189, R248). -/
structure Inv (s : State) : Prop where
  sink_wf : Memory.wf s.sink
  sink_below_cap : ∀ c, c ∈ s.sink → c.1 < s.cfg.cap.toNat
  off_wf : Cells.wf s.off
  size_wf : Cells.wf s.size
  off_bound : ∀ c, c ∈ s.off → c.1 < s.cfg.maxFrames.toNat
  size_bound : ∀ c, c ∈ s.size → c.1 < s.cfg.maxFrames.toNat
  pos_le : s.pos.toNat ≤ s.cfg.cap.toNat
  k_le : s.k.toNat ≤ s.n.toNat
  err_failed : s.phase = .failed → ∃ e, isSticky e = true ∧ s.err = statusCode e
  err_zero : s.phase ≠ .failed → s.err = 0
  idle_reset : s.phase = .idle → RegistersReset s
  conversion : s.phase = .opened ∨ s.phase = .done → ConversionInv s
  unfinished : s.phase = .opened ∨ s.phase = .failed → s.finished = false

/-! ## A conversion whose frames are known -/

/-- The Frame Blob Region of a list of frames (R92). -/
def blobs (fs : List (List Color565)) : List Byte := fs.flatMap rleEncode

/-- The Frame Index Table entries of frames whose blobs begin at `base` (R91). -/
def entryImages : Nat → List (List Color565) → List Byte
  | _, [] => []
  | base, f :: fs =>
    entryImage (BitVec.ofNat 32 base) (BitVec.ofNat 32 (rleEncode f).length) ++
      entryImages (base + (rleEncode f).length) fs

/-- A conversion is open and exactly the frames `fs` have been placed: the tables describe their blobs, the sink
holds the header with a zero index offset, the zero placeholders, and the blobs (R58, R94, R183). -/
structure OpenWith (fs : List (List Color565)) (s : State) : Prop where
  phase_eq : s.phase = .opened
  count : s.k.toNat = fs.length
  room : fs.length ≤ s.n.toNat
  idx_eq : s.idx = 20
  pos_eq : s.pos.toNat = blobBase s.n + (blobs fs).length
  offs : ∀ i f, fs[i]? = some f → (offAt s i).toNat = blobBase s.n + (blobs (fs.take i)).length
  sizes : ∀ i f, fs[i]? = some f → (sizeAt s i).toNat = (rleEncode f).length
  header : readBytes s.sink 0 Config.headerSize = some (headerImage s.cfg.magic s.n s.w s.h s.fps 0)
  table : readBytes s.sink Config.headerSize (Config.entrySize * s.n.toNat) =
    some (zeros (Config.entrySize * s.n.toNat))
  region : readBytes s.sink (blobBase s.n) (blobs fs).length = some (blobs fs)

/-- The finished container of frames `fs`, declared count `s.n`: the header with the true count and index offset,
the entries, a zero slot for each declared frame that is missing, the blobs (R58, R185, R187). -/
def containerImage (s : State) (fs : List (List Color565)) : List Byte :=
  headerImage s.cfg.magic (BitVec.ofNat 32 fs.length) s.w s.h s.fps 20 ++ entryImages (blobBase s.n) fs ++
    zeros (Config.entrySize * (s.n.toNat - fs.length)) ++ blobs fs

/-- `rd32(C, i)` of a container (R9). -/
def containerWord (c : List Byte) (i : Nat) : Word :=
  rd32 (byteAt c i) (byteAt c (i + 1)) (byteAt c (i + 2)) (byteAt c (i + 3))

/-- Index correctness (R184): every entry the header counts locates a blob that decodes to its frame. -/
def IndexCorrect (c : List Byte) (fs : List (List Color565)) : Prop :=
  (containerWord c 4).toNat = fs.length ∧
  ∀ i f, fs[i]? = some f →
    let entry := (containerWord c 16).toNat + 8 * i
    let off := (containerWord c entry).toNat
    let sz := (containerWord c (entry + 4)).toNat
    rleDecode ((c.drop off).take sz) = some f

/-- The status byte of the last response is `0x00` (R101). -/
def lastAnswerOk (s : State) : Bool := (s.out.getLast?.bind List.head?) = some 0x00

/-- Command packets in order; they stop after the first whose response has a status other than `0x00` (R106). -/
def execAll : List Instr → State → Host.Outcome State Fault Refusal
  | [], s => .next s
  | i :: is, s =>
    match exec i s with
    | .next t => if lastAnswerOk t then execAll is t else .next t
    | .fault f => .fault f
    | .refused q => .refused q

/-- The packets `CONVERT n, w, h, fps, F_0, ..., F_{k-1}` expands to (spec/30_encoding.md R106). -/
def convert (n : Word) (w h : Half) (fps : Byte) (frames : List (List Pixel)) : List Instr :=
  .cwBegin n w h fps :: (frames.map Instr.cwFrame ++ [.cwFinalize])

end Sys2Proof.Machine
end

