-- ==== Sys2Proof/Certificates/Slice0/Obligations.lean ====
section
/-! DEFINITION. The statements for the provers, from the numbered rules of spec/. Each docstring names the rules
and, where a clause is the model's own choice, the log entry that says so. -/

open Sys2Proof Sys2Proof.Machine

/-! ## Encodings (spec/30_encoding.md) -/

/-- Every well-formed command packet, followed by anything, decodes to itself and leaves what follows (R100,
R102, R103): no operand bit is dropped and the packet alone decides its length. -/
def Obligations.CommandDecodesItsEncoding : Prop :=
  ∀ (i : Instr) (rest : List Byte), WellFormed i = true → i.isCommand = true →
    decodeCommand (encode i ++ rest) = .ok (i, rest)

/-- Every well-formed segment, followed by anything, decodes to itself and leaves what follows (R82, R83, R84). -/
def Obligations.SegmentDecodesItsEncoding : Prop :=
  ∀ (i : Instr) (rest : List Byte), WellFormed i = true → i.isCommand = false →
    decodeSegment (encode i ++ rest) = .ok (i, rest)

/-- The other direction: what either decoder takes is the encoding of a well-formed instruction of its code
space, so no two instructions share bytes there. -/
def Obligations.DecodedBytesAreTheEncoding : Prop :=
  ∀ (bs : List Byte) (i : Instr) (rest : List Byte),
    (decodeCommand bs = .ok (i, rest) → i.isCommand = true ∧ WellFormed i = true ∧ encode i ++ rest = bs) ∧
    (decodeSegment bs = .ok (i, rest) → i.isCommand = false ∧ WellFormed i = true ∧ encode i ++ rest = bs)

/-- The header byte alone tells how many bytes a segment takes; with fewer the stream is truncated, and nothing
else is malformed (R84, R86, R153). -/
def Obligations.SegmentLengthFromHeader : Prop :=
  ∀ (h : Byte) (bs : List Byte),
    let need := if h.getLsbD 7 then 2 else 2 * ((h.extractLsb' 0 7).toNat + 1)
    (bs.length < need → decodeSegment (h :: bs) = .error .truncatedSegment) ∧
    (need ≤ bs.length → ∃ i, decodeSegment (h :: bs) = .ok (i, bs.drop need))

/-- Words written out from the spec's encodings and examples (R100, R120, R140, R180, R181, R211, X1, X2). -/
def Obligations.SpecWordsDecode : Prop :=
  decodeCommand [0x01, 0x12, 0x34, 0x56] = .ok (.quant 0x12 0x34 0x56, []) ∧
  decodeCommand [0x02, 0x03, 0, 0, 0, 0x00, 0xF8, 0xE0, 0x07, 0x1F, 0x00] =
    .ok (.rleEnc [0xF800, 0x07E0, 0x001F], []) ∧
  decodeCommand [0x10, 0x02, 0, 0, 0, 0x02, 0, 0x01, 0, 0x1E] = .ok (.cwBegin 2 2 1 30, []) ∧
  decodeCommand [0x11, 0x02, 0, 0, 0, 0xFF, 0, 0, 0, 0, 0xFF] =
    .ok (.cwFrame [⟨255, 0, 0⟩, ⟨0, 0, 255⟩], []) ∧
  decodeCommand [0x12] = .ok (.cwFinalize, []) ∧
  decodeCommand [0x20, 0x06] = .ok (.rdreg 6, []) ∧
  decodeCommand [0xFF] = .ok (.illegal 0xFF, []) ∧
  decodeSegment [0x83, 0x00, 0xF8] = .ok (.run 3 0xF800, []) ∧
  decodeSegment [0x02, 0x00, 0xF8, 0xE0, 0x07, 0x1F, 0x00] = .ok (.lit [0xF800, 0x07E0, 0x001F], [])

/-! ## The step and the command port -/

/-- When the port holds a complete packet, a step executes it, its bytes taken away, under what the host does
meanwhile (R14, R100); where the host does nothing meanwhile, the step is the execution. -/
def Obligations.StepRunsDecodedCommand : Prop :=
  ∀ (s : State) (i : Instr) (rest : List Byte), s.segs = [] → decodeCommand s.port = .ok (i, rest) →
    step s = underHost s (exec i { s with port := rest }) ∧
    ((∀ e es, s.input = e :: es → e.isDuring = false) → step s = exec i { s with port := rest })

/-- While the reference decoder has bytes, a step takes one segment, and a stream that ends inside one faults
(block B-DEC of R150, R153). That decoding runs before the command port is the model's choice (log 6). -/
def Obligations.StepRunsDecodedSegment : Prop :=
  ∀ (s : State), s.segs ≠ [] → (∀ e es, s.input = e :: es → e.isDuring = false) →
    (∀ i rest, decodeSegment s.segs = .ok (i, rest) → step s = exec i { s with segs := rest }) ∧
    (decodeSegment s.segs = .error .truncatedSegment → step s = .fault .truncatedSegment)

/-- With no complete packet held: the port takes the host's next byte and nothing else happens; with nothing from the
host the core waits (R28, R100, R276); a fresh sink can be bound before a conversion (R263). The rest is the model's
choice: a fresh sink can be bound in DONE and FAILED too and is refused in OPEN (DEDUCED, log 11); a reset and a racing
read that find no operation executing are a reset and a read like any other (DEDUCED, logs 13 and 7); the reference
decoder starts on the bytes read, an empty range anywhere among them (log 10), of a finished container, and on no other
sink (log 6). -/
def Obligations.HostActsBetweenPackets : Prop :=
  ∀ (s : State), s.segs = [] → decodeCommand s.port = .error .incompletePacket →
    (s.input = [] → step s = .next s) ∧
    (∀ b es, s.input = .byte b :: es → step s = .next { s with port := s.port ++ [b], input := es }) ∧
    (∀ es, s.input = .bindSink :: es → s.phase ≠ .opened →
      step s = .next { s with sink := [], finished := false, input := es }) ∧
    (∀ es, s.input = .bindSink :: es → s.phase = .opened → step s = .refused .rebindDuringConversion) ∧
    (∀ es, s.input = .resetDuring :: es → step s = step { s with input := .reset :: es }) ∧
    (∀ addr n es, s.input = .memReadDuring addr n :: es → step s = step { s with input := .memRead addr n :: es }) ∧
    (∀ addr n es, s.input = .decodeBlob addr n :: es → s.finished = true → n = 0 ∨ addr + n ≤ s.cfg.cap.toNat →
      ∀ bs : List Byte, bs.length = n → (∀ j, j < n → cellGet s.sink (addr + j) = bs[j]?) →
      step s = .next { s with input := es, segs := bs, frame := [] }) ∧
    (∀ addr n es, s.input = .decodeBlob addr n :: es → s.finished = false → step s = .refused .noFinishedContainer)

/-- The port never holds bytes beyond one complete packet, from every state in which it does not: the core "only
then accepts the first byte of the next packet" (R100). -/
def Obligations.PortKeepsOnePacket : Prop :=
  PortHoldsOnePacket State.reset ∧
  ∀ (s t : State), PortHoldsOnePacket s → step s = .next t → PortHoldsOnePacket t

/-- Every command produces exactly one response: a status, and on success only the payload of its operation
(R101). -/
def Obligations.ResponseForm : Prop :=
  ∀ (i : Instr) (s : State), i.isCommand = true →
    ∃ t st payload, exec i s = .next t ∧ t.out = s.out ++ [statusCode st :: payload] ∧
      (st ≠ .ok → payload = []) ∧
      (st = .ok →
        match i with
        | .quant r g b => payload = le16 (quantize r g b)
        | .rleEnc v => payload = le32 (BitVec.ofNat 32 (rleEncode v).length) ++ rleEncode v
        | .rdreg a => ∃ v, registerValue s a = some v ∧ payload = le32 v
        | _ => payload = [])

/-! ## The Pixel Quantizer (spec/40_quantizer.md) -/

/-- `Quant(r, g, b) = ((r >> 3) << 11) | ((g >> 2) << 5) | (b >> 3)`, and its three fields (R121). -/
def Obligations.QuantValue : Prop :=
  ∀ (r g b : Byte),
    (quantize r g b).toNat = ((r.toNat >>> 3) <<< 11) ||| ((g.toNat >>> 2) <<< 5) ||| (b.toNat >>> 3) ∧
    (quantize r g b).extractLsb' 11 5 = r.extractLsb' 3 5 ∧
    (quantize r g b).extractLsb' 5 6 = g.extractLsb' 2 6 ∧
    (quantize r g b).extractLsb' 0 5 = b.extractLsb' 3 5

/-- The equivalent form `((r & 0xF8) << 8) | ((g & 0xFC) << 3) | (b >> 3)` (R122). -/
def Obligations.QuantMaskedForm : Prop :=
  ∀ (r g b : Byte),
    (quantize r g b).toNat =
      ((r.toNat &&& 0xF8) <<< 8) ||| ((g.toNat &&& 0xFC) <<< 3) ||| (b.toNat >>> 3)

/-- The preimages of a Color565 value are the pixels with its kept bits: 8 * 4 * 8 choices of the discarded
ones (R123). -/
def Obligations.QuantPreimages : Prop :=
  ∀ (r g b : Byte) (c : Color565),
    quantize r g b = c ↔
      r.extractLsb' 3 5 = c.extractLsb' 11 5 ∧ g.extractLsb' 2 6 = c.extractLsb' 5 6 ∧
        b.extractLsb' 3 5 = c.extractLsb' 0 5

/-- `QUANT` answers `[0x00] ++ le16(c)` in every state and changes nothing else (R120). -/
def Obligations.QuantResponds : Prop :=
  ∀ (r g b : Byte) (s : State),
    decodeCommand [0x01, r, g, b] = .ok (.quant r g b, []) ∧
    exec (.quant r g b) s = .next { s with out := s.out ++ [0x00 :: le16 (quantize r g b)] }

/-! ## The Frame RLE encoder (spec/41_rle.md) -/

/-- `RunLen(F, i, cap)` is the length, at most `cap`, of the longest run of equal values that starts at `i`, and
the two equivalences of the cap 3 (R130). -/
def Obligations.RunLenMeaning : Prop :=
  ∀ (f : List Color565) (i cap : Nat), i < f.length → 1 ≤ cap →
    (1 ≤ runLen cap (f.drop i) ∧ runLen cap (f.drop i) ≤ cap ∧ i + runLen cap (f.drop i) ≤ f.length) ∧
    (∀ j, j < runLen cap (f.drop i) → f[i + j]? = f[i]?) ∧
    (runLen cap (f.drop i) < cap → i + runLen cap (f.drop i) < f.length →
      f[i + runLen cap (f.drop i)]? ≠ f[i]?) ∧
    runLen 3 (f.drop i) = min (runLen 128 (f.drop i)) 3 ∧
    (runLen 3 (f.drop i) = 3 ↔ i + 2 < f.length ∧ f[i]? = f[i + 1]? ∧ f[i + 1]? = f[i + 2]?)

/-- A literal takes the value at the cursor while it has fewer than 128 values, input is left and no run of 3
starts there; where it begins, the first test passes, so it has 1 to 128 values (R133). -/
def Obligations.LiteralLenMeaning : Prop :=
  ∀ (f : List Color565), f ≠ [] → runLen 128 f < 3 →
    1 ≤ literalLen 128 f ∧ literalLen 128 f ≤ 128 ∧ literalLen 128 f ≤ f.length ∧
    (∀ j, j < literalLen 128 f → runLen 3 (f.drop j) < 3) ∧
    (literalLen 128 f = 128 ∨ literalLen 128 f = f.length ∨ runLen 3 (f.drop (literalLen 128 f)) = 3)

/-- One round of block B-RLE: at the cursor a Run segment is emitted if and only if the run there has 3 values or
more, else a Literal segment; the cursor advances by its count; the empty frame gives no bytes (R132, R134, R135,
R137). -/
def Obligations.EncoderLoop : Prop :=
  rleEncode [] = [] ∧
  ∀ (x : Color565) (xs : List Color565),
    let r := runLen 128 (x :: xs)
    let c := literalLen 128 (x :: xs)
    rleEncode (x :: xs) =
      if 3 ≤ r then (0x80 ||| BitVec.ofNat 8 (r - 1)) :: le16 x ++ rleEncode ((x :: xs).drop r)
      else BitVec.ofNat 8 (c - 1) :: ((x :: xs).take c).flatMap le16 ++ rleEncode ((x :: xs).drop c)

/-- Round trip: "for every frame F, RleDecode(RleEncode(F)) == F" (R155). -/
def Obligations.RleRoundTrip : Prop := ∀ (f : List Color565), rleDecode (rleEncode f) = some f

/-- The size bound, its equality case, the lower bound, and the bound at `MAX_RLE_LEN`'s limit (R141). -/
def Obligations.EncodedSize : Prop :=
  ∀ (f : List Color565),
    (rleEncode f).length ≤ 2 * f.length + (f.length + 127) / 128 ∧
    ((∀ i, i + 2 < f.length → ¬(f[i]? = f[i + 1]? ∧ f[i + 1]? = f[i + 2]?)) →
      (rleEncode f).length = 2 * f.length + (f.length + 127) / 128) ∧
    (1 ≤ f.length → 3 ≤ (rleEncode f).length) ∧
    (f.length ≤ 0x7F000000 → (rleEncode f).length ≤ 0xFEFE0000)

/-- Every emitted segment: its header byte's count is the number of values it stands for, 1 to 128; Run headers
lie in 0x82..0xFF and Literal headers in 0x00..0x7F; a Literal of fewer than 128 values that is not the last
segment is followed by a Run (R157, R158). -/
def Obligations.EmittedSegments : Prop :=
  ∀ (f : List Color565),
    (∀ i, i ∈ rleSegments f → ∃ hd tl, encode i = hd :: tl ∧
      (segmentValues i).length = (hd.extractLsb' 0 7).toNat + 1 ∧
      ((∃ n c, i = .run n c ∧ 0x82 ≤ hd.toNat ∧ hd.toNat ≤ 0xFF) ∨
        (∃ vs, i = .lit vs ∧ 1 ≤ vs.length ∧ vs.length ≤ 128 ∧ hd.toNat ≤ 0x7F))) ∧
    (∀ before vs next after, rleSegments f = before ++ .lit vs :: next :: after → vs.length < 128 →
      ∃ n c, next = .run n c)

/-- The segments cover the frame in order without gaps (the reason of R155). -/
def Obligations.SegmentsCoverFrame : Prop := ∀ (f : List Color565), (rleSegments f).flatMap segmentValues = f

/-- A maximal run of `m >= 3` equal values is encoded as `m / 128` segments `RUN 128`, then one `RUN (m mod 128)`
if that is 3 or more; 1 or 2 values left over begin the next Literal (R156, its general clause). -/
def Obligations.MaximalRunSegments : Prop :=
  ∀ (pre post : List Color565) (c : Color565) (m : Nat), 3 ≤ m → pre.getLast? ≠ some c → post.head? ≠ some c →
    ∃ before after, before.flatMap segmentValues = pre ∧
      rleSegments (pre ++ List.replicate m c ++ post) =
        before ++ List.replicate (m / 128) (.run 127 c) ++ after ∧
      (3 ≤ m % 128 → after = .run (BitVec.ofNat 7 (m % 128 - 1)) c :: rleSegments post) ∧
      (m % 128 = 0 → after = rleSegments post) ∧
      (1 ≤ m % 128 → m % 128 < 3 → ∃ vs later, after = .lit (List.replicate (m % 128) c ++ vs) :: later)

/-- `RLE_ENC` answers the encoding with its length, which fits 32 bits, or refuses a sequence that is too long;
nothing else changes, in every state (R140). -/
def Obligations.RleEncResponds : Prop :=
  ∀ (v : List Color565) (s : State),
    (v.length < 2 ^ 32 → decodeCommand (0x02 :: le32 (BitVec.ofNat 32 v.length) ++ v.flatMap le16) =
      .ok (.rleEnc v, [])) ∧
    (v.length ≤ s.cfg.maxRleLen.toNat → exec (.rleEnc v) s = .next { s with
      out := s.out ++ [0x00 :: (le32 (BitVec.ofNat 32 (rleEncode v).length) ++ rleEncode v)] }) ∧
    (v.length ≤ s.cfg.maxRleLen.toNat → s.cfg.wf = true →
      (BitVec.ofNat 32 (rleEncode v).length).toNat = (rleEncode v).length) ∧
    (s.cfg.maxRleLen.toNat < v.length → exec (.rleEnc v) s = .next { s with out := s.out ++ [[0x04]] })

/-- A `RUN` segment stands for `n + 1` copies of its value and is 3 bytes long (R151). That the values go to the
decoder's output in the state is the model's form of block B-DEC (log 6). -/
def Obligations.RunSegmentMeaning : Prop :=
  ∀ (n : BitVec 7) (l u : Byte) (rest : List Byte) (s : State),
    decodeSegment ((0x80 ||| n.setWidth 8) :: l :: u :: rest) = .ok (.run n (u ++ l), rest) ∧
    exec (.run n (u ++ l)) s = .next { s with frame := s.frame ++ List.replicate (n.toNat + 1) (u ++ l) }

/-- A `LIT` segment stands for the `n + 1` values in the `2*(n+1)` bytes after its header, in order, each low byte
first (R152). That the values go to the decoder's output in the state is the model's form of block B-DEC
(log 6). -/
def Obligations.LitSegmentMeaning : Prop :=
  ∀ (n : BitVec 7) (vs : List Color565) (rest : List Byte) (s : State), vs.length = n.toNat + 1 →
    decodeSegment (n.setWidth 8 :: vs.flatMap le16 ++ rest) = .ok (.lit vs, rest) ∧
    (n.setWidth 8 :: vs.flatMap le16).length = 1 + 2 * (n.toNat + 1) ∧
    exec (.lit vs) s = .next { s with frame := s.frame ++ vs }

/-- Run on a stream with the host silent, the machine's decoder ends with exactly the values `RleDecode` gives, or
faults exactly where `RleDecode` is TRUNCATED (R150, R153; the decoder's place in the state is the model's,
log 6). -/
def Obligations.DecoderRunsToRleDecode : Prop :=
  ∀ (s : State), s.input = [] →
    (∀ f, rleDecode s.segs = some f →
      ∃ k, Host.Core.run Sys2Proof.core k s = .next { s with segs := [], frame := s.frame ++ f }) ∧
    (rleDecode s.segs = none → ∃ k, Host.Core.run Sys2Proof.core k s = .fault .truncatedSegment)

/-! ## The sink (spec/20_memory.md) -/

/-- One write transaction: on ok every byte is stored, on fail its addresses hold free values, and either way no
other address and no register changes, `POS` among them (R54, R55). -/
def Obligations.SinkWriteEffect : Prop :=
  ∀ (addr : Nat) (bs : List Byte) (s : State),
    (sinkWrite addr bs s).1 = answerAt s 0 ∧
    (sinkWrite addr bs s).2 = { s with
      sink := (sinkWrite addr bs s).2.sink, answers := s.answers.tail, issued := s.issued ++ [⟨addr, bs⟩] } ∧
    (∀ x, x < addr ∨ addr + bs.length ≤ x → cellGet (sinkWrite addr bs s).2.sink x = cellGet s.sink x) ∧
    (answerAt s 0 = .ok → ∀ j, j < bs.length → cellGet (sinkWrite addr bs s).2.sink (addr + j) = bs[j]?) ∧
    (answerAt s 0 = .fail → ∀ j, j < bs.length →
      cellGet (sinkWrite addr bs s).2.sink (addr + j) = Config.failedCell s.issued.length (addr + j)) ∧
    (Memory.wf s.sink → Memory.wf (sinkWrite addr bs s).2.sink)

/-- A host read between operations gives the bytes at its addresses and changes nothing else; if one of them is
unwritten, it faults (R60). The rest is the model's, DEDUCED (log 10): if one of them is not below `CAP`, and so no
address of the sink (R51), it faults too, and a read of no byte gives no byte wherever it is. -/
def Obligations.HostReadBetweenOperations : Prop :=
  ∀ (s : State) (addr n : Nat) (es : List HostEvent), s.segs = [] →
    decodeCommand s.port = .error .incompletePacket → s.input = .memRead addr n :: es →
    (n = 0 ∨ addr + n ≤ s.cfg.cap.toNat → ∀ bs : List Byte, bs.length = n →
      (∀ j, j < n → cellGet s.sink (addr + j) = bs[j]?) →
      step s = .next { s with input := es, reads := s.reads ++ [bs] }) ∧
    (addr + n ≤ s.cfg.cap.toNat → (∃ j, j < n ∧ cellGet s.sink (addr + j) = none) →
      step s = .fault .unwrittenRead) ∧
    (n ≠ 0 → s.cfg.cap.toNat < addr + n → step s = .fault .outsideSink)

/-- A host read during an operation sees, byte by byte, what was there before, what the operation leaves there, or a
byte that one of the operation's transactions writes there, whatever the sink answers it; and it does not disturb the
operation (R62; that what a failed write leaves is among them is the model's, log 7). -/
def Obligations.RacingReadSeesOldOrNew : Prop :=
  ∀ (s t u : State) (i : Instr) (rest : List Byte) (addr n : Nat) (es : List HostEvent), s.segs = [] →
    decodeCommand s.port = .ok (i, rest) → s.input = .memReadDuring addr n :: es →
    (∀ e es', es = e :: es' → e.isDuring = false) →
    exec i { s with port := rest } = .next t → step s = .next u →
    ∃ bs : List Byte, bs.length = n ∧ u = { t with input := es, reads := s.reads ++ [bs] } ∧
      ∀ j, j < n → bs[j]? = cellGet s.sink (addr + j) ∨ bs[j]? = cellGet t.sink (addr + j) ∨
        ∃ tx, tx ∈ t.issued.drop s.issued.length ∧ tx.addr ≤ addr + j ∧ bs[j]? = tx.bytes[addr + j - tx.addr]?

/-- The core never reads the sink: two states that differ in the sink alone give, for every instruction, next
states that differ in the sink alone, and at each address either both sinks hold the same afterwards or each holds
what it held (R50). -/
def Obligations.CoreNeverReadsSink : Prop :=
  ∀ (i : Instr) (s t : State) (m : List Host.Cell), exec i s = .next t →
    ∃ m', exec i { s with sink := m } = .next { t with sink := m' } ∧
      ∀ a, cellGet m' a = cellGet t.sink a ∨ (cellGet m' a = cellGet m a ∧ cellGet t.sink a = cellGet s.sink a)

/-! ## The Container Writer (spec/42_container.md) -/

/-- `CW_BEGIN` in `IDLE`, on a seekable sink, within both capacities, every answer ok: the metadata is stored, the
header and the placeholders are written, and the conversion is open (block B-BEGIN of R180); until it is finalized the
sink holds no finished container (R189). -/
def Obligations.BeginOpensConversion : Prop :=
  ∀ (n : Word) (w h : Half) (fps : Byte) (s : State), s.phase = .idle → s.cfg.seekable = true →
    n.toNat ≤ s.cfg.maxFrames.toNat → 20 + 8 * n.toNat ≤ s.cfg.cap.toNat →
    let writes := beginWrites s.cfg.magic n w h fps
    SinkAnswersOk s writes.length →
    exec (.cwBegin n w h fps) s = .next { s with
      phase := .opened, n := n, w := w, h := h, fps := fps, idx := 20, finished := false
      pos := BitVec.ofNat 32 (20 + 8 * n.toNat), k := 0
      sink := writeBytes 20 (List.replicate (8 * n.toNat) 0)
        (writeBytes 0 (headerImage s.cfg.magic n w h fps 0) s.sink)
      answers := s.answers.drop writes.length, issued := s.issued ++ writes
      out := s.out ++ [[0x00]] }

/-- A container operation that the phase does not accept is refused with `BAD_SEQUENCE` and changes nothing (R21,
R230, R234). -/
def Obligations.OutOfPhaseRefused : Prop :=
  ∀ (i : Instr) (s : State), isContainerOp i = true → phaseAccepts s.phase i = false →
    exec i s = .next { s with out := s.out ++ [[0x02]] }

/-- `CW_BEGIN` in `IDLE` stores the metadata and then fails before any write, in this order: not seekable, too many
frames for the tables, the index past `CAP` (R180, R236, R56, R57). That the sink, to which nothing was written, then
counts as no finished container is the model's choice (DESIGN CHOICE, log 6), after R248's words that a conversion that
ends in FAILED leaves an invalid container and R189's that every other outcome leaves an unusable one. -/
def Obligations.BeginFailsBeforeWriting : Prop :=
  ∀ (n : Word) (w h : Half) (fps : Byte) (s : State), s.phase = .idle →
    let failed := fun e : Byte => ({ s with
      n := n, w := w, h := h, fps := fps, err := e, phase := .failed, finished := false
      out := s.out ++ [[e]] } : State)
    (s.cfg.seekable = false → exec (.cwBegin n w h fps) s = .next (failed 0x10)) ∧
    (s.cfg.seekable = true → s.cfg.maxFrames.toNat < n.toNat →
      exec (.cwBegin n w h fps) s = .next (failed 0x14)) ∧
    (s.cfg.seekable = true → n.toNat ≤ s.cfg.maxFrames.toNat → s.cfg.cap.toNat < 20 + 8 * n.toNat →
      exec (.cwBegin n w h fps) s = .next (failed 0x10))

/-- `CW_BEGIN` whose header write or placeholder write draws `fail`: the sticky `IO_ERROR`, the completed steps
kept, the failed transaction's bytes free (R180, R233, R54); the sink holds no finished container (R189, R248). -/
def Obligations.BeginWriteFails : Prop :=
  ∀ (n : Word) (w h : Half) (fps : Byte) (s : State), s.phase = .idle → s.cfg.seekable = true →
    n.toNat ≤ s.cfg.maxFrames.toNat → 20 + 8 * n.toNat ≤ s.cfg.cap.toNat →
    let writes := beginWrites s.cfg.magic n w h fps
    (answerAt s 0 = .fail → exec (.cwBegin n w h fps) s = .next { s with
      n := n, w := w, h := h, fps := fps, err := 0x10, phase := .failed, finished := false
      sink := scrambleBytes s.issued.length 0 20 s.sink
      answers := s.answers.drop 1, issued := s.issued ++ writes.take 1, out := s.out ++ [[0x10]] }) ∧
    (answerAt s 0 = .ok → answerAt s 1 = .fail → n ≠ 0 → exec (.cwBegin n w h fps) s = .next { s with
      n := n, w := w, h := h, fps := fps, idx := 20, pos := 20, err := 0x10, phase := .failed
      finished := false
      sink := scrambleBytes (s.issued.length + 1) 20 (8 * n.toNat)
        (writeBytes 0 (headerImage s.cfg.magic n w h fps 0) s.sink)
      answers := s.answers.drop 2, issued := s.issued ++ writes, out := s.out ++ [[0x10]] })

/-- `CW_FRAME` in `OPEN` with a frame still expected, of the right size, within `CAP`, its write answered ok: the
blob is written at `POS` (an empty one without a transaction), entry `K` records it, `POS` and `K` advance
(block B-FRAME of R181). -/
def Obligations.FrameWritesBlob : Prop :=
  ∀ (px : List Pixel) (s : State), s.phase = .opened → s.k ≠ s.n → px.length = s.w.toNat * s.h.toNat →
    let blob := rleEncode (quantizeFrame px)
    let writes : List Transaction := if blob = [] then [] else [⟨s.pos.toNat, blob⟩]
    s.pos.toNat + blob.length ≤ s.cfg.cap.toNat → SinkAnswersOk s writes.length →
    ∃ t, exec (.cwFrame px) s = .next t ∧
      t = { s with
        off := t.off, size := t.size, pos := BitVec.ofNat 32 (s.pos.toNat + blob.length), k := s.k + 1
        sink := writeBytes s.pos.toNat blob s.sink
        answers := s.answers.drop writes.length, issued := s.issued ++ writes, out := s.out ++ [[0x00]] } ∧
      ∀ i, offAt t i = (if i = s.k.toNat then s.pos else offAt s i) ∧
        sizeAt t i = (if i = s.k.toNat then BitVec.ofNat 32 blob.length else sizeAt s i)

/-- `CW_FRAME` in `OPEN` fails, in this order: too many frames, a wrong pixel count, the blob past `CAP`, its write
drawing `fail`; `OFF`, `SIZE`, `POS` and `K` are unchanged (R181, R236). -/
def Obligations.FrameFails : Prop :=
  ∀ (px : List Pixel) (s : State), s.phase = .opened →
    let blob := rleEncode (quantizeFrame px)
    let failed := fun e : Byte => ({ s with err := e, phase := .failed, out := s.out ++ [[e]] } : State)
    (s.k = s.n → exec (.cwFrame px) s = .next (failed 0x12)) ∧
    (s.k ≠ s.n → px.length ≠ s.w.toNat * s.h.toNat → exec (.cwFrame px) s = .next (failed 0x13)) ∧
    (s.k ≠ s.n → px.length = s.w.toNat * s.h.toNat → s.cfg.cap.toNat < s.pos.toNat + blob.length →
      exec (.cwFrame px) s = .next (failed 0x10)) ∧
    (s.k ≠ s.n → px.length = s.w.toNat * s.h.toNat → s.pos.toNat + blob.length ≤ s.cfg.cap.toNat →
      blob ≠ [] → answerAt s 0 = .fail → exec (.cwFrame px) s = .next { failed 0x10 with
        sink := scrambleBytes s.issued.length s.pos.toNat blob.length s.sink
        answers := s.answers.drop 1, issued := s.issued ++ [⟨s.pos.toNat, blob⟩] })

/-- `CW_FINALIZE` in `OPEN`, with every frame written or under `TRUNCATE`, every answer ok: the index offset, the
corrected count where frames are missing, and entries `0 .. K-1` are patched, and the container is done and finished;
`POS` stays (block B-FIN of R182, R187, R189). -/
def Obligations.FinalizePatches : Prop :=
  ∀ (s : State), s.phase = .opened → (s.k.toNat < s.n.toNat → s.cfg.shortPolicy = .truncate) →
    SinkAnswersOk s (finalizeWrites s).length →
    exec .cwFinalize s = .next { s with
      phase := .done, finished := true
      sink := writeBytes s.idx.toNat
        ((List.range s.k.toNat).flatMap fun i => le32 (offAt s i) ++ le32 (sizeAt s i))
        (if s.k.toNat < s.n.toNat then writeBytes 4 (le32 s.k) (writeBytes 16 (le32 s.idx) s.sink)
          else writeBytes 16 (le32 s.idx) s.sink)
      answers := s.answers.drop (finalizeWrites s).length, issued := s.issued ++ finalizeWrites s
      out := s.out ++ [[0x00]] }

/-- `CW_FINALIZE` in `OPEN` fails: with frames missing under `FAIL` before any write; else at the first patch whose
write draws `fail`, the patches before it kept, its own bytes free, none after it (R182, R231, R233, R236). -/
def Obligations.FinalizeFails : Prop :=
  ∀ (s : State), s.phase = .opened →
    let failed := fun (e : Byte) (writes : Nat) (m : List Host.Cell) => ({ s with
      err := e, phase := .failed, sink := m, answers := s.answers.drop writes
      issued := s.issued ++ (finalizeWrites s).take writes, out := s.out ++ [[e]] } : State)
    let first := writeBytes 16 (le32 s.idx) s.sink
    let counted := if s.k.toNat < s.n.toNat then writeBytes 4 (le32 s.k) first else first
    let base := if s.k.toNat < s.n.toNat then 2 else 1
    (s.k.toNat < s.n.toNat → s.cfg.shortPolicy = .fail → exec .cwFinalize s = .next (failed 0x11 0 s.sink)) ∧
    ((s.k.toNat < s.n.toNat → s.cfg.shortPolicy = .truncate) →
      (answerAt s 0 = .fail →
        exec .cwFinalize s = .next (failed 0x10 1 (scrambleBytes s.issued.length 16 4 s.sink))) ∧
      (s.k.toNat < s.n.toNat → answerAt s 0 = .ok → answerAt s 1 = .fail →
        exec .cwFinalize s = .next (failed 0x10 2 (scrambleBytes (s.issued.length + 1) 4 4 first))) ∧
      (∀ i, i < s.k.toNat → SinkAnswersOk s (base + i) → answerAt s (base + i) = .fail →
        exec .cwFinalize s = .next (failed 0x10 (base + i + 1)
          (scrambleBytes (s.issued.length + (base + i)) (s.idx.toNat + 8 * i) 8
            (writeBytes s.idx.toNat
              ((List.range i).flatMap fun j => le32 (offAt s j) ++ le32 (sizeAt s j)) counted)))))

/-! ## Frames: what a container operation leaves alone -/

/-- `CW_BEGIN`: outside `IDLE` only the response; else the tables, the port, the parameters and the host's side are
unchanged, and so is every sink byte from `20 + 8*n` on (R180). -/
def Obligations.BeginFrame : Prop :=
  ∀ (n : Word) (w h : Half) (fps : Byte) (s t : State), exec (.cwBegin n w h fps) s = .next t →
    (s.phase ≠ .idle → t = { s with out := t.out }) ∧
    t = { s with
      phase := t.phase, err := t.err, n := t.n, w := t.w, h := t.h, fps := t.fps, idx := t.idx, pos := t.pos
      k := t.k, sink := t.sink, out := t.out, answers := t.answers, issued := t.issued
      finished := t.finished } ∧
    (t.finished = true → s.finished = true) ∧
    (t.phase ≠ .opened → t.k = s.k) ∧
    ∀ x, 20 + 8 * n.toNat ≤ x → cellGet t.sink x = cellGet s.sink x

/-- `CW_FRAME`: the metadata, `IDX`, the port, the parameters and the host's side are unchanged, every table entry
but entry `K`, and every sink byte outside `[POS, POS + |B|)`; on every error the tables, `POS` and `K` too
(R181). -/
def Obligations.FrameFrame : Prop :=
  ∀ (px : List Pixel) (s t : State), exec (.cwFrame px) s = .next t →
    let blob := rleEncode (quantizeFrame px)
    t = { s with
      phase := t.phase, err := t.err, off := t.off, size := t.size, pos := t.pos, k := t.k, sink := t.sink
      out := t.out, answers := t.answers, issued := t.issued } ∧
    (∀ i, i ≠ s.k.toNat → offAt t i = offAt s i ∧ sizeAt t i = sizeAt s i) ∧
    (t.phase ≠ .opened → t.off = s.off ∧ t.size = s.size ∧ t.pos = s.pos ∧ t.k = s.k) ∧
    ∀ x, x < s.pos.toNat ∨ s.pos.toNat + blob.length ≤ x → cellGet t.sink x = cellGet s.sink x

/-- `CW_FINALIZE`: every register but `PHASE` and `ERR` is unchanged, and every sink byte outside the index offset,
the frame count (where frames are missing) and entries `0 .. K-1` (R182). -/
def Obligations.FinalizeFrame : Prop :=
  ∀ (s t : State), exec .cwFinalize s = .next t →
    t = { s with
      phase := t.phase, err := t.err, sink := t.sink, out := t.out, answers := t.answers
      issued := t.issued, finished := t.finished } ∧
    (t.phase ≠ .done → t.finished = s.finished) ∧
    ∀ x, (x < 16 ∨ 20 ≤ x) → (s.n.toNat ≤ s.k.toNat ∨ x < 4 ∨ 8 ≤ x) →
      (x < s.idx.toNat ∨ s.idx.toNat + 8 * s.k.toNat ≤ x) → cellGet t.sink x = cellGet s.sink x

/-! ## Control, errors and reset (spec/43_control.md, spec/60_exceptions.md) -/

/-- The register map (R213). -/
def Obligations.RegisterMap : Prop :=
  ∀ (s : State),
    registerValue s 0x00 = some (statusWord s) ∧
    registerValue s 0x01 = some s.n ∧
    registerValue s 0x02 = some s.k ∧
    (∃ v : Word, registerValue s 0x03 = some v ∧ v.extractLsb' 0 16 = s.w ∧ v.extractLsb' 16 16 = s.h) ∧
    (∃ v : Word, registerValue s 0x04 = some v ∧
      v.extractLsb' 0 8 = s.fps ∧ v.extractLsb' 8 8 = 0x01 ∧ v.extractLsb' 16 16 = 0) ∧
    registerValue s 0x05 = some s.idx ∧
    registerValue s 0x06 = some s.pos ∧
    registerValue s 0x07 = some s.cfg.maxFrames ∧
    registerValue s 0x08 = some s.cfg.cap ∧
    (∃ v : Word, registerValue s 0x09 = some v ∧
      v.extractLsb' 0 8 = s.cfg.magic.m0 ∧ v.extractLsb' 8 8 = s.cfg.magic.m1 ∧
      v.extractLsb' 16 8 = s.cfg.magic.m2 ∧ v.extractLsb' 24 8 = s.cfg.magic.m3) ∧
    ∀ a : Byte, 0x0A ≤ a.toNat → registerValue s a = none

/-- The fields of `STATUS`, and its value after reset with the default parameters (R214). -/
def Obligations.StatusFields : Prop :=
  (∀ s : State,
    (statusWord s).extractLsb' 0 2 = phaseCode s.phase ∧ (statusWord s).extractLsb' 2 6 = 0 ∧
    (statusWord s).extractLsb' 8 8 = s.err ∧
    ((statusWord s).getLsbD 16 = true ↔ s.cfg.shortPolicy = .truncate) ∧
    (statusWord s).getLsbD 17 = s.cfg.seekable ∧ (statusWord s).extractLsb' 18 14 = 0) ∧
  phaseCode .idle = 0 ∧ phaseCode .opened = 1 ∧ phaseCode .done = 2 ∧ phaseCode .failed = 3 ∧
  statusWord State.reset = 0x00020000

/-- `RDREG` answers the register's value, or refuses an index beyond 9 with `BAD_REG`; nothing else changes, in
every state (R210). -/
def Obligations.RdregResponds : Prop :=
  ∀ (a : Byte) (s : State),
    decodeCommand [0x20, a] = .ok (.rdreg a, []) ∧
    (a.toNat ≤ 0x09 → ∃ v, registerValue s a = some v ∧
      exec (.rdreg a) s = .next { s with out := s.out ++ [0x00 :: le32 v] }) ∧
    (0x09 < a.toNat → exec (.rdreg a) s = .next { s with out := s.out ++ [[0x03]] })

/-- Every opcode byte outside the table is a one-byte packet, answered `[0x01]`, and changes no state (R102,
R211). -/
def Obligations.UndefinedOpcodeRejected : Prop :=
  ∀ (op : Byte) (rest : List Byte) (s : State),
    op ≠ 0x01 → op ≠ 0x02 → op ≠ 0x10 → op ≠ 0x11 → op ≠ 0x12 → op ≠ 0x20 →
    decodeCommand (op :: rest) = .ok (.illegal op, rest) ∧
    exec (.illegal op) s = .next { s with out := s.out ++ [[0x01]] }

/-- The reset input between two bytes puts every register to its reset value, leaves `OFF` and `SIZE` with free
values, discards a partial packet, leaves the sink and the parameters, and gives no response (R35, R212). -/
def Obligations.ResetBetweenPackets : Prop :=
  ∀ (s : State) (es : List HostEvent), s.segs = [] → decodeCommand s.port = .error .incompletePacket →
    s.input = .reset :: es →
    ∃ t, step s = .next t ∧
      t = { s with
        phase := .idle, err := 0, n := 0, k := 0, w := 0, h := 0, fps := 0, idx := 0, pos := 0
        off := t.off, size := t.size, port := [], input := es, resets := s.resets + 1 } ∧
      ∀ i, offAt t i = Config.unspecifiedOff (s.resets + 1) i ∧ sizeAt t i = Config.unspecifiedSize (s.resets + 1) i

/-- A reset requested while an operation executes takes effect after the operation's sink writes and before its
response, which is not emitted (R212); a container whose `CW_FINALIZE` so gives no response is not a
finished one (R264, R272). -/
def Obligations.ResetDuringOperation : Prop :=
  ∀ (s t : State) (i : Instr) (rest : List Byte) (es : List HostEvent), s.segs = [] →
    decodeCommand s.port = .ok (i, rest) → s.input = .resetDuring :: es →
    exec i { s with port := rest } = .next t →
    ∃ u, step s = .next u ∧ u.sink = t.sink ∧ u.out = s.out ∧ u.cfg = s.cfg ∧ u.input = es ∧
      u.phase = .idle ∧ RegistersReset u ∧ u.port = [] ∧ u.issued = t.issued ∧ u.reads = s.reads ∧
      u.finished = (s.finished && t.finished)

/-- The state after power-on: `IDLE`, every register 0, the port awaiting an opcode (R35, R260, R261), the default
parameters (R5, log 2). That the sink is fresh is the model's choice: R261 leaves its content to the host (DESIGN
CHOICE, log 10). -/
def Obligations.PowerOnState : Prop :=
  State.reset.phase = .idle ∧ RegistersReset State.reset ∧ State.reset.port = [] ∧ State.reset.sink = [] ∧
  State.reset.finished = false ∧
  (∀ i, offAt State.reset i = Config.unspecifiedOff 0 i ∧ sizeAt State.reset i = Config.unspecifiedSize 0 i) ∧
  State.reset.cfg.shortPolicy = .fail ∧ State.reset.cfg.seekable = true ∧
  State.reset.cfg.maxRleLen = 0x7F000000 ∧ State.reset.cfg.cap = 0xFFFFFFFF

/-- Whatever command answers a non-sticky error has changed nothing but the responses; whatever command answers a
sticky one has stored its code in `ERR` and is in `FAILED` (R230, R233, R234). -/
def Obligations.ErrorExits : Prop :=
  ∀ (i : Instr) (s t : State) (e : Status), e ≠ .ok → exec i s = .next t →
    t.out = s.out ++ [[statusCode e]] →
    (isSticky e = false → t = { s with out := t.out }) ∧
    (isSticky e = true → t.err = statusCode e ∧ t.phase = .failed)

/-- In `FAILED` the container operations are refused with `BAD_SEQUENCE` and `ERR` keeps the cause; `QUANT`,
`RLE_ENC` and `RDREG` are still performed (R235). -/
def Obligations.FailedPhaseRefusesConversions : Prop :=
  ∀ (s : State), s.phase = .failed →
    (∀ i, isContainerOp i = true → exec i s = .next { s with out := s.out ++ [[0x02]] }) ∧
    (∀ r g b, exec (.quant r g b) s = .next { s with out := s.out ++ [0x00 :: le16 (quantize r g b)] }) ∧
    (∀ v : List Color565, v.length ≤ s.cfg.maxRleLen.toNat → exec (.rleEnc v) s = .next { s with
      out := s.out ++ [0x00 :: (le32 (BitVec.ofNat 32 (rleEncode v).length) ++ rleEncode v)] }) ∧
    (∀ a v, registerValue s a = some v → exec (.rdreg a) s = .next { s with out := s.out ++ [0x00 :: le32 v] })

/-! ## Whole-machine rules -/

/-- The only phase transitions: IDLE to OPEN or FAILED, OPEN to DONE or FAILED, and any phase to IDLE by reset
(R21, R237); and the sink comes to hold a finished container only by the one from OPEN to DONE, of a `CW_FINALIZE`
(R189). -/
def Obligations.PhaseTransitions : Prop :=
  ∀ (s t : State), step s = .next t →
    (t.phase = s.phase ∨
      (s.phase = .idle ∧ (t.phase = .opened ∨ t.phase = .failed)) ∨
      (s.phase = .opened ∧ (t.phase = .done ∨ t.phase = .failed)) ∨
      (t.phase = .idle ∧ RegistersReset t ∧ t.resets = s.resets + 1)) ∧
    (t.finished = true → s.finished = true ∨
      (s.phase = .opened ∧ t.phase = .done ∧ ∃ s1, fetch s = .ok (.cwFinalize, s1)))

/-- `ERR` is written only by a sticky error, on the way from IDLE or OPEN to FAILED, and by reset (R22). -/
def Obligations.ErrWrittenByFailAndReset : Prop :=
  ∀ (s t : State), step s = .next t →
    t.err = s.err ∨
    ((s.phase = .idle ∨ s.phase = .opened) ∧ t.phase = .failed ∧ ∃ e, isSticky e = true ∧ t.err = statusCode e) ∨
    (t.err = 0 ∧ t.resets = s.resets + 1)

/-- `N`, `W`, `H`, `FPS` are written only by a `CW_BEGIN` in IDLE, from its operands, whatever its outcome, and by
reset (R23): an instruction that is no such `CW_BEGIN` leaves them, and so does a step that executes none and takes no
reset. No step changes the parameters, binding a sink among them: R20 says so of the operations, and the rest is the
model's choice (DESIGN CHOICE, log 1). -/
def Obligations.MetadataWrittenByBegin : Prop :=
  (∀ (i : Instr) (s t : State), exec i s = .next t →
    (∃ n w h fps, i = .cwBegin n w h fps ∧ s.phase = .idle ∧ t.n = n ∧ t.w = w ∧ t.h = h ∧ t.fps = fps) ∨
    ((∀ n w h fps, i = .cwBegin n w h fps → s.phase ≠ .idle) ∧
      t.n = s.n ∧ t.w = s.w ∧ t.h = s.h ∧ t.fps = s.fps)) ∧
  ∀ (s t : State), step s = .next t →
    t.cfg = s.cfg ∧
    ((t.n = s.n ∧ t.w = s.w ∧ t.h = s.h ∧ t.fps = s.fps) ∨
      (s.phase = .idle ∧ ∃ n w h fps s1, fetch s = .ok (.cwBegin n w h fps, s1) ∧
        t.n = n ∧ t.w = w ∧ t.h = h ∧ t.fps = fps) ∨
      (t.n = 0 ∧ t.w = 0 ∧ t.h = 0 ∧ t.fps = 0 ∧ t.resets = s.resets + 1))

/-! ## Invariants and the finished container -/

/-- The invariant of the state (R22, R24, R26, R27, R33, R51, R189) holds after power-on. -/
def Obligations.InvariantAtReset : Prop := Inv State.reset

/-- Every step keeps the invariant of the state, whatever the host does and whatever the sink answers (R33). -/
def Obligations.InvariantKept : Prop := ∀ (s t : State), Inv s → step s = .next t → Inv t

/-- A `CW_BEGIN` that completes opens a conversion with no frames, and a `CW_FRAME` that completes adds exactly its
quantized frame to the open one (R183). -/
def Obligations.OpenContainerBuilt : Prop :=
  (∀ (n : Word) (w h : Half) (fps : Byte) (s t : State), s.phase = .idle →
    exec (.cwBegin n w h fps) s = .next t → t.phase = .opened → OpenWith [] t) ∧
  (∀ (fs : List (List Color565)) (px : List Pixel) (s t : State), OpenWith fs s →
    exec (.cwFrame px) s = .next t → t.phase = .opened → OpenWith (fs ++ [quantizeFrame px]) t)

/-- A `CW_FINALIZE` that completes on an open conversion of frames `fs` leaves, in `[0, POS)`, exactly the container
of those frames: header with the true count and index offset 20, the entries, a zero slot for each missing frame,
the blobs (R58, R185, R186, R187); and the sink then holds a finished container (R189). -/
def Obligations.FinalizedContainer : Prop :=
  ∀ (fs : List (List Color565)) (s t : State), OpenWith fs s → exec .cwFinalize s = .next t →
    t.phase = .done →
    t.finished = true ∧ t.pos = s.pos ∧ readBytes t.sink 0 t.pos.toNat = some (containerImage s fs) ∧
      (s.cfg.shortPolicy = .fail → t.k = t.n)

/-- A whole conversion `CONVERT` on a seekable sink, within both capacities, of frames of the right size, as many as
declared or fewer under `TRUNCATE`, every sink answer ok, completes (R106, R180, R181, R182). -/
def Obligations.ConversionCompletes : Prop :=
  ∀ (n : Word) (w h : Half) (fps : Byte) (frames : List (List Pixel)) (s : State),
    s.phase = .idle → s.cfg.seekable = true → n.toNat ≤ s.cfg.maxFrames.toNat →
    (∀ px, px ∈ frames → px.length = w.toNat * h.toNat) →
    (frames.length = n.toNat ∨ (frames.length < n.toNat ∧ s.cfg.shortPolicy = .truncate)) →
    20 + 8 * n.toNat + (blobs (frames.map quantizeFrame)).length ≤ s.cfg.cap.toNat →
    SinkAnswersOk s (4 + 2 * frames.length) →
    ∃ t, execAll (convert n w h fps frames) s = .next t ∧ t.phase = .done ∧ t.k.toNat = frames.length ∧
      t.pos.toNat = 20 + 8 * n.toNat + (blobs (frames.map quantizeFrame)).length

/-- A sequence of packets stops at the first response whose status is not `0x00`: where every packet before `i` was
answered OK and `i` is answered an error, nothing after `i` is executed; so a `CONVERT` outside IDLE does no more than
collect one `BAD_SEQUENCE` (R106). -/
def Obligations.ConvertStopsAtFirstError : Prop :=
  (∀ (before after : List Instr) (i : Instr) (rs : List (List Byte)) (e : Byte) (s s1 t : State),
    (∀ j, j ∈ before → j.isCommand = true) → execAll before s = .next s1 → s1.out = s.out ++ rs →
    rs.length = before.length → (∀ r, r ∈ rs → r.head? = some 0x00) →
    exec i s1 = .next t → t.out = s1.out ++ [[e]] → e ≠ 0x00 →
    execAll (before ++ i :: after) s = .next t) ∧
  ∀ (n : Word) (w h : Half) (fps : Byte) (frames : List (List Pixel)) (s : State), s.phase ≠ .idle →
    execAll (convert n w h fps frames) s = .next { s with out := s.out ++ [[0x02]] }

/-- Container index correctness, of every conversion, whatever the sink answered: where it ends in `DONE`, every
address of `[0, POS)` is written, the header counts the frames, and every entry is the recorded pair and locates a
blob that decodes to its quantized frame (R184). -/
def Obligations.ConversionIndexCorrect : Prop :=
  ∀ (n : Word) (w h : Half) (fps : Byte) (frames : List (List Pixel)) (s t : State), s.phase = .idle →
    execAll (convert n w h fps frames) s = .next t → t.phase = .done →
    ∃ c, readBytes t.sink 0 t.pos.toNat = some c ∧ IndexCorrect c (frames.map quantizeFrame) ∧
      ∀ i, i < frames.length →
        containerWord c ((containerWord c 16).toNat + 8 * i) = offAt t i ∧
        containerWord c ((containerWord c 16).toNat + 8 * i + 4) = sizeAt t i
end

