-- ==== Sys2Proof/Laws/Cells.lean ====
section
/-! SUPPORT. The laws of sparse memory: a read after a write, that a write leaves every other place alone, that
every operation keeps the canonical form, and what a whole write or read of bytes does. -/

namespace Sys2Proof.Machine

variable {α : Type}

/-! ## One cell -/

@[simp] theorem cellGet_nil (a : Nat) : cellGet ([] : Cells α) a = none := rfl

theorem cellGet_cellSet (m : Cells α) (a : Nat) (v : α) (x : Nat) :
    cellGet (cellSet m a v) x = if x = a then some v else cellGet m x := by
  induction m with
  | nil => by_cases h : x = a <;> simp [cellSet, cellGet, h]
  | cons c m ih =>
    obtain ⟨b, u⟩ := c
    simp only [cellSet]
    by_cases h : x = a <;> split_ifs <;> simp_all [cellGet]

@[simp] theorem cellGet_cellSet_same (m : Cells α) (a : Nat) (v : α) : cellGet (cellSet m a v) a = some v := by
  simp [cellGet_cellSet]

theorem cellGet_cellSet_other (m : Cells α) {a x : Nat} (v : α) (h : x ≠ a) :
    cellGet (cellSet m a v) x = cellGet m x := by
  simp [cellGet_cellSet, h]

theorem cellGet_cellErase (m : Cells α) (a x : Nat) :
    cellGet (cellErase m a) x = if x = a then none else cellGet m x := by
  induction m with
  | nil => simp [cellErase]
  | cons c m ih =>
    obtain ⟨b, u⟩ := c
    simp only [cellErase] at ih
    by_cases hb : b = a <;> by_cases hx : x = a <;> simp_all [cellErase, cellGet]
    intro h
    exact absurd h.symm hb

theorem cellGet_cellPut (m : Cells α) (a : Nat) (o : Option α) (x : Nat) :
    cellGet (cellPut m a o) x = if x = a then o else cellGet m x := by
  cases o with
  | none => exact cellGet_cellErase m a x
  | some v => exact cellGet_cellSet m a v x

/-! ## The canonical form -/

theorem mem_cellSet {m : Cells α} {a : Nat} {v : α} {c : Nat × α} (h : c ∈ cellSet m a v) :
    c = (a, v) ∨ c ∈ m := by
  induction m with
  | nil => simp_all [cellSet]
  | cons d m ih =>
    obtain ⟨b, u⟩ := d
    simp only [cellSet] at h
    split_ifs at h <;> simp only [List.mem_cons] at h ⊢
    · tauto
    · tauto
    · rcases h with h | h
      · tauto
      · have := ih h
        tauto

theorem cellSet_wf {m : Cells α} (a : Nat) (v : α) (h : Cells.wf m) : Cells.wf (cellSet m a v) := by
  induction m with
  | nil => simp [cellSet, Cells.wf]
  | cons c m ih =>
    obtain ⟨b, u⟩ := c
    simp only [Cells.wf, List.pairwise_cons] at h ih ⊢
    simp only [cellSet]
    split_ifs with h1 h2
    · simp only [List.pairwise_cons, List.mem_cons]
      refine ⟨?_, h⟩
      rintro c (rfl | hc)
      · exact h1
      · exact h1.trans (h.1 c hc)
    · subst h2
      exact List.pairwise_cons.2 h
    · refine List.pairwise_cons.2 ⟨?_, ih h.2⟩
      intro c hc
      rcases mem_cellSet hc with rfl | hc
      · show b < a
        omega
      · exact h.1 c hc

theorem cellErase_wf {m : Cells α} (a : Nat) (h : Cells.wf m) : Cells.wf (cellErase m a) :=
  List.Pairwise.filter _ h

theorem cellPut_wf {m : Cells α} (a : Nat) (o : Option α) (h : Cells.wf m) : Cells.wf (cellPut m a o) := by
  cases o with
  | none => exact cellErase_wf a h
  | some v => exact cellSet_wf a v h

theorem mem_cellPut {m : Cells α} {a : Nat} {o : Option α} {c : Nat × α} (h : c ∈ cellPut m a o) :
    c.1 = a ∨ c ∈ m := by
  cases o with
  | none => exact .inr (List.mem_of_mem_filter h)
  | some v => exact (mem_cellSet h).imp (fun e => by rw [e]) id

/-! ## A write transaction -/

theorem cellGet_writeBytes (a : Nat) (bs : List Byte) (m : List Host.Cell) (x : Nat) :
    cellGet (writeBytes a bs m) x = if a ≤ x ∧ x < a + bs.length then bs[x - a]? else cellGet m x := by
  induction bs generalizing a m with
  | nil =>
    have h : ¬(a ≤ x ∧ x < a + 0) := by omega
    simp [writeBytes]
  | cons b bs ih =>
    rw [writeBytes, ih, cellGet_cellSet]
    by_cases hx : x = a
    · subst hx
      simp
    · by_cases hin : a + 1 ≤ x ∧ x < a + 1 + bs.length
      · have h2 : a ≤ x ∧ x < a + (b :: bs).length := by simp only [List.length_cons]; omega
        rw [if_pos hin, if_pos h2, show x - a = (x - (a + 1)) + 1 by omega, List.getElem?_cons_succ]
      · have h2 : ¬(a ≤ x ∧ x < a + (b :: bs).length) := by simp only [List.length_cons]; omega
        rw [if_neg hin, if_neg h2, if_neg hx]

theorem cellGet_writeBytes_outside {a : Nat} {bs : List Byte} (m : List Host.Cell) {x : Nat}
    (h : x < a ∨ a + bs.length ≤ x) : cellGet (writeBytes a bs m) x = cellGet m x := by
  rw [cellGet_writeBytes, if_neg (by omega)]

theorem cellGet_scrambleBytes (tx a len : Nat) (m : List Host.Cell) (x : Nat) :
    cellGet (scrambleBytes tx a len m) x =
      if a ≤ x ∧ x < a + len then Config.failedCell tx x else cellGet m x := by
  induction len generalizing a m with
  | zero =>
    rw [if_neg (by omega)]
    rfl
  | succ len ih =>
    rw [scrambleBytes, ih, cellGet_cellPut]
    by_cases hx : x = a
    · subst hx
      simp
    · by_cases hin : a + 1 ≤ x ∧ x < a + 1 + len
      · rw [if_pos hin, if_pos (by omega)]
      · rw [if_neg hin, if_neg hx, if_neg (by omega)]

theorem cellGet_scrambleBytes_outside {tx a len : Nat} (m : List Host.Cell) {x : Nat}
    (h : x < a ∨ a + len ≤ x) : cellGet (scrambleBytes tx a len m) x = cellGet m x := by
  rw [cellGet_scrambleBytes, if_neg (by omega)]

theorem writeBytes_wf (a : Nat) (bs : List Byte) {m : List Host.Cell} (h : Memory.wf m) :
    Memory.wf (writeBytes a bs m) := by
  induction bs generalizing a m with
  | nil => exact h
  | cons b bs ih => exact ih _ (cellSet_wf a b h)

theorem scrambleBytes_wf (tx a len : Nat) {m : List Host.Cell} (h : Memory.wf m) :
    Memory.wf (scrambleBytes tx a len m) := by
  induction len generalizing a m with
  | zero => exact h
  | succ len ih => exact ih _ (cellPut_wf a _ h)

theorem mem_writeBytes {a : Nat} {bs : List Byte} {m : List Host.Cell} {c : Host.Cell}
    (h : c ∈ writeBytes a bs m) : (a ≤ c.1 ∧ c.1 < a + bs.length) ∨ c ∈ m := by
  induction bs generalizing a m with
  | nil => exact .inr h
  | cons b bs ih =>
    rcases ih h with h1 | h1
    · left
      simp only [List.length_cons]
      omega
    · rcases mem_cellSet h1 with rfl | h2
      · left
        simp
      · exact .inr h2

theorem mem_scrambleBytes {tx a len : Nat} {m : List Host.Cell} {c : Host.Cell}
    (h : c ∈ scrambleBytes tx a len m) : (a ≤ c.1 ∧ c.1 < a + len) ∨ c ∈ m := by
  induction len generalizing a m with
  | zero => exact .inr h
  | succ len ih =>
    rcases ih h with h1 | h1
    · left
      omega
    · rcases mem_cellPut h1 with h2 | h2
      · left
        omega
      · exact .inr h2

theorem writeBytes_append (a : Nat) (xs ys : List Byte) (m : List Host.Cell) :
    writeBytes a (xs ++ ys) m = writeBytes (a + xs.length) ys (writeBytes a xs m) := by
  induction xs generalizing a m with
  | nil => rfl
  | cons x xs ih =>
    rw [List.cons_append, writeBytes, ih, writeBytes, List.length_cons]
    congr 1
    omega

/-! ## A read -/

theorem readBytes_eq_some {m : List Host.Cell} {a n : Nat} {bs : List Byte} :
    readBytes m a n = some bs ↔ bs.length = n ∧ ∀ j, j < n → cellGet m (a + j) = bs[j]? := by
  induction n generalizing a bs with
  | zero =>
    constructor
    · intro h
      simp only [readBytes, Option.some.injEq] at h
      subst h
      simp
    · rintro ⟨h, -⟩
      simp [readBytes, List.eq_nil_of_length_eq_zero h]
  | succ n ih =>
    constructor
    · intro h
      rw [readBytes] at h
      split at h
      · rename_i b bs' h1 h2
        simp only [Option.some.injEq] at h
        subst h
        obtain ⟨hl, hj⟩ := ih.1 h2
        refine ⟨by simp [hl], ?_⟩
        intro j hjn
        cases j with
        | zero => simpa using h1
        | succ j =>
          have := hj j (by omega)
          rw [show a + (j + 1) = a + 1 + j by omega, this, List.getElem?_cons_succ]
      · cases h
    · rintro ⟨hl, hj⟩
      cases bs with
      | nil => simp at hl
      | cons b bs =>
        have h1 : cellGet m a = some b := by simpa using hj 0 (by omega)
        have h2 : readBytes m (a + 1) n = some bs := by
          refine ih.2 ⟨by simpa using hl, ?_⟩
          intro j hjn
          have := hj (j + 1) (by omega)
          rwa [show a + (j + 1) = a + 1 + j by omega, List.getElem?_cons_succ] at this
        rw [readBytes, h1, h2]

theorem readBytes_congr {m m' : List Host.Cell} {a n : Nat}
    (h : ∀ x, a ≤ x → x < a + n → cellGet m x = cellGet m' x) : readBytes m a n = readBytes m' a n := by
  induction n generalizing a with
  | zero => rfl
  | succ n ih =>
    rw [readBytes, readBytes, h a (by omega) (by omega), ih fun x hx hx' => h x (by omega) (by omega)]

/-- A read after a write to the same place gives the bytes written. -/
theorem readBytes_writeBytes_same (a : Nat) (bs : List Byte) (m : List Host.Cell) :
    readBytes (writeBytes a bs m) a bs.length = some bs := by
  refine readBytes_eq_some.2 ⟨rfl, ?_⟩
  intro j hj
  rw [cellGet_writeBytes, if_pos (by omega), show a + j - a = j by omega]

/-- A write leaves every other place alone. -/
theorem readBytes_writeBytes_other {a b n : Nat} (bs : List Byte) (m : List Host.Cell)
    (h : b + n ≤ a ∨ a + bs.length ≤ b) : readBytes (writeBytes a bs m) b n = readBytes m b n :=
  readBytes_congr fun x hx hx' => cellGet_writeBytes_outside m (by omega)

theorem readBytes_append {m : List Host.Cell} {a p q : Nat} {xs ys : List Byte}
    (hx : readBytes m a p = some xs) (hy : readBytes m (a + p) q = some ys) :
    readBytes m a (p + q) = some (xs ++ ys) := by
  obtain ⟨hxl, hxj⟩ := readBytes_eq_some.1 hx
  obtain ⟨hyl, hyj⟩ := readBytes_eq_some.1 hy
  refine readBytes_eq_some.2 ⟨by simp [hxl, hyl], ?_⟩
  intro j hj
  by_cases h : j < p
  · rw [hxj j h, List.getElem?_append_left (by omega)]
  · rw [List.getElem?_append_right (by omega), show a + j = a + p + (j - p) by omega,
      hyj (j - p) (by omega), hxl]

end Sys2Proof.Machine
end

