-- ==== Sys2Proof/Laws/Decode.lean ====
section
/-! SUPPORT. The byte images read back, and the operand lists of the two decoders. -/

namespace Sys2Proof

/-! ## Byte images -/

@[simp] theorem le16_length (v : BitVec 16) : (le16 v).length = 2 := rfl

@[simp] theorem le32_length (v : Word) : (le32 v).length = 4 := rfl

@[simp] theorem rd16_le16 (v : BitVec 16) : rd16 (v.extractLsb' 0 8) (v.extractLsb' 8 8) = v := by
  apply BitVec.eq_of_getLsbD_eq
  intro i hi
  simp only [rd16, BitVec.getLsbD_append, BitVec.getLsbD_extractLsb']
  by_cases h : i < 8
  · simp [h]
  · have h2 : i - 8 < 8 := by omega
    simp [h, h2, show 8 + (i - 8) = i by omega]

theorem le16_rd16 (b0 b1 : Byte) : le16 (rd16 b0 b1) = [b0, b1] := by
  have h0 : (rd16 b0 b1).extractLsb' 0 8 = b0 := by
    apply BitVec.eq_of_getLsbD_eq
    intro i hi
    simp only [rd16, BitVec.getLsbD_extractLsb', BitVec.getLsbD_append]
    simp [hi]
  have h1 : (rd16 b0 b1).extractLsb' 8 8 = b1 := by
    apply BitVec.eq_of_getLsbD_eq
    intro i hi
    simp only [rd16, BitVec.getLsbD_extractLsb', BitVec.getLsbD_append]
    simp [hi]
  rw [le16, h0, h1]

@[simp] theorem rd32_le32 (v : Word) :
    rd32 (v.extractLsb' 0 8) (v.extractLsb' 8 8) (v.extractLsb' 16 8) (v.extractLsb' 24 8) = v := by
  apply BitVec.eq_of_getLsbD_eq
  intro i hi
  simp only [rd32, BitVec.getLsbD_append, BitVec.getLsbD_extractLsb']
  by_cases h : i < 8
  · simp [h]
  · by_cases h2 : i < 16
    · simp [h, show i - 8 < 8 by omega, show 8 + (i - 8) = i by omega]
    · by_cases h3 : i < 24
      · simp [h, show ¬ i - 8 < 8 by omega, show i - 8 - 8 < 8 by omega,
          show 16 + (i - 8 - 8) = i by omega]
      · simp [h, show ¬ i - 8 < 8 by omega, show ¬ i - 8 - 8 < 8 by omega, show i - 8 - 8 - 8 < 8 by omega,
          show 24 + (i - 8 - 8 - 8) = i by omega]

theorem le32_rd32 (b0 b1 b2 b3 : Byte) : le32 (rd32 b0 b1 b2 b3) = [b0, b1, b2, b3] := by
  have h0 : (rd32 b0 b1 b2 b3).extractLsb' 0 8 = b0 := by
    apply BitVec.eq_of_getLsbD_eq
    intro i hi
    simp only [rd32, BitVec.getLsbD_extractLsb', BitVec.getLsbD_append]
    simp [hi]
  have h1 : (rd32 b0 b1 b2 b3).extractLsb' 8 8 = b1 := by
    apply BitVec.eq_of_getLsbD_eq
    intro i hi
    simp only [rd32, BitVec.getLsbD_extractLsb', BitVec.getLsbD_append]
    simp [hi]
  have h2 : (rd32 b0 b1 b2 b3).extractLsb' 16 8 = b2 := by
    apply BitVec.eq_of_getLsbD_eq
    intro i hi
    simp only [rd32, BitVec.getLsbD_extractLsb', BitVec.getLsbD_append]
    simp [hi, show ¬ 16 + i < 8 by omega, show ¬ 16 + i - 8 < 8 by omega, show 16 + i - 8 - 8 = i by omega]
  have h3 : (rd32 b0 b1 b2 b3).extractLsb' 24 8 = b3 := by
    apply BitVec.eq_of_getLsbD_eq
    intro i hi
    simp only [rd32, BitVec.getLsbD_extractLsb', BitVec.getLsbD_append]
    simp [hi, show ¬ 24 + i < 8 by omega, show ¬ 24 + i - 8 < 8 by omega, show ¬ 24 + i - 8 - 8 < 8 by omega,
      show 24 + i - 8 - 8 - 8 = i by omega]
  rw [le32, h0, h1, h2, h3]

/-! ## Operand lists -/

theorem flatMap_le16_length (cs : List Color565) : (cs.flatMap le16).length = 2 * cs.length := by
  induction cs with
  | nil => rfl
  | cons c cs ih =>
    rw [List.flatMap_cons, List.length_append, ih, le16_length, List.length_cons]
    omega

theorem flatMap_pixel_length (px : List Pixel) :
    (px.flatMap fun p => [p.r, p.g, p.b]).length = 3 * px.length := by
  induction px with
  | nil => rfl
  | cons p px ih =>
    rw [List.flatMap_cons, List.length_append, ih, List.length_cons]
    simp only [List.length_cons, List.length_nil]
    omega

/-- The values of a list are read back from their bytes, and what follows is left. -/
theorem takeColors_flatMap (cs : List Color565) (rest : List Byte) :
    takeColors cs.length (cs.flatMap le16 ++ rest) = some (cs, rest) := by
  induction cs with
  | nil => rfl
  | cons c cs ih =>
    show takeColors (cs.length + 1) (c.extractLsb' 0 8 :: c.extractLsb' 8 8 :: (cs.flatMap le16 ++ rest)) = _
    rw [takeColors, ih, rd16_le16]

/-- The pixels of a list are read back from their bytes, and what follows is left. -/
theorem takePixels_flatMap (px : List Pixel) (rest : List Byte) :
    takePixels px.length ((px.flatMap fun p => [p.r, p.g, p.b]) ++ rest) = some (px, rest) := by
  induction px with
  | nil => rfl
  | cons p px ih =>
    show takePixels (px.length + 1) (p.r :: p.g :: p.b :: ((px.flatMap fun p => [p.r, p.g, p.b]) ++ rest)) = _
    rw [takePixels, ih]

/-- What `takeColors` takes: as many values as asked for, whose bytes it took. -/
theorem takeColors_eq_some {n : Nat} {bs : List Byte} {cs : List Color565} {rest : List Byte} :
    takeColors n bs = some (cs, rest) ↔ cs.length = n ∧ cs.flatMap le16 ++ rest = bs := by
  constructor
  · intro h
    induction n generalizing bs cs with
    | zero =>
      simp only [takeColors, Option.some.injEq, Prod.mk.injEq] at h
      obtain ⟨rfl, rfl⟩ := h
      exact ⟨rfl, rfl⟩
    | succ n ih =>
      match bs, h with
      | b0 :: b1 :: bs, h =>
        rw [takeColors] at h
        split at h
        · rename_i cs' rest' h'
          simp only [Option.some.injEq, Prod.mk.injEq] at h
          obtain ⟨rfl, rfl⟩ := h
          obtain ⟨hl, hb⟩ := ih h'
          refine ⟨by rw [List.length_cons, hl], ?_⟩
          rw [List.flatMap_cons, le16_rd16, ← hb]
          rfl
        · cases h
  · rintro ⟨rfl, rfl⟩
    exact takeColors_flatMap cs rest

/-- What `takePixels` takes: as many pixels as asked for, whose bytes it took. -/
theorem takePixels_eq_some {n : Nat} {bs : List Byte} {px : List Pixel} {rest : List Byte} :
    takePixels n bs = some (px, rest) ↔
      px.length = n ∧ (px.flatMap fun p => [p.r, p.g, p.b]) ++ rest = bs := by
  constructor
  · intro h
    induction n generalizing bs px with
    | zero =>
      simp only [takePixels, Option.some.injEq, Prod.mk.injEq] at h
      obtain ⟨rfl, rfl⟩ := h
      exact ⟨rfl, rfl⟩
    | succ n ih =>
      match bs, h with
      | r :: g :: b :: bs, h =>
        rw [takePixels] at h
        split at h
        · rename_i px' rest' h'
          simp only [Option.some.injEq, Prod.mk.injEq] at h
          obtain ⟨rfl, rfl⟩ := h
          obtain ⟨hl, hb⟩ := ih h'
          refine ⟨by rw [List.length_cons, hl], ?_⟩
          rw [List.flatMap_cons, ← hb]
          rfl
        · cases h
  · rintro ⟨rfl, rfl⟩
    exact takePixels_flatMap px rest

/-- Enough bytes are taken, and exactly twice as many as values. -/
theorem takeColors_of_le {n : Nat} {bs : List Byte} (h : 2 * n ≤ bs.length) :
    ∃ cs, takeColors n bs = some (cs, bs.drop (2 * n)) := by
  induction n generalizing bs with
  | zero => exact ⟨[], rfl⟩
  | succ n ih =>
    match bs, h with
    | b0 :: b1 :: bs, h =>
      obtain ⟨cs, hcs⟩ := ih (bs := bs) (by simp only [List.length_cons] at h; omega)
      refine ⟨rd16 b0 b1 :: cs, ?_⟩
      rw [takeColors, hcs, show 2 * (n + 1) = 2 * n + 1 + 1 by omega, List.drop_succ_cons, List.drop_succ_cons]
    | [_], h => simp at h; omega
    | [], h => simp at h

/-- Too few bytes are not taken. -/
theorem takeColors_of_lt {n : Nat} {bs : List Byte} (h : bs.length < 2 * n) : takeColors n bs = none := by
  cases h' : takeColors n bs with
  | none => rfl
  | some p =>
    obtain ⟨cs, rest⟩ := p
    obtain ⟨hl, hb⟩ := takeColors_eq_some.1 h'
    have := congrArg List.length hb
    rw [List.length_append, flatMap_le16_length] at this
    omega

theorem takePixels_of_lt {n : Nat} {bs : List Byte} (h : bs.length < 3 * n) : takePixels n bs = none := by
  cases h' : takePixels n bs with
  | none => rfl
  | some p =>
    obtain ⟨px, rest⟩ := p
    obtain ⟨hl, hb⟩ := takePixels_eq_some.1 h'
    have := congrArg List.length hb
    rw [List.length_append, flatMap_pixel_length] at this
    omega

/-- A segment takes at least its header. -/
theorem decodeSegment_rest_le {h : Byte} {bs : List Byte} {i : Instr} {rest : List Byte}
    (hd : decodeSegment (h :: bs) = .ok (i, rest)) : rest.length ≤ bs.length := by
  rw [decodeSegment] at hd
  split_ifs at hd
  · unfold decodeRun at hd
    split at hd
    · cases hd
      simp only [List.length_cons]
      omega
    · cases hd
  · unfold decodeLit at hd
    split at hd
    · rename_i vs r hv
      cases hd
      rw [← (takeColors_eq_some.1 hv).2, List.length_append]
      omega
    · cases hd

/-! ## The segment header -/

@[simp] theorem segmentHeader_flag (f : BitVec 1) (n : BitVec 7) :
    (segmentHeader f n).getLsbD 7 = f.getLsbD 0 := by
  simp only [segmentHeader, BitVec.getLsbD_append]
  simp

@[simp] theorem segmentHeader_getElem_flag (f : BitVec 1) (n : BitVec 7) :
    (segmentHeader f n)[7] = f.getLsbD 0 := segmentHeader_flag f n

@[simp] theorem segmentHeader_count (f : BitVec 1) (n : BitVec 7) :
    (segmentHeader f n).extractLsb' 0 7 = n := by
  apply BitVec.eq_of_getLsbD_eq
  intro i hi
  simp only [segmentHeader, BitVec.getLsbD_extractLsb', BitVec.getLsbD_append]
  simp [hi]

theorem segmentHeader_one (n : BitVec 7) : segmentHeader 1 n = 0x80 ||| n.setWidth 8 := by
  revert n
  decide

theorem segmentHeader_zero (n : BitVec 7) : segmentHeader 0 n = n.setWidth 8 := by
  revert n
  decide

end Sys2Proof
end

