-- ==== Sys2Proof/Laws/State.lean ====
section
/-! SUPPORT. What each named update of the state does to each field: later proofs never unfold a record update. -/

namespace Sys2Proof.Machine

/-! ## `emit` (R101) -/

@[simp] theorem emit_phase (bs : List Byte) (s : State) : (emit bs s).phase = s.phase := rfl
@[simp] theorem emit_err (bs : List Byte) (s : State) : (emit bs s).err = s.err := rfl
@[simp] theorem emit_n (bs : List Byte) (s : State) : (emit bs s).n = s.n := rfl
@[simp] theorem emit_w (bs : List Byte) (s : State) : (emit bs s).w = s.w := rfl
@[simp] theorem emit_h (bs : List Byte) (s : State) : (emit bs s).h = s.h := rfl
@[simp] theorem emit_fps (bs : List Byte) (s : State) : (emit bs s).fps = s.fps := rfl
@[simp] theorem emit_idx (bs : List Byte) (s : State) : (emit bs s).idx = s.idx := rfl
@[simp] theorem emit_pos (bs : List Byte) (s : State) : (emit bs s).pos = s.pos := rfl
@[simp] theorem emit_k (bs : List Byte) (s : State) : (emit bs s).k = s.k := rfl
@[simp] theorem emit_off (bs : List Byte) (s : State) : (emit bs s).off = s.off := rfl
@[simp] theorem emit_size (bs : List Byte) (s : State) : (emit bs s).size = s.size := rfl
@[simp] theorem emit_port (bs : List Byte) (s : State) : (emit bs s).port = s.port := rfl
@[simp] theorem emit_sink (bs : List Byte) (s : State) : (emit bs s).sink = s.sink := rfl
@[simp] theorem emit_cfg (bs : List Byte) (s : State) : (emit bs s).cfg = s.cfg := rfl
@[simp] theorem emit_out (bs : List Byte) (s : State) : (emit bs s).out = s.out ++ [bs] := rfl
@[simp] theorem emit_input (bs : List Byte) (s : State) : (emit bs s).input = s.input := rfl
@[simp] theorem emit_reads (bs : List Byte) (s : State) : (emit bs s).reads = s.reads := rfl
@[simp] theorem emit_segs (bs : List Byte) (s : State) : (emit bs s).segs = s.segs := rfl
@[simp] theorem emit_frame (bs : List Byte) (s : State) : (emit bs s).frame = s.frame := rfl
@[simp] theorem emit_answers (bs : List Byte) (s : State) : (emit bs s).answers = s.answers := rfl
@[simp] theorem emit_issued (bs : List Byte) (s : State) : (emit bs s).issued = s.issued := rfl
@[simp] theorem emit_finished (bs : List Byte) (s : State) : (emit bs s).finished = s.finished := rfl
@[simp] theorem emit_resets (bs : List Byte) (s : State) : (emit bs s).resets = s.resets := rfl

/-! ## `respondOk` (R101) -/

@[simp] theorem respondOk_phase (p : List Byte) (s : State) : (respondOk p s).phase = s.phase := rfl
@[simp] theorem respondOk_err (p : List Byte) (s : State) : (respondOk p s).err = s.err := rfl
@[simp] theorem respondOk_n (p : List Byte) (s : State) : (respondOk p s).n = s.n := rfl
@[simp] theorem respondOk_w (p : List Byte) (s : State) : (respondOk p s).w = s.w := rfl
@[simp] theorem respondOk_h (p : List Byte) (s : State) : (respondOk p s).h = s.h := rfl
@[simp] theorem respondOk_fps (p : List Byte) (s : State) : (respondOk p s).fps = s.fps := rfl
@[simp] theorem respondOk_idx (p : List Byte) (s : State) : (respondOk p s).idx = s.idx := rfl
@[simp] theorem respondOk_pos (p : List Byte) (s : State) : (respondOk p s).pos = s.pos := rfl
@[simp] theorem respondOk_k (p : List Byte) (s : State) : (respondOk p s).k = s.k := rfl
@[simp] theorem respondOk_off (p : List Byte) (s : State) : (respondOk p s).off = s.off := rfl
@[simp] theorem respondOk_size (p : List Byte) (s : State) : (respondOk p s).size = s.size := rfl
@[simp] theorem respondOk_port (p : List Byte) (s : State) : (respondOk p s).port = s.port := rfl
@[simp] theorem respondOk_sink (p : List Byte) (s : State) : (respondOk p s).sink = s.sink := rfl
@[simp] theorem respondOk_cfg (p : List Byte) (s : State) : (respondOk p s).cfg = s.cfg := rfl
@[simp] theorem respondOk_out (p : List Byte) (s : State) : (respondOk p s).out = s.out ++ [0x00 :: p] := rfl
@[simp] theorem respondOk_input (p : List Byte) (s : State) : (respondOk p s).input = s.input := rfl
@[simp] theorem respondOk_reads (p : List Byte) (s : State) : (respondOk p s).reads = s.reads := rfl
@[simp] theorem respondOk_segs (p : List Byte) (s : State) : (respondOk p s).segs = s.segs := rfl
@[simp] theorem respondOk_frame (p : List Byte) (s : State) : (respondOk p s).frame = s.frame := rfl
@[simp] theorem respondOk_answers (p : List Byte) (s : State) : (respondOk p s).answers = s.answers := rfl
@[simp] theorem respondOk_issued (p : List Byte) (s : State) : (respondOk p s).issued = s.issued := rfl
@[simp] theorem respondOk_finished (p : List Byte) (s : State) : (respondOk p s).finished = s.finished := rfl
@[simp] theorem respondOk_resets (p : List Byte) (s : State) : (respondOk p s).resets = s.resets := rfl

/-! ## `reject` (R234) -/

@[simp] theorem reject_phase (e : Status) (s : State) : (reject e s).phase = s.phase := rfl
@[simp] theorem reject_err (e : Status) (s : State) : (reject e s).err = s.err := rfl
@[simp] theorem reject_n (e : Status) (s : State) : (reject e s).n = s.n := rfl
@[simp] theorem reject_w (e : Status) (s : State) : (reject e s).w = s.w := rfl
@[simp] theorem reject_h (e : Status) (s : State) : (reject e s).h = s.h := rfl
@[simp] theorem reject_fps (e : Status) (s : State) : (reject e s).fps = s.fps := rfl
@[simp] theorem reject_idx (e : Status) (s : State) : (reject e s).idx = s.idx := rfl
@[simp] theorem reject_pos (e : Status) (s : State) : (reject e s).pos = s.pos := rfl
@[simp] theorem reject_k (e : Status) (s : State) : (reject e s).k = s.k := rfl
@[simp] theorem reject_off (e : Status) (s : State) : (reject e s).off = s.off := rfl
@[simp] theorem reject_size (e : Status) (s : State) : (reject e s).size = s.size := rfl
@[simp] theorem reject_port (e : Status) (s : State) : (reject e s).port = s.port := rfl
@[simp] theorem reject_sink (e : Status) (s : State) : (reject e s).sink = s.sink := rfl
@[simp] theorem reject_cfg (e : Status) (s : State) : (reject e s).cfg = s.cfg := rfl
@[simp] theorem reject_out (e : Status) (s : State) : (reject e s).out = s.out ++ [[statusCode e]] := rfl
@[simp] theorem reject_input (e : Status) (s : State) : (reject e s).input = s.input := rfl
@[simp] theorem reject_reads (e : Status) (s : State) : (reject e s).reads = s.reads := rfl
@[simp] theorem reject_segs (e : Status) (s : State) : (reject e s).segs = s.segs := rfl
@[simp] theorem reject_frame (e : Status) (s : State) : (reject e s).frame = s.frame := rfl
@[simp] theorem reject_answers (e : Status) (s : State) : (reject e s).answers = s.answers := rfl
@[simp] theorem reject_issued (e : Status) (s : State) : (reject e s).issued = s.issued := rfl
@[simp] theorem reject_finished (e : Status) (s : State) : (reject e s).finished = s.finished := rfl
@[simp] theorem reject_resets (e : Status) (s : State) : (reject e s).resets = s.resets := rfl

/-! ## `failWith` (R233) -/

@[simp] theorem failWith_phase (e : Status) (s : State) : (failWith e s).phase = .failed := rfl
@[simp] theorem failWith_err (e : Status) (s : State) : (failWith e s).err = statusCode e := rfl
@[simp] theorem failWith_n (e : Status) (s : State) : (failWith e s).n = s.n := rfl
@[simp] theorem failWith_w (e : Status) (s : State) : (failWith e s).w = s.w := rfl
@[simp] theorem failWith_h (e : Status) (s : State) : (failWith e s).h = s.h := rfl
@[simp] theorem failWith_fps (e : Status) (s : State) : (failWith e s).fps = s.fps := rfl
@[simp] theorem failWith_idx (e : Status) (s : State) : (failWith e s).idx = s.idx := rfl
@[simp] theorem failWith_pos (e : Status) (s : State) : (failWith e s).pos = s.pos := rfl
@[simp] theorem failWith_k (e : Status) (s : State) : (failWith e s).k = s.k := rfl
@[simp] theorem failWith_off (e : Status) (s : State) : (failWith e s).off = s.off := rfl
@[simp] theorem failWith_size (e : Status) (s : State) : (failWith e s).size = s.size := rfl
@[simp] theorem failWith_port (e : Status) (s : State) : (failWith e s).port = s.port := rfl
@[simp] theorem failWith_sink (e : Status) (s : State) : (failWith e s).sink = s.sink := rfl
@[simp] theorem failWith_cfg (e : Status) (s : State) : (failWith e s).cfg = s.cfg := rfl
@[simp] theorem failWith_out (e : Status) (s : State) : (failWith e s).out = s.out ++ [[statusCode e]] := rfl
@[simp] theorem failWith_input (e : Status) (s : State) : (failWith e s).input = s.input := rfl
@[simp] theorem failWith_reads (e : Status) (s : State) : (failWith e s).reads = s.reads := rfl
@[simp] theorem failWith_segs (e : Status) (s : State) : (failWith e s).segs = s.segs := rfl
@[simp] theorem failWith_frame (e : Status) (s : State) : (failWith e s).frame = s.frame := rfl
@[simp] theorem failWith_answers (e : Status) (s : State) : (failWith e s).answers = s.answers := rfl
@[simp] theorem failWith_issued (e : Status) (s : State) : (failWith e s).issued = s.issued := rfl
@[simp] theorem failWith_finished (e : Status) (s : State) : (failWith e s).finished = s.finished := rfl
@[simp] theorem failWith_resets (e : Status) (s : State) : (failWith e s).resets = s.resets := rfl

/-! ## `issue` (R54, R55) -/

@[simp] theorem issue_phase (a : Nat) (bs : List Byte) (s : State) : (issue a bs s).phase = s.phase := rfl
@[simp] theorem issue_err (a : Nat) (bs : List Byte) (s : State) : (issue a bs s).err = s.err := rfl
@[simp] theorem issue_n (a : Nat) (bs : List Byte) (s : State) : (issue a bs s).n = s.n := rfl
@[simp] theorem issue_w (a : Nat) (bs : List Byte) (s : State) : (issue a bs s).w = s.w := rfl
@[simp] theorem issue_h (a : Nat) (bs : List Byte) (s : State) : (issue a bs s).h = s.h := rfl
@[simp] theorem issue_fps (a : Nat) (bs : List Byte) (s : State) : (issue a bs s).fps = s.fps := rfl
@[simp] theorem issue_idx (a : Nat) (bs : List Byte) (s : State) : (issue a bs s).idx = s.idx := rfl
@[simp] theorem issue_pos (a : Nat) (bs : List Byte) (s : State) : (issue a bs s).pos = s.pos := rfl
@[simp] theorem issue_k (a : Nat) (bs : List Byte) (s : State) : (issue a bs s).k = s.k := rfl
@[simp] theorem issue_off (a : Nat) (bs : List Byte) (s : State) : (issue a bs s).off = s.off := rfl
@[simp] theorem issue_size (a : Nat) (bs : List Byte) (s : State) : (issue a bs s).size = s.size := rfl
@[simp] theorem issue_port (a : Nat) (bs : List Byte) (s : State) : (issue a bs s).port = s.port := rfl
@[simp] theorem issue_sink (a : Nat) (bs : List Byte) (s : State) : (issue a bs s).sink = s.sink := rfl
@[simp] theorem issue_cfg (a : Nat) (bs : List Byte) (s : State) : (issue a bs s).cfg = s.cfg := rfl
@[simp] theorem issue_out (a : Nat) (bs : List Byte) (s : State) : (issue a bs s).out = s.out := rfl
@[simp] theorem issue_input (a : Nat) (bs : List Byte) (s : State) : (issue a bs s).input = s.input := rfl
@[simp] theorem issue_reads (a : Nat) (bs : List Byte) (s : State) : (issue a bs s).reads = s.reads := rfl
@[simp] theorem issue_segs (a : Nat) (bs : List Byte) (s : State) : (issue a bs s).segs = s.segs := rfl
@[simp] theorem issue_frame (a : Nat) (bs : List Byte) (s : State) : (issue a bs s).frame = s.frame := rfl
@[simp] theorem issue_answers (a : Nat) (bs : List Byte) (s : State) : (issue a bs s).answers = s.answers.tail := rfl
@[simp] theorem issue_issued (a : Nat) (bs : List Byte) (s : State) :
    (issue a bs s).issued = s.issued ++ [⟨a, bs⟩] := rfl
@[simp] theorem issue_finished (a : Nat) (bs : List Byte) (s : State) : (issue a bs s).finished = s.finished := rfl
@[simp] theorem issue_resets (a : Nat) (bs : List Byte) (s : State) : (issue a bs s).resets = s.resets := rfl

/-! ## `takeReset` (R35, R212) -/

@[simp] theorem takeReset_phase (s : State) : (takeReset s).phase = .idle := rfl
@[simp] theorem takeReset_err (s : State) : (takeReset s).err = 0 := rfl
@[simp] theorem takeReset_n (s : State) : (takeReset s).n = 0 := rfl
@[simp] theorem takeReset_w (s : State) : (takeReset s).w = 0 := rfl
@[simp] theorem takeReset_h (s : State) : (takeReset s).h = 0 := rfl
@[simp] theorem takeReset_fps (s : State) : (takeReset s).fps = 0 := rfl
@[simp] theorem takeReset_idx (s : State) : (takeReset s).idx = 0 := rfl
@[simp] theorem takeReset_pos (s : State) : (takeReset s).pos = 0 := rfl
@[simp] theorem takeReset_k (s : State) : (takeReset s).k = 0 := rfl
@[simp] theorem takeReset_off (s : State) : (takeReset s).off = [] := rfl
@[simp] theorem takeReset_size (s : State) : (takeReset s).size = [] := rfl
@[simp] theorem takeReset_port (s : State) : (takeReset s).port = [] := rfl
@[simp] theorem takeReset_sink (s : State) : (takeReset s).sink = s.sink := rfl
@[simp] theorem takeReset_cfg (s : State) : (takeReset s).cfg = s.cfg := rfl
@[simp] theorem takeReset_out (s : State) : (takeReset s).out = s.out := rfl
@[simp] theorem takeReset_input (s : State) : (takeReset s).input = s.input := rfl
@[simp] theorem takeReset_reads (s : State) : (takeReset s).reads = s.reads := rfl
@[simp] theorem takeReset_segs (s : State) : (takeReset s).segs = s.segs := rfl
@[simp] theorem takeReset_frame (s : State) : (takeReset s).frame = s.frame := rfl
@[simp] theorem takeReset_answers (s : State) : (takeReset s).answers = s.answers := rfl
@[simp] theorem takeReset_issued (s : State) : (takeReset s).issued = s.issued := rfl
@[simp] theorem takeReset_finished (s : State) : (takeReset s).finished = s.finished := rfl
@[simp] theorem takeReset_resets (s : State) : (takeReset s).resets = s.resets + 1 := rfl

/-! ## `setMeta` (R23) -/

@[simp] theorem setMeta_phase (n : Word) (w h : Half) (fps : Byte) (s : State) :
    (setMeta n w h fps s).phase = s.phase := rfl
@[simp] theorem setMeta_err (n : Word) (w h : Half) (fps : Byte) (s : State) :
    (setMeta n w h fps s).err = s.err := rfl
@[simp] theorem setMeta_n (n : Word) (w h : Half) (fps : Byte) (s : State) :
    (setMeta n w h fps s).n = n := rfl
@[simp] theorem setMeta_w (n : Word) (w h : Half) (fps : Byte) (s : State) :
    (setMeta n w h fps s).w = w := rfl
@[simp] theorem setMeta_h (n : Word) (w h : Half) (fps : Byte) (s : State) :
    (setMeta n w h fps s).h = h := rfl
@[simp] theorem setMeta_fps (n : Word) (w h : Half) (fps : Byte) (s : State) :
    (setMeta n w h fps s).fps = fps := rfl
@[simp] theorem setMeta_idx (n : Word) (w h : Half) (fps : Byte) (s : State) :
    (setMeta n w h fps s).idx = s.idx := rfl
@[simp] theorem setMeta_pos (n : Word) (w h : Half) (fps : Byte) (s : State) :
    (setMeta n w h fps s).pos = s.pos := rfl
@[simp] theorem setMeta_k (n : Word) (w h : Half) (fps : Byte) (s : State) :
    (setMeta n w h fps s).k = s.k := rfl
@[simp] theorem setMeta_off (n : Word) (w h : Half) (fps : Byte) (s : State) :
    (setMeta n w h fps s).off = s.off := rfl
@[simp] theorem setMeta_size (n : Word) (w h : Half) (fps : Byte) (s : State) :
    (setMeta n w h fps s).size = s.size := rfl
@[simp] theorem setMeta_port (n : Word) (w h : Half) (fps : Byte) (s : State) :
    (setMeta n w h fps s).port = s.port := rfl
@[simp] theorem setMeta_sink (n : Word) (w h : Half) (fps : Byte) (s : State) :
    (setMeta n w h fps s).sink = s.sink := rfl
@[simp] theorem setMeta_cfg (n : Word) (w h : Half) (fps : Byte) (s : State) :
    (setMeta n w h fps s).cfg = s.cfg := rfl
@[simp] theorem setMeta_out (n : Word) (w h : Half) (fps : Byte) (s : State) :
    (setMeta n w h fps s).out = s.out := rfl
@[simp] theorem setMeta_input (n : Word) (w h : Half) (fps : Byte) (s : State) :
    (setMeta n w h fps s).input = s.input := rfl
@[simp] theorem setMeta_reads (n : Word) (w h : Half) (fps : Byte) (s : State) :
    (setMeta n w h fps s).reads = s.reads := rfl
@[simp] theorem setMeta_segs (n : Word) (w h : Half) (fps : Byte) (s : State) :
    (setMeta n w h fps s).segs = s.segs := rfl
@[simp] theorem setMeta_frame (n : Word) (w h : Half) (fps : Byte) (s : State) :
    (setMeta n w h fps s).frame = s.frame := rfl
@[simp] theorem setMeta_answers (n : Word) (w h : Half) (fps : Byte) (s : State) :
    (setMeta n w h fps s).answers = s.answers := rfl
@[simp] theorem setMeta_issued (n : Word) (w h : Half) (fps : Byte) (s : State) :
    (setMeta n w h fps s).issued = s.issued := rfl
@[simp] theorem setMeta_finished (n : Word) (w h : Half) (fps : Byte) (s : State) :
    (setMeta n w h fps s).finished = false := rfl
@[simp] theorem setMeta_resets (n : Word) (w h : Half) (fps : Byte) (s : State) :
    (setMeta n w h fps s).resets = s.resets := rfl

/-! ## `recordIndex` (R25) -/

@[simp] theorem recordIndex_phase (s : State) : (recordIndex s).phase = s.phase := rfl
@[simp] theorem recordIndex_err (s : State) : (recordIndex s).err = s.err := rfl
@[simp] theorem recordIndex_n (s : State) : (recordIndex s).n = s.n := rfl
@[simp] theorem recordIndex_w (s : State) : (recordIndex s).w = s.w := rfl
@[simp] theorem recordIndex_h (s : State) : (recordIndex s).h = s.h := rfl
@[simp] theorem recordIndex_fps (s : State) : (recordIndex s).fps = s.fps := rfl
@[simp] theorem recordIndex_idx (s : State) : (recordIndex s).idx = 20 := rfl
@[simp] theorem recordIndex_pos (s : State) : (recordIndex s).pos = 20 := rfl
@[simp] theorem recordIndex_k (s : State) : (recordIndex s).k = s.k := rfl
@[simp] theorem recordIndex_off (s : State) : (recordIndex s).off = s.off := rfl
@[simp] theorem recordIndex_size (s : State) : (recordIndex s).size = s.size := rfl
@[simp] theorem recordIndex_port (s : State) : (recordIndex s).port = s.port := rfl
@[simp] theorem recordIndex_sink (s : State) : (recordIndex s).sink = s.sink := rfl
@[simp] theorem recordIndex_cfg (s : State) : (recordIndex s).cfg = s.cfg := rfl
@[simp] theorem recordIndex_out (s : State) : (recordIndex s).out = s.out := rfl
@[simp] theorem recordIndex_input (s : State) : (recordIndex s).input = s.input := rfl
@[simp] theorem recordIndex_reads (s : State) : (recordIndex s).reads = s.reads := rfl
@[simp] theorem recordIndex_segs (s : State) : (recordIndex s).segs = s.segs := rfl
@[simp] theorem recordIndex_frame (s : State) : (recordIndex s).frame = s.frame := rfl
@[simp] theorem recordIndex_answers (s : State) : (recordIndex s).answers = s.answers := rfl
@[simp] theorem recordIndex_issued (s : State) : (recordIndex s).issued = s.issued := rfl
@[simp] theorem recordIndex_finished (s : State) : (recordIndex s).finished = s.finished := rfl
@[simp] theorem recordIndex_resets (s : State) : (recordIndex s).resets = s.resets := rfl

/-! ## `openConversion` (R180) -/

@[simp] theorem openConversion_phase (s : State) : (openConversion s).phase = .opened := rfl
@[simp] theorem openConversion_err (s : State) : (openConversion s).err = s.err := rfl
@[simp] theorem openConversion_n (s : State) : (openConversion s).n = s.n := rfl
@[simp] theorem openConversion_w (s : State) : (openConversion s).w = s.w := rfl
@[simp] theorem openConversion_h (s : State) : (openConversion s).h = s.h := rfl
@[simp] theorem openConversion_fps (s : State) : (openConversion s).fps = s.fps := rfl
@[simp] theorem openConversion_idx (s : State) : (openConversion s).idx = s.idx := rfl
@[simp] theorem openConversion_pos (s : State) :
    (openConversion s).pos = BitVec.ofNat 32 (blobBase s.n) := rfl
@[simp] theorem openConversion_k (s : State) : (openConversion s).k = 0 := rfl
@[simp] theorem openConversion_off (s : State) : (openConversion s).off = s.off := rfl
@[simp] theorem openConversion_size (s : State) : (openConversion s).size = s.size := rfl
@[simp] theorem openConversion_port (s : State) : (openConversion s).port = s.port := rfl
@[simp] theorem openConversion_sink (s : State) : (openConversion s).sink = s.sink := rfl
@[simp] theorem openConversion_cfg (s : State) : (openConversion s).cfg = s.cfg := rfl
@[simp] theorem openConversion_out (s : State) : (openConversion s).out = s.out := rfl
@[simp] theorem openConversion_input (s : State) : (openConversion s).input = s.input := rfl
@[simp] theorem openConversion_reads (s : State) : (openConversion s).reads = s.reads := rfl
@[simp] theorem openConversion_segs (s : State) : (openConversion s).segs = s.segs := rfl
@[simp] theorem openConversion_frame (s : State) : (openConversion s).frame = s.frame := rfl
@[simp] theorem openConversion_answers (s : State) : (openConversion s).answers = s.answers := rfl
@[simp] theorem openConversion_issued (s : State) : (openConversion s).issued = s.issued := rfl
@[simp] theorem openConversion_finished (s : State) : (openConversion s).finished = s.finished := rfl
@[simp] theorem openConversion_resets (s : State) : (openConversion s).resets = s.resets := rfl

/-! ## `recordFrame` (R181) -/

@[simp] theorem recordFrame_phase (len : Nat) (s : State) : (recordFrame len s).phase = s.phase := rfl
@[simp] theorem recordFrame_err (len : Nat) (s : State) : (recordFrame len s).err = s.err := rfl
@[simp] theorem recordFrame_n (len : Nat) (s : State) : (recordFrame len s).n = s.n := rfl
@[simp] theorem recordFrame_w (len : Nat) (s : State) : (recordFrame len s).w = s.w := rfl
@[simp] theorem recordFrame_h (len : Nat) (s : State) : (recordFrame len s).h = s.h := rfl
@[simp] theorem recordFrame_fps (len : Nat) (s : State) : (recordFrame len s).fps = s.fps := rfl
@[simp] theorem recordFrame_idx (len : Nat) (s : State) : (recordFrame len s).idx = s.idx := rfl
@[simp] theorem recordFrame_pos (len : Nat) (s : State) :
    (recordFrame len s).pos = BitVec.ofNat 32 (s.pos.toNat + len) := rfl
@[simp] theorem recordFrame_k (len : Nat) (s : State) : (recordFrame len s).k = s.k + 1 := rfl
@[simp] theorem recordFrame_off (len : Nat) (s : State) :
    (recordFrame len s).off = cellSet s.off s.k.toNat s.pos := rfl
@[simp] theorem recordFrame_size (len : Nat) (s : State) :
    (recordFrame len s).size = cellSet s.size s.k.toNat (BitVec.ofNat 32 len) := rfl
@[simp] theorem recordFrame_port (len : Nat) (s : State) : (recordFrame len s).port = s.port := rfl
@[simp] theorem recordFrame_sink (len : Nat) (s : State) : (recordFrame len s).sink = s.sink := rfl
@[simp] theorem recordFrame_cfg (len : Nat) (s : State) : (recordFrame len s).cfg = s.cfg := rfl
@[simp] theorem recordFrame_out (len : Nat) (s : State) : (recordFrame len s).out = s.out := rfl
@[simp] theorem recordFrame_input (len : Nat) (s : State) : (recordFrame len s).input = s.input := rfl
@[simp] theorem recordFrame_reads (len : Nat) (s : State) : (recordFrame len s).reads = s.reads := rfl
@[simp] theorem recordFrame_segs (len : Nat) (s : State) : (recordFrame len s).segs = s.segs := rfl
@[simp] theorem recordFrame_frame (len : Nat) (s : State) : (recordFrame len s).frame = s.frame := rfl
@[simp] theorem recordFrame_answers (len : Nat) (s : State) : (recordFrame len s).answers = s.answers := rfl
@[simp] theorem recordFrame_issued (len : Nat) (s : State) : (recordFrame len s).issued = s.issued := rfl
@[simp] theorem recordFrame_finished (len : Nat) (s : State) : (recordFrame len s).finished = s.finished := rfl
@[simp] theorem recordFrame_resets (len : Nat) (s : State) : (recordFrame len s).resets = s.resets := rfl

/-! ## `takeSegment` (R151, R152) -/

@[simp] theorem takeSegment_phase (i : Instr) (s : State) : (takeSegment i s).phase = s.phase := rfl
@[simp] theorem takeSegment_err (i : Instr) (s : State) : (takeSegment i s).err = s.err := rfl
@[simp] theorem takeSegment_n (i : Instr) (s : State) : (takeSegment i s).n = s.n := rfl
@[simp] theorem takeSegment_w (i : Instr) (s : State) : (takeSegment i s).w = s.w := rfl
@[simp] theorem takeSegment_h (i : Instr) (s : State) : (takeSegment i s).h = s.h := rfl
@[simp] theorem takeSegment_fps (i : Instr) (s : State) : (takeSegment i s).fps = s.fps := rfl
@[simp] theorem takeSegment_idx (i : Instr) (s : State) : (takeSegment i s).idx = s.idx := rfl
@[simp] theorem takeSegment_pos (i : Instr) (s : State) : (takeSegment i s).pos = s.pos := rfl
@[simp] theorem takeSegment_k (i : Instr) (s : State) : (takeSegment i s).k = s.k := rfl
@[simp] theorem takeSegment_off (i : Instr) (s : State) : (takeSegment i s).off = s.off := rfl
@[simp] theorem takeSegment_size (i : Instr) (s : State) : (takeSegment i s).size = s.size := rfl
@[simp] theorem takeSegment_port (i : Instr) (s : State) : (takeSegment i s).port = s.port := rfl
@[simp] theorem takeSegment_sink (i : Instr) (s : State) : (takeSegment i s).sink = s.sink := rfl
@[simp] theorem takeSegment_cfg (i : Instr) (s : State) : (takeSegment i s).cfg = s.cfg := rfl
@[simp] theorem takeSegment_out (i : Instr) (s : State) : (takeSegment i s).out = s.out := rfl
@[simp] theorem takeSegment_input (i : Instr) (s : State) : (takeSegment i s).input = s.input := rfl
@[simp] theorem takeSegment_reads (i : Instr) (s : State) : (takeSegment i s).reads = s.reads := rfl
@[simp] theorem takeSegment_segs (i : Instr) (s : State) : (takeSegment i s).segs = s.segs := rfl
@[simp] theorem takeSegment_frame (i : Instr) (s : State) :
    (takeSegment i s).frame = s.frame ++ segmentValues i := rfl
@[simp] theorem takeSegment_answers (i : Instr) (s : State) : (takeSegment i s).answers = s.answers := rfl
@[simp] theorem takeSegment_issued (i : Instr) (s : State) : (takeSegment i s).issued = s.issued := rfl
@[simp] theorem takeSegment_finished (i : Instr) (s : State) : (takeSegment i s).finished = s.finished := rfl
@[simp] theorem takeSegment_resets (i : Instr) (s : State) : (takeSegment i s).resets = s.resets := rfl

end Sys2Proof.Machine
end

