-- ==== Sys2Proof/Laws/Ops.lean ====
section
/-! SUPPORT. What each shared operation can do, said once: a transaction, the conditional transaction, the patches
of `CW_FINALIZE`, the continuation after a transaction, and the cases of the three container operations. -/

namespace Sys2Proof.Machine

/-! ## Answers -/

@[simp] theorem answerAt_issue (a : Nat) (bs : List Byte) (s : State) (j : Nat) :
    answerAt (issue a bs s) j = answerAt s (j + 1) := by
  simp only [answerAt, issue, List.getElem?_tail, List.length_append, List.length_cons, List.length_nil]
  rw [show s.issued.length + (0 + 1) + j = s.issued.length + (j + 1) by omega]

/-- The answer depends on the two fields that carry it. -/
theorem answerAt_congr {s t : State} (ha : t.answers = s.answers) (hd : t.issued = s.issued) (j : Nat) :
    answerAt t j = answerAt s j := by
  simp [answerAt, ha, hd]

theorem sinkAnswersOk_head {s : State} {m : Nat} (h : SinkAnswersOk s (m + 1)) : answerAt s 0 = .ok := h 0 (by omega)

theorem sinkAnswersOk_tail (a : Nat) (bs : List Byte) {s : State} {m : Nat} (h : SinkAnswersOk s (m + 1)) : SinkAnswersOk (issue a bs s) m := by
  intro j hj
  rw [answerAt_issue]
  exact h (j + 1) (by omega)

theorem sinkAnswersOk_mono {s : State} {m p : Nat} (h : SinkAnswersOk s m) (hp : p ≤ m) : SinkAnswersOk s p :=
  fun j hj => h j (by omega)

/-- Where `m` answers have been drawn, the next ones are those `m` later. -/
theorem answerAt_shift {s t : State} {m : Nat} (ha : t.answers = s.answers.drop m)
    (hd : t.issued.length = s.issued.length + m) (j : Nat) : answerAt t j = answerAt s (m + j) := by
  rw [answerAt, answerAt, ha, hd, List.getElem?_drop, Nat.add_assoc]

/-! ## How many transactions an operation issues -/

@[simp] theorem beginWrites_length (m : Magic) (n : Word) (w h : Half) (fps : Byte) :
    (beginWrites m n w h fps).length = if n = 0 then 1 else 2 := by
  unfold beginWrites
  split_ifs <;> rfl

@[simp] theorem finalizeWrites_length (s : State) :
    (finalizeWrites s).length = (if s.k.toNat < s.n.toNat then 2 else 1) + s.k.toNat := by
  unfold finalizeWrites
  split_ifs <;> simp <;> omega

/-! ## What a transaction leaves alone -/

/-- `t` differs from `s` at most in the sink, the transactions issued and the answers drawn. -/
structure SinkSide (s t : State) : Prop where
  eq : t = { s with sink := t.sink, answers := t.answers, issued := t.issued }

theorem SinkSide.refl (s : State) : SinkSide s s := ⟨rfl⟩

theorem SinkSide.trans {s t u : State} (h1 : SinkSide s t) (h2 : SinkSide t u) : SinkSide s u := by
  constructor
  rw [h2.eq, h1.eq]

/-! Each field that a transaction cannot change. -/

theorem SinkSide.phase {s t : State} (h : SinkSide s t) : t.phase = s.phase :=
  (congrArg State.phase h.eq :)
theorem SinkSide.err {s t : State} (h : SinkSide s t) : t.err = s.err :=
  (congrArg State.err h.eq :)
theorem SinkSide.n {s t : State} (h : SinkSide s t) : t.n = s.n :=
  (congrArg State.n h.eq :)
theorem SinkSide.w {s t : State} (h : SinkSide s t) : t.w = s.w :=
  (congrArg State.w h.eq :)
theorem SinkSide.h {s t : State} (h : SinkSide s t) : t.h = s.h :=
  (congrArg State.h h.eq :)
theorem SinkSide.fps {s t : State} (h : SinkSide s t) : t.fps = s.fps :=
  (congrArg State.fps h.eq :)
theorem SinkSide.idx {s t : State} (h : SinkSide s t) : t.idx = s.idx :=
  (congrArg State.idx h.eq :)
theorem SinkSide.pos {s t : State} (h : SinkSide s t) : t.pos = s.pos :=
  (congrArg State.pos h.eq :)
theorem SinkSide.k {s t : State} (h : SinkSide s t) : t.k = s.k :=
  (congrArg State.k h.eq :)
theorem SinkSide.off {s t : State} (h : SinkSide s t) : t.off = s.off :=
  (congrArg State.off h.eq :)
theorem SinkSide.size {s t : State} (h : SinkSide s t) : t.size = s.size :=
  (congrArg State.size h.eq :)
theorem SinkSide.port {s t : State} (h : SinkSide s t) : t.port = s.port :=
  (congrArg State.port h.eq :)
theorem SinkSide.cfg {s t : State} (h : SinkSide s t) : t.cfg = s.cfg :=
  (congrArg State.cfg h.eq :)
theorem SinkSide.out {s t : State} (h : SinkSide s t) : t.out = s.out :=
  (congrArg State.out h.eq :)
theorem SinkSide.input {s t : State} (h : SinkSide s t) : t.input = s.input :=
  (congrArg State.input h.eq :)
theorem SinkSide.reads {s t : State} (h : SinkSide s t) : t.reads = s.reads :=
  (congrArg State.reads h.eq :)
theorem SinkSide.segs {s t : State} (h : SinkSide s t) : t.segs = s.segs :=
  (congrArg State.segs h.eq :)
theorem SinkSide.frame {s t : State} (h : SinkSide s t) : t.frame = s.frame :=
  (congrArg State.frame h.eq :)
theorem SinkSide.finished {s t : State} (h : SinkSide s t) : t.finished = s.finished :=
  (congrArg State.finished h.eq :)
theorem SinkSide.resets {s t : State} (h : SinkSide s t) : t.resets = s.resets :=
  (congrArg State.resets h.eq :)

theorem sinkWrite_ok {s : State} (addr : Nat) (bs : List Byte) (h : answerAt s 0 = .ok) :
    sinkWrite addr bs s = (.ok, { issue addr bs s with sink := writeBytes addr bs s.sink }) := by
  simp [sinkWrite, h]

theorem sinkWrite_fail {s : State} (addr : Nat) (bs : List Byte) (h : answerAt s 0 = .fail) :
    sinkWrite addr bs s =
      (.fail, { issue addr bs s with sink := scrambleBytes s.issued.length addr bs.length s.sink }) := by
  simp [sinkWrite, h]

/-- The two outcomes of a transaction (R54). -/
theorem sinkWrite_cases (addr : Nat) (bs : List Byte) (s : State) :
    (answerAt s 0 = .ok ∧
      sinkWrite addr bs s = (.ok, { issue addr bs s with sink := writeBytes addr bs s.sink })) ∨
    (answerAt s 0 = .fail ∧ sinkWrite addr bs s =
      (.fail, { issue addr bs s with sink := scrambleBytes s.issued.length addr bs.length s.sink })) := by
  cases h : answerAt s 0 with
  | ok => exact .inl ⟨rfl, sinkWrite_ok addr bs h⟩
  | fail => exact .inr ⟨rfl, sinkWrite_fail addr bs h⟩

theorem sinkWrite_side (addr : Nat) (bs : List Byte) (s : State) : SinkSide s (sinkWrite addr bs s).2 := by
  rcases sinkWrite_cases addr bs s with ⟨-, h⟩ | ⟨-, h⟩ <;> rw [h] <;> exact ⟨rfl⟩

/-- A transaction changes no address outside its own, whatever its answer (R54). -/
theorem sinkWrite_outside {addr : Nat} {bs : List Byte} (s : State) {x : Nat}
    (hx : x < addr ∨ addr + bs.length ≤ x) : cellGet (sinkWrite addr bs s).2.sink x = cellGet s.sink x := by
  rcases sinkWrite_cases addr bs s with ⟨-, h⟩ | ⟨-, h⟩ <;> rw [h]
  · exact cellGet_writeBytes_outside _ hx
  · exact cellGet_scrambleBytes_outside _ hx

theorem sinkWrite_wf (addr : Nat) (bs : List Byte) {s : State} (hs : Memory.wf s.sink) :
    Memory.wf (sinkWrite addr bs s).2.sink := by
  rcases sinkWrite_cases addr bs s with ⟨-, h⟩ | ⟨-, h⟩ <;> rw [h]
  · exact writeBytes_wf _ _ hs
  · exact scrambleBytes_wf _ _ _ hs

/-- A transaction lists no address outside its own that was not listed before. -/
theorem sinkWrite_mem {addr : Nat} {bs : List Byte} {s : State} {c : Host.Cell}
    (hc : c ∈ (sinkWrite addr bs s).2.sink) : (addr ≤ c.1 ∧ c.1 < addr + bs.length) ∨ c ∈ s.sink := by
  rcases sinkWrite_cases addr bs s with ⟨-, h⟩ | ⟨-, h⟩ <;> rw [h] at hc
  · exact mem_writeBytes hc
  · exact mem_scrambleBytes hc

/-! ## The conditional transaction -/

@[simp] theorem sinkPlace_nil (addr : Nat) (s : State) : sinkPlace addr [] s = (.ok, s) := rfl

theorem sinkPlace_ne_nil {bs : List Byte} (addr : Nat) (s : State) (h : bs ≠ []) :
    sinkPlace addr bs s = sinkWrite addr bs s := by
  cases bs with
  | nil => exact absurd rfl h
  | cons b bs => rfl

theorem sinkPlace_side (addr : Nat) (bs : List Byte) (s : State) : SinkSide s (sinkPlace addr bs s).2 := by
  cases bs with
  | nil => exact SinkSide.refl s
  | cons b bs => exact sinkWrite_side addr (b :: bs) s

theorem sinkPlace_outside {addr : Nat} {bs : List Byte} (s : State) {x : Nat}
    (hx : x < addr ∨ addr + bs.length ≤ x) : cellGet (sinkPlace addr bs s).2.sink x = cellGet s.sink x := by
  cases bs with
  | nil => rfl
  | cons b bs => exact sinkWrite_outside s hx

theorem sinkPlace_wf (addr : Nat) (bs : List Byte) {s : State} (hs : Memory.wf s.sink) :
    Memory.wf (sinkPlace addr bs s).2.sink := by
  cases bs with
  | nil => exact hs
  | cons b bs => exact sinkWrite_wf addr (b :: bs) hs

theorem sinkPlace_mem {addr : Nat} {bs : List Byte} {s : State} {c : Host.Cell}
    (hc : c ∈ (sinkPlace addr bs s).2.sink) : (addr ≤ c.1 ∧ c.1 < addr + bs.length) ∨ c ∈ s.sink := by
  cases bs with
  | nil => exact .inr hc
  | cons b bs => exact sinkWrite_mem hc

theorem sinkPlace_ok_sink {addr : Nat} {bs : List Byte} {s : State} (h : (sinkPlace addr bs s).1 = .ok) :
    (sinkPlace addr bs s).2.sink = writeBytes addr bs s.sink := by
  cases bs with
  | nil => rfl
  | cons b bs =>
    rcases sinkWrite_cases addr (b :: bs) s with ⟨-, e⟩ | ⟨-, e⟩
    · exact congrArg (fun r : Answer × State => r.2.sink) e
    · have h' : (sinkWrite addr (b :: bs) s).1 = .ok := h
      rw [e] at h'
      cases h'

/-! ## The continuation after a transaction -/

theorem onOk_of_ok {r : Answer × State} (go : State → State) (h : r.1 = .ok) : onOk r go = go r.2 := by
  simp [onOk, h]

theorem onOk_of_fail {r : Answer × State} (go : State → State) (h : r.1 = .fail) :
    onOk r go = failWith .ioError r.2 := by
  simp [onOk, h]

/-- Either the operation goes on, or it takes the sticky exit in the state the transaction left. -/
theorem onOk_cases (r : Answer × State) (go : State → State) :
    (r.1 = .ok ∧ onOk r go = go r.2) ∨ (r.1 = .fail ∧ onOk r go = failWith .ioError r.2) := by
  cases h : r.1 with
  | ok => exact .inl ⟨rfl, onOk_of_ok go h⟩
  | fail => exact .inr ⟨rfl, onOk_of_fail go h⟩

/-! ## The patches of CW_FINALIZE -/

theorem patchCount_side (s : State) : SinkSide s (patchCount s).2 := by
  unfold patchCount
  split_ifs
  · exact sinkWrite_side 4 (le32 s.k) s
  · exact SinkSide.refl s

theorem patchEntries_side (m i : Nat) (s : State) : SinkSide s (patchEntries m i s).2 := by
  induction m generalizing i s with
  | zero => exact SinkSide.refl s
  | succ m ih =>
    have h := sinkWrite_side (s.idx.toNat + Config.entrySize * i) (tableEntry s i) s
    rw [patchEntries]
    split
    · rename_i s1 h1
      rw [h1] at h
      exact h
    · rename_i s1 h1
      rw [h1] at h
      exact h.trans (ih _ _)

/-- A transaction does not change what the tables hold. -/
theorem SinkSide.tableEntry {s t : State} (h : SinkSide s t) (i : Nat) :
    Machine.tableEntry t i = Machine.tableEntry s i := by
  rw [h.eq]
  rfl

@[simp] theorem tableEntry_length (s : State) (i : Nat) : (tableEntry s i).length = 8 := rfl

/-- The transaction that patches entry `i` (R91, R182). -/
def entryPatch (s : State) (i : Nat) : Transaction := ⟨s.idx.toNat + Config.entrySize * i, tableEntry s i⟩

/-- Patches that are all answered ok: every entry stored, one transaction each. -/
theorem patchEntries_ok (m i : Nat) {s : State} (hok : SinkAnswersOk s m) :
    patchEntries m i s = (.ok, { s with
      sink := writeBytes (s.idx.toNat + 8 * i) ((List.range' i m).flatMap fun j => tableEntry s j) s.sink
      answers := s.answers.drop m, issued := s.issued ++ (List.range' i m).map (entryPatch s) }) := by
  induction m generalizing i s with
  | zero => simp [patchEntries, writeBytes]
  | succ m ih =>
    rw [patchEntries, sinkWrite_ok _ _ (sinkAnswersOk_head hok)]
    simp only
    rw [ih]
    · simp only [issue, List.range'_succ, List.flatMap_cons, writeBytes_append, tableEntry_length,
        Config.entrySize, List.drop_tail, List.map_cons, List.append_assoc, List.cons_append, List.nil_append]
      rw [show s.idx.toNat + 8 * (i + 1) = s.idx.toNat + 8 * i + 8 by omega]
      rfl
    · intro j hj
      exact (answerAt_issue _ _ s j).trans (hok (j + 1) (by omega))

/-- The patches stop at the first that draws `fail`. -/
theorem patchEntries_fail {m i p : Nat} {s : State} (hp : p < m) (hok : SinkAnswersOk s p)
    (hf : answerAt s p = .fail) :
    patchEntries m i s = (.fail, { s with
      sink := scrambleBytes (s.issued.length + p) (s.idx.toNat + 8 * (i + p)) 8
        (writeBytes (s.idx.toNat + 8 * i) ((List.range' i p).flatMap fun j => tableEntry s j) s.sink)
      answers := s.answers.drop (p + 1)
      issued := s.issued ++ (List.range' i (p + 1)).map (entryPatch s) }) := by
  induction m generalizing i s p with
  | zero => omega
  | succ m ih =>
    cases p with
    | zero =>
      rw [patchEntries, sinkWrite_fail _ _ hf]
      simp [issue, writeBytes, Config.entrySize, entryPatch]
    | succ p =>
      rw [patchEntries, sinkWrite_ok _ _ (sinkAnswersOk_head hok)]
      simp only
      rw [ih (p := p) (by omega)]
      · simp only [issue, List.range'_succ, List.flatMap_cons, writeBytes_append, tableEntry_length,
          Config.entrySize, List.drop_tail, List.map_cons, List.append_assoc, List.cons_append, List.nil_append,
          List.length_append, List.length_cons, List.length_nil]
        rw [show s.idx.toNat + 8 * (i + 1) = s.idx.toNat + 8 * i + 8 by omega,
          show s.issued.length + (0 + 1) + p = s.issued.length + (p + 1) by omega,
          show i + 1 + p = i + (p + 1) by omega]
        rfl
      · intro j hj
        exact (answerAt_issue _ _ s j).trans (hok (j + 1) (by omega))
      · exact (answerAt_issue _ _ s p).trans hf

/-- Patches change no address outside the entries they are about. -/
theorem patchEntries_outside (m i : Nat) (s : State) {x : Nat}
    (hx : x < s.idx.toNat + 8 * i ∨ s.idx.toNat + 8 * (i + m) ≤ x) :
    cellGet (patchEntries m i s).2.sink x = cellGet s.sink x := by
  induction m generalizing i s with
  | zero => rfl
  | succ m ih =>
    have hw := sinkWrite_outside (addr := s.idx.toNat + Config.entrySize * i) (bs := tableEntry s i) s (x := x)
      (by simp only [tableEntry_length, Config.entrySize]; omega)
    have hs := sinkWrite_side (s.idx.toNat + Config.entrySize * i) (tableEntry s i) s
    rw [patchEntries]
    split
    · rename_i s1 h1
      rw [h1] at hw
      exact hw
    · rename_i s1 h1
      rw [h1] at hw hs
      have hi : s1.idx = s.idx := hs.idx
      rw [ih (i + 1) s1 (by rw [hi]; omega), hw]

theorem patchCount_outside (s : State) {x : Nat} (hx : ¬ s.k.toNat < s.n.toNat ∨ x < 4 ∨ 8 ≤ x) :
    cellGet (patchCount s).2.sink x = cellGet s.sink x := by
  unfold patchCount
  split_ifs with h
  · exact sinkWrite_outside s (by simp only [le32, List.length_cons, List.length_nil]; omega)
  · rfl

theorem patchCount_wf {s : State} (hs : Memory.wf s.sink) : Memory.wf (patchCount s).2.sink := by
  unfold patchCount
  split_ifs
  · exact sinkWrite_wf _ _ hs
  · exact hs

theorem patchEntries_wf (m i : Nat) {s : State} (hs : Memory.wf s.sink) :
    Memory.wf (patchEntries m i s).2.sink := by
  induction m generalizing i s with
  | zero => exact hs
  | succ m ih =>
    have h := sinkWrite_wf (s.idx.toNat + Config.entrySize * i) (tableEntry s i) hs
    rw [patchEntries]
    split
    · rename_i s1 h1
      rw [h1] at h
      exact h
    · rename_i s1 h1
      rw [h1] at h
      exact ih _ h

theorem patchCount_mem {s : State} {c : Host.Cell} (hc : c ∈ (patchCount s).2.sink) :
    (4 ≤ c.1 ∧ c.1 < 8) ∨ c ∈ s.sink := by
  unfold patchCount at hc
  split_ifs at hc
  · exact sinkWrite_mem hc
  · exact .inr hc

theorem patchEntries_mem {m i : Nat} {s : State} {c : Host.Cell} (hc : c ∈ (patchEntries m i s).2.sink) :
    (s.idx.toNat + 8 * i ≤ c.1 ∧ c.1 < s.idx.toNat + 8 * (i + m)) ∨ c ∈ s.sink := by
  induction m generalizing i s with
  | zero => exact .inr hc
  | succ m ih =>
    have hs := sinkWrite_side (s.idx.toNat + Config.entrySize * i) (tableEntry s i) s
    have hw : ∀ c, c ∈ (sinkWrite (s.idx.toNat + Config.entrySize * i) (tableEntry s i) s).2.sink →
        (s.idx.toNat + 8 * i ≤ c.1 ∧ c.1 < s.idx.toNat + 8 * (i + (m + 1))) ∨ c ∈ s.sink := by
      intro c hc
      rcases sinkWrite_mem hc with h | h
      · left
        simp only [tableEntry_length, Config.entrySize] at h
        omega
      · exact .inr h
    rw [patchEntries] at hc
    split at hc
    · rename_i s1 h1
      rw [h1] at hw
      exact hw c hc
    · rename_i s1 h1
      rw [h1] at hw hs
      have hi : s1.idx = s.idx := hs.idx
      rcases ih hc with h | h
      · left
        rw [hi] at h
        omega
      · exact hw c h

/-! ## The cases of the container operations -/

/-- Everything `CW_BEGIN` can do (block `B-BEGIN`). -/
theorem runBegin_cases (n : Word) (w h : Half) (fps : Byte) (s : State) :
    (s.phase ≠ .idle ∧ runBegin n w h fps s = reject .badSequence s) ∨
    (s.phase = .idle ∧
      ((∃ e, (e = .ioError ∨ e = .capacity) ∧ runBegin n w h fps s = failWith e (setMeta n w h fps s)) ∨
       (s.cfg.seekable = true ∧ n.toNat ≤ s.cfg.maxFrames.toNat ∧ blobBase n ≤ s.cfg.cap.toNat ∧
        runBegin n w h fps s = writeHead (setMeta n w h fps s)))) := by
  by_cases hp : s.phase = .idle
  · refine .inr ⟨hp, ?_⟩
    rw [runBegin, if_neg (by simp [hp])]
    by_cases h1 : s.cfg.seekable = false
    · exact .inl ⟨.ioError, .inl rfl, if_pos h1⟩
    · by_cases h2 : s.cfg.maxFrames.toNat < n.toNat
      · exact .inl ⟨.capacity, .inr rfl, (if_neg h1).trans (if_pos h2)⟩
      · by_cases h3 : s.cfg.cap.toNat < blobBase n
        · exact .inl ⟨.ioError, .inl rfl, (if_neg h1).trans ((if_neg h2).trans (if_pos h3))⟩
        · exact .inr ⟨by simpa using h1, by omega, by omega, (if_neg h1).trans ((if_neg h2).trans (if_neg h3))⟩
  · exact .inl ⟨hp, by rw [runBegin, if_pos hp]⟩

/-- Everything the writes of `CW_BEGIN` can do: the header write fails, the placeholder write fails, or the
conversion is open. -/
theorem writeHead_cases (s : State) :
    let header := headerImage s.cfg.magic s.n s.w s.h s.fps 0
    let holes := zeros (Config.entrySize * s.n.toNat)
    let s1 := (sinkWrite 0 header s).2
    let r2 := sinkPlace Config.headerSize holes (recordIndex s1)
    writeHead s = failWith .ioError s1 ∨ writeHead s = failWith .ioError r2.2 ∨
      writeHead s = respondOk [] (openConversion r2.2) := by
  intro header holes s1 r2
  unfold writeHead
  rcases onOk_cases (sinkWrite 0 header s) fun s1 =>
      onOk (sinkPlace Config.headerSize holes (recordIndex s1)) fun s2 => respondOk [] (openConversion s2)
    with ⟨-, h⟩ | ⟨-, h⟩
  · rw [h]
    rcases onOk_cases r2 fun s2 => respondOk [] (openConversion s2) with ⟨-, h2⟩ | ⟨-, h2⟩
    · exact .inr (.inr h2)
    · exact .inr (.inl h2)
  · exact .inl h

/-- Everything `CW_FRAME` can do (block `B-FRAME`). -/
theorem runFrame_cases (px : List Pixel) (s : State) :
    let blob := rleEncode (quantizeFrame px)
    let r := sinkPlace s.pos.toNat blob s
    (s.phase ≠ .opened ∧ runFrame px s = reject .badSequence s) ∨
    (s.phase = .opened ∧
      ((∃ e, (e = .tooManyFrames ∨ e = .frameSizeMismatch ∨ e = .ioError) ∧ runFrame px s = failWith e s) ∨
       (s.k ≠ s.n ∧ px.length = pixelCount s ∧ s.pos.toNat + blob.length ≤ s.cfg.cap.toNat ∧
        ((r.1 = .fail ∧ runFrame px s = failWith .ioError r.2) ∨
         (r.1 = .ok ∧ runFrame px s = respondOk [] (recordFrame blob.length r.2)))))) := by
  intro blob r
  unfold runFrame placeBlob
  by_cases hp : s.phase = .opened
  · refine .inr ⟨hp, ?_⟩
    rw [if_neg (by simp [hp])]
    split_ifs with h1 h2 h3
    · exact .inl ⟨_, .inl rfl, rfl⟩
    · exact .inl ⟨_, .inr (.inl rfl), rfl⟩
    · exact .inl ⟨_, .inr (.inr rfl), rfl⟩
    · refine .inr ⟨h1, not_not.1 h2, Nat.not_lt.1 h3, ?_⟩
      rcases onOk_cases r fun s1 => respondOk [] (recordFrame blob.length s1) with h | h
      · exact .inr h
      · exact .inl h
  · exact .inl ⟨hp, by rw [if_pos hp]⟩

/-- Everything the patches of `CW_FINALIZE` can do: one of them fails, or the container is done. -/
theorem patchContainer_cases (s : State) :
    let s1 := (sinkWrite 16 (le32 s.idx) s).2
    let s2 := (patchCount s1).2
    let s3 := (patchEntries s2.k.toNat 0 s2).2
    patchContainer s = failWith .ioError s1 ∨ patchContainer s = failWith .ioError s2 ∨
      patchContainer s = failWith .ioError s3 ∨ patchContainer s = respondOk [] { s3 with phase := .done, finished := true } := by
  intro s1 s2 s3
  unfold patchContainer
  rcases onOk_cases (sinkWrite 16 (le32 s.idx) s) fun s1 => onOk (patchCount s1) fun s2 =>
      onOk (patchEntries s2.k.toNat 0 s2) fun s3 => respondOk [] { s3 with phase := .done, finished := true }
    with ⟨-, h⟩ | ⟨-, h⟩
  · rw [h]
    rcases onOk_cases (patchCount s1) fun s2 =>
        onOk (patchEntries s2.k.toNat 0 s2) fun s3 => respondOk [] { s3 with phase := .done, finished := true } with ⟨-, h2⟩ | ⟨-, h2⟩
    · refine .inr (.inr ?_)
      rw [h2]
      rcases onOk_cases (patchEntries s2.k.toNat 0 s2) fun s3 => respondOk [] { s3 with phase := .done, finished := true }
        with ⟨-, h3⟩ | ⟨-, h3⟩
      · exact .inr h3
      · exact .inl h3
    · exact .inr (.inl h2)
  · exact .inl h

/-- Everything `CW_FINALIZE` can do (block `B-FIN`). -/
theorem runFinalize_cases (s : State) :
    (s.phase ≠ .opened ∧ runFinalize s = reject .badSequence s) ∨
    (s.phase = .opened ∧
      ((s.k.toNat < s.n.toNat ∧ s.cfg.shortPolicy = .fail ∧ runFinalize s = failWith .frameCountMismatch s) ∨
       (¬(s.k.toNat < s.n.toNat ∧ s.cfg.shortPolicy = .fail) ∧ runFinalize s = patchContainer s))) := by
  unfold runFinalize
  by_cases hp : s.phase = .opened
  · refine .inr ⟨hp, ?_⟩
    rw [if_neg (by simp [hp])]
    split_ifs with h1
    · exact .inl ⟨h1.1, h1.2, rfl⟩
    · exact .inr ⟨h1, rfl⟩
  · exact .inl ⟨hp, by rw [if_pos hp]⟩

/-! ## What the container operations leave alone

The same cases with the intermediate states named, and with everything that holds of them whatever the sink
answered. -/

/-- What holds of a state `u` inside `CW_BEGIN n w h fps` from `s`: only the metadata, `IDX` and `POS`, the sink below
`20 + 8*n` and the answers drawn differ, and a write happened only if the index fits `CAP`. -/
structure HeadSide (n : Word) (w h : Half) (fps : Byte) (s u : State) : Prop where
  eq : u = { s with
    n := n, w := w, h := h, fps := fps, idx := u.idx, pos := u.pos, sink := u.sink, answers := u.answers
    issued := u.issued, finished := false }
  pos : (u.idx = s.idx ∧ u.pos = s.pos) ∨ (u.idx = 20 ∧ u.pos = 20 ∧ blobBase n ≤ s.cfg.cap.toNat)
  outside : ∀ x, blobBase n ≤ x → cellGet u.sink x = cellGet s.sink x
  wf : Memory.wf s.sink → Memory.wf u.sink
  mem : ∀ c, c ∈ u.sink → (c.1 < blobBase n ∧ blobBase n ≤ s.cfg.cap.toNat) ∨ c ∈ s.sink

theorem headSide_setMeta (n : Word) (w h : Half) (fps : Byte) (s : State) :
    HeadSide n w h fps s (setMeta n w h fps s) :=
  ⟨rfl, .inl ⟨rfl, rfl⟩, fun _ _ => rfl, id, fun _ hc => .inr hc⟩

theorem HeadSide.write {n : Word} {w h : Half} {fps : Byte} {s u : State} (hu : HeadSide n w h fps s u)
    (hcap : blobBase n ≤ s.cfg.cap.toNat) {addr : Nat} {bs : List Byte} (ha : addr + bs.length ≤ blobBase n) :
    HeadSide n w h fps s (sinkPlace addr bs u).2 := by
  have k := sinkPlace_side addr bs u
  refine ⟨?_, ?_, fun x hx => (sinkPlace_outside u (by omega)).trans (hu.outside x hx),
    fun hw => sinkPlace_wf _ _ (hu.wf hw), fun c hc => ?_⟩
  · rw [k.eq, hu.eq]
  · rw [k.idx, k.pos]
    exact hu.pos
  · rcases sinkPlace_mem hc with h | h
    · exact .inl ⟨by omega, hcap⟩
    · exact hu.mem c h

theorem HeadSide.record {n : Word} {w h : Half} {fps : Byte} {s u : State} (hu : HeadSide n w h fps s u)
    (hcap : blobBase n ≤ s.cfg.cap.toNat) : HeadSide n w h fps s (recordIndex u) := by
  refine ⟨?_, .inr ⟨rfl, rfl, hcap⟩, hu.outside, hu.wf, hu.mem⟩
  unfold recordIndex
  rw [hu.eq]

@[simp] theorem headerImage_length (m : Magic) (n : Word) (w h : Half) (fps : Byte) (io : Word) :
    (headerImage m n w h fps io).length = 20 := rfl

@[simp] theorem zeros_length (n : Nat) : (zeros n).length = n := List.length_replicate

/-- Everything `CW_BEGIN` can do, the states between named. -/
theorem runBegin_sum (n : Word) (w h : Half) (fps : Byte) (s : State) :
    (s.phase ≠ .idle ∧ runBegin n w h fps s = reject .badSequence s) ∨
    (s.phase = .idle ∧ ∃ u, HeadSide n w h fps s u ∧
      ((∃ e, (e = .ioError ∨ e = .capacity) ∧ runBegin n w h fps s = failWith e u) ∨
       (n.toNat ≤ s.cfg.maxFrames.toNat ∧ blobBase n ≤ s.cfg.cap.toNat ∧ u.idx = 20 ∧
        runBegin n w h fps s = respondOk [] (openConversion u)))) := by
  rcases runBegin_cases n w h fps s with h0 | ⟨hp, ⟨e, he, h1⟩ | ⟨-, hn, hc, h1⟩⟩
  · exact .inl h0
  · exact .inr ⟨hp, _, headSide_setMeta n w h fps s, .inl ⟨e, he, h1⟩⟩
  · refine .inr ⟨hp, ?_⟩
    have k0 := headSide_setMeta n w h fps s
    have k1 : HeadSide n w h fps s (sinkWrite 0 (headerImage s.cfg.magic n w h fps 0) (setMeta n w h fps s)).2 := by
      rw [← sinkPlace_ne_nil 0 (setMeta n w h fps s) (bs := headerImage s.cfg.magic n w h fps 0) (by simp [headerImage])]
      exact k0.write hc (by simp [blobBase, Config.headerSize])
    have k2 := (k1.record hc).write hc (addr := Config.headerSize) (bs := zeros (Config.entrySize * n.toNat))
      (by rw [zeros_length, blobBase])
    have hi : (sinkPlace Config.headerSize (zeros (Config.entrySize * n.toNat))
        (recordIndex (sinkWrite 0 (headerImage s.cfg.magic n w h fps 0) (setMeta n w h fps s)).2)).2.idx = 20 :=
      (sinkPlace_side _ _ _).idx
    rcases writeHead_cases (setMeta n w h fps s) with h' | h' | h'
    · exact ⟨_, k1, .inl ⟨_, .inl rfl, h1.trans h'⟩⟩
    · exact ⟨_, k2, .inl ⟨_, .inl rfl, h1.trans h'⟩⟩
    · exact ⟨_, k2, .inr ⟨hn, hc, hi, h1.trans h'⟩⟩

/-- What holds of a state `u` inside `CW_FINALIZE` from `s`: only the sink differs, at the three places patched, and
the answers drawn. -/
structure PatchSide (s u : State) : Prop where
  side : SinkSide s u
  outside : ∀ x, (x < 16 ∨ 20 ≤ x) → (s.n.toNat ≤ s.k.toNat ∨ x < 4 ∨ 8 ≤ x) →
    (x < s.idx.toNat ∨ s.idx.toNat + 8 * s.k.toNat ≤ x) → cellGet u.sink x = cellGet s.sink x
  wf : Memory.wf s.sink → Memory.wf u.sink
  mem : ∀ c, c ∈ u.sink → c.1 < 20 ∨ (s.idx.toNat ≤ c.1 ∧ c.1 < s.idx.toNat + 8 * s.k.toNat) ∨ c ∈ s.sink

/-- Everything `CW_FINALIZE` can do, the states between named. -/
theorem runFinalize_sum (s : State) :
    (s.phase ≠ .opened ∧ runFinalize s = reject .badSequence s) ∨
    (s.phase = .opened ∧ ∃ u, PatchSide s u ∧
      ((∃ e, (e = .ioError ∨ e = .frameCountMismatch) ∧ runFinalize s = failWith e u) ∨
       runFinalize s = respondOk [] { u with phase := .done, finished := true })) := by
  rcases runFinalize_cases s with h0 | ⟨hp, ⟨-, -, h1⟩ | ⟨-, h1⟩⟩
  · exact .inl h0
  · exact .inr ⟨hp, s, ⟨SinkSide.refl s, fun _ _ _ _ => rfl, id, fun _ hc => .inr (.inr hc)⟩,
      .inl ⟨_, .inr rfl, h1⟩⟩
  · refine .inr ⟨hp, ?_⟩
    have p1 : PatchSide s (sinkWrite 16 (le32 s.idx) s).2 :=
      ⟨sinkWrite_side _ _ _, fun x hx _ _ => sinkWrite_outside s (by simpa [le32] using hx),
        fun hw => sinkWrite_wf _ _ hw, fun c hc => by
          rcases sinkWrite_mem hc with h | h
          · exact .inl (by simpa [le32] using h.2)
          · exact .inr (.inr h)⟩
    have p2 : PatchSide s (patchCount (sinkWrite 16 (le32 s.idx) s).2).2 := by
      refine ⟨p1.side.trans (patchCount_side _), fun x hx hx' hx'' => ?_, fun hw => patchCount_wf (p1.wf hw),
        fun c hc => ?_⟩
      · refine (patchCount_outside _ ?_).trans (p1.outside x hx hx' hx'')
        rw [p1.side.k, p1.side.n]
        omega
      · rcases patchCount_mem hc with h | h
        · exact .inl (by omega)
        · exact p1.mem c h
    have p3 : PatchSide s (patchEntries (patchCount (sinkWrite 16 (le32 s.idx) s).2).2.k.toNat 0
        (patchCount (sinkWrite 16 (le32 s.idx) s).2).2).2 := by
      refine ⟨p2.side.trans (patchEntries_side _ _ _), fun x hx hx' hx'' => ?_, fun hw => patchEntries_wf _ _ (p2.wf hw),
        fun c hc => ?_⟩
      · refine (patchEntries_outside _ _ _ ?_).trans (p2.outside x hx hx' hx'')
        rw [p2.side.k, p2.side.idx]
        omega
      · rcases patchEntries_mem hc with h | h
        · rw [p2.side.k, p2.side.idx] at h
          exact .inr (.inl (by omega))
        · exact p2.mem c h
    rcases patchContainer_cases s with h' | h' | h' | h'
    · exact ⟨_, p1, .inl ⟨_, .inl rfl, h1.trans h'⟩⟩
    · exact ⟨_, p2, .inl ⟨_, .inl rfl, h1.trans h'⟩⟩
    · exact ⟨_, p3, .inl ⟨_, .inl rfl, h1.trans h'⟩⟩
    · exact ⟨_, p3, .inr (h1.trans h')⟩

end Sys2Proof.Machine
end

