-- ==== Sys2Proof/Laws/PerInstr.lean ====
section
/-! SUPPORT. Facts about every instruction as syntax, one lemma per constructor. -/

namespace Sys2Proof.Laws.EncodeLength

/-- The encoding of an instruction has the length that the tables of R100 and R84 give it. -/
def Statement (i : Instr) : Prop := (encode i).length = i.byteLength

theorem quant (r g b : Byte) : Statement (.quant r g b) := rfl

theorem rleEnc (v : List Color565) : Statement (.rleEnc v) := by
  show (0x02 :: le32 (BitVec.ofNat 32 v.length) ++ v.flatMap le16).length = 5 + 2 * v.length
  rw [List.length_append, flatMap_le16_length, List.length_cons, le32_length]

theorem cwBegin (n : Word) (w h : Half) (fps : Byte) : Statement (.cwBegin n w h fps) := rfl

theorem cwFrame (px : List Pixel) : Statement (.cwFrame px) := by
  show (0x11 :: le32 (BitVec.ofNat 32 px.length) ++ px.flatMap fun p => [p.r, p.g, p.b]).length =
    5 + 3 * px.length
  rw [List.length_append, flatMap_pixel_length, List.length_cons, le32_length]

theorem cwFinalize : Statement .cwFinalize := rfl

theorem rdreg (a : Byte) : Statement (.rdreg a) := rfl

theorem illegal (op : Byte) : Statement (.illegal op) := rfl

theorem run (n : BitVec 7) (c : Color565) : Statement (.run n c) := rfl

theorem lit (vs : List Color565) : Statement (.lit vs) := by
  show (segmentHeader 0 (BitVec.ofNat 7 (vs.length - 1)) :: vs.flatMap le16).length = 1 + 2 * vs.length
  rw [List.length_cons, flatMap_le16_length]
  omega

end Sys2Proof.Laws.EncodeLength
end

