-- ==== Sys2Proof/Laws/Rle.lean ====
section
/-! SUPPORT. The bounds of the run and literal counts, and that the number of rounds given to the encoder and to the
reference decoder does not matter once it is enough. -/

namespace Sys2Proof.Machine

/-! ## Counts -/

theorem countEqual_le_cap (c : Color565) (cap : Nat) (f : List Color565) : countEqual c cap f ≤ cap := by
  induction cap generalizing f with
  | zero => simp [countEqual]
  | succ cap ih =>
    cases f with
    | nil => simp [countEqual]
    | cons d ds =>
      have := ih ds
      rw [countEqual]
      split_ifs <;> omega

theorem countEqual_le_length (c : Color565) (cap : Nat) (f : List Color565) : countEqual c cap f ≤ f.length := by
  induction cap generalizing f with
  | zero => simp [countEqual]
  | succ cap ih =>
    cases f with
    | nil => simp [countEqual]
    | cons d ds =>
      have := ih ds
      rw [countEqual, List.length_cons]
      split_ifs <;> omega

/-- What is counted is copies of the value. -/
theorem take_countEqual (c : Color565) (cap : Nat) (f : List Color565) :
    f.take (countEqual c cap f) = List.replicate (countEqual c cap f) c := by
  induction cap generalizing f with
  | zero => simp [countEqual]
  | succ cap ih =>
    cases f with
    | nil => simp [countEqual]
    | cons d ds =>
      rw [countEqual]
      split_ifs with h
      · rw [List.take_succ_cons, List.replicate_succ, ih, h]
      · rfl

theorem getElem_countEqual {c : Color565} {cap : Nat} {f : List Color565} {j : Nat} (hj : j < countEqual c cap f) :
    f[j]? = some c := by
  have := congrArg (fun l => l[j]?) (take_countEqual c cap f)
  simpa [List.getElem?_take, hj, List.getElem?_replicate] using this

/-- The count stops at the cap, at the end, or at another value. -/
theorem countEqual_stop {c : Color565} {cap : Nat} {f : List Color565} (h : countEqual c cap f < cap) :
    f[countEqual c cap f]? ≠ some c := by
  induction cap generalizing f with
  | zero => omega
  | succ cap ih =>
    cases f with
    | nil => simp [countEqual]
    | cons d ds =>
      rw [countEqual] at h ⊢
      split_ifs at h ⊢ with hd
      · simpa using ih (by omega)
      · simpa using hd

theorem runLen_pos (cap : Nat) {f : List Color565} (h : f ≠ []) : 1 ≤ runLen cap f := by
  cases f with
  | nil => exact absurd rfl h
  | cons c cs => simp [runLen]

theorem runLen_le_cap {cap : Nat} (h : 1 ≤ cap) (f : List Color565) : runLen cap f ≤ cap := by
  cases f with
  | nil => simp [runLen]
  | cons c cs =>
    have := countEqual_le_cap c (cap - 1) cs
    rw [runLen]
    omega

theorem runLen_le_length (cap : Nat) (f : List Color565) : runLen cap f ≤ f.length := by
  cases f with
  | nil => simp [runLen]
  | cons c cs =>
    have := countEqual_le_length c (cap - 1) cs
    rw [runLen, List.length_cons]
    omega

theorem take_runLen (cap : Nat) (c : Color565) (cs : List Color565) :
    (c :: cs).take (runLen cap (c :: cs)) = List.replicate (runLen cap (c :: cs)) c := by
  rw [runLen, List.take_succ_cons, List.replicate_succ, take_countEqual]

theorem literalLen_le_room (room : Nat) (f : List Color565) : literalLen room f ≤ room := by
  induction room generalizing f with
  | zero => simp [literalLen]
  | succ room ih =>
    cases f with
    | nil => simp [literalLen]
    | cons d ds =>
      have := ih ds
      rw [literalLen]
      split_ifs <;> omega

theorem literalLen_le_length (room : Nat) (f : List Color565) : literalLen room f ≤ f.length := by
  induction room generalizing f with
  | zero => simp [literalLen]
  | succ room ih =>
    cases f with
    | nil => simp [literalLen]
    | cons d ds =>
      have := ih ds
      rw [literalLen, List.length_cons]
      split_ifs <;> omega

/-- A cap of 3 sees a run of 3 exactly where a larger cap does. -/
theorem countEqual_min (c : Color565) (k m : Nat) (f : List Color565) :
    countEqual c (min k m) f = min (countEqual c k f) m := by
  induction k generalizing m f with
  | zero => simp [countEqual]
  | succ k ih =>
    cases m with
    | zero => simp [countEqual]
    | succ m =>
      rw [Nat.succ_min_succ]
      cases f with
      | nil => simp [countEqual]
      | cons d ds =>
        rw [countEqual, countEqual, ih]
        split_ifs <;> omega

theorem runLen_three (f : List Color565) : runLen 3 f = min (runLen 128 f) 3 := by
  cases f with
  | nil => rfl
  | cons c cs =>
    have := countEqual_min c 127 2 cs
    simp only [runLen]
    norm_num at this ⊢
    omega

/-- Where a literal begins, its first test passes. -/
theorem literalLen_pos {f : List Color565} (hf : f ≠ []) (h : runLen 128 f < 3) : 1 ≤ literalLen 128 f := by
  cases f with
  | nil => exact absurd rfl hf
  | cons c cs =>
    have := runLen_three (c :: cs)
    rw [literalLen, if_pos (by simp only [Config.runMin]; omega)]
    omega

/-! ## Rounds -/

/-- More rounds than values change nothing. -/
theorem segmentsWithin_enough {rounds : Nat} {f : List Color565} (h : f.length ≤ rounds) :
    segmentsWithin rounds f = rleSegments f := by
  suffices H : ∀ (m : Nat) (f : List Color565), f.length ≤ m → ∀ r, f.length ≤ r →
      segmentsWithin r f = segmentsWithin m f from H _ f le_rfl rounds h
  intro m
  induction m with
  | zero =>
    intro f hf r _
    rw [List.eq_nil_of_length_eq_zero (by omega : f.length = 0)]
    cases r <;> rfl
  | succ m ih =>
    intro f hf r hr
    cases f with
    | nil => cases r <;> rfl
    | cons c cs =>
      obtain ⟨r, rfl⟩ : ∃ r', r = r' + 1 := ⟨r - 1, by simp at hr; omega⟩
      simp only [List.length_cons] at hf hr
      simp only [segmentsWithin, Config.runMin, Config.segMax]
      have h1 := runLen_pos 128 (f := c :: cs) (by simp)
      split_ifs with h3
      · rw [ih _ (by rw [List.length_drop, List.length_cons]; omega) r
          (by rw [List.length_drop, List.length_cons]; omega)]
      · have h2 := literalLen_pos (f := c :: cs) (by simp) (by omega)
        rw [ih _ (by rw [List.length_drop, List.length_cons]; omega) r
          (by rw [List.length_drop, List.length_cons]; omega)]

@[simp] theorem rleSegments_nil : rleSegments [] = [] := rfl

/-- Where a run of 3 starts, the next segment is a Run. -/
theorem rleSegments_run {c : Color565} {cs : List Color565} (h : 3 ≤ runLen 128 (c :: cs)) :
    rleSegments (c :: cs) =
      .run (BitVec.ofNat 7 (runLen 128 (c :: cs) - 1)) c ::
        rleSegments ((c :: cs).drop (runLen 128 (c :: cs))) := by
  rw [rleSegments, List.length_cons, segmentsWithin, if_pos h, segmentsWithin_enough]
  simp only [Config.segMax, List.length_drop, List.length_cons]
  omega

/-- Where none starts, it is a Literal. -/
theorem rleSegments_lit {c : Color565} {cs : List Color565} (h : runLen 128 (c :: cs) < 3) :
    rleSegments (c :: cs) =
      .lit ((c :: cs).take (literalLen 128 (c :: cs))) ::
        rleSegments ((c :: cs).drop (literalLen 128 (c :: cs))) := by
  have := literalLen_pos (f := c :: cs) (by simp) h
  rw [rleSegments, List.length_cons, segmentsWithin, if_neg (by simpa using h)]
  simp only [Config.segMax]
  rw [segmentsWithin_enough]
  simp only [List.length_drop, List.length_cons]
  omega

/-- Induction over the rounds of block `B-RLE`. -/
theorem rle_induction {P : List Color565 → Prop} (empty : P [])
    (run : ∀ c cs, 3 ≤ runLen 128 (c :: cs) → P ((c :: cs).drop (runLen 128 (c :: cs))) → P (c :: cs))
    (lit : ∀ c cs, runLen 128 (c :: cs) < 3 → 1 ≤ literalLen 128 (c :: cs) →
      P ((c :: cs).drop (literalLen 128 (c :: cs))) → P (c :: cs)) (f : List Color565) : P f := by
  induction hn : f.length using Nat.strong_induction_on generalizing f with
  | _ n ih =>
    cases f with
    | nil => exact empty
    | cons c cs =>
      by_cases h : 3 ≤ runLen 128 (c :: cs)
      · exact run c cs h (ih _ (by rw [← hn, List.length_drop, List.length_cons]; omega) _ rfl)
      · have hl := literalLen_pos (f := c :: cs) (by simp) (by omega)
        exact lit c cs (by omega) hl (ih _ (by rw [← hn, List.length_drop, List.length_cons]; omega) _ rfl)

/-- Every segment that is emitted has an encoding. -/
theorem rleSegments_wellFormed (f : List Color565) :
    ∀ i, i ∈ rleSegments f → WellFormed i = true ∧ i.isCommand = false := by
  induction f using rle_induction with
  | empty => simp
  | run c cs h ih =>
    rw [rleSegments_run h]
    intro i hi
    rcases List.mem_cons.1 hi with rfl | hi
    · exact ⟨rfl, rfl⟩
    · exact ih i hi
  | lit c cs h h' ih =>
    rw [rleSegments_lit h]
    intro i hi
    rcases List.mem_cons.1 hi with rfl | hi
    · have h1 := literalLen_le_room 128 (c :: cs)
      have h2 := literalLen_le_length 128 (c :: cs)
      refine ⟨?_, rfl⟩
      simp only [WellFormed, List.length_take, Config.segMax, min_eq_left h2]
      simpa using ⟨h', h1⟩
    · exact ih i hi

/-- Rounds of the reference decoder beyond the stream's length change nothing. -/
theorem decodeWithin_enough {rounds : Nat} {bs : List Byte} (h : bs.length ≤ rounds) :
    decodeWithin rounds bs = rleDecode bs := by
  suffices H : ∀ (m : Nat) (bs : List Byte), bs.length ≤ m → ∀ r, bs.length ≤ r →
      decodeWithin r bs = decodeWithin m bs from H _ bs le_rfl rounds h
  intro m
  induction m with
  | zero =>
    intro bs hb r _
    rw [List.eq_nil_of_length_eq_zero (by omega : bs.length = 0)]
    cases r <;> rfl
  | succ m ih =>
    intro bs hb r hr
    cases bs with
    | nil => cases r <;> rfl
    | cons hd tl =>
      obtain ⟨r, rfl⟩ : ∃ r', r = r' + 1 := ⟨r - 1, by simp at hr; omega⟩
      simp only [List.length_cons] at hb hr
      simp only [decodeWithin]
      cases hd' : decodeSegment (hd :: tl) with
      | error e => rfl
      | ok d =>
        obtain ⟨i, rest⟩ := d
        have hl : rest.length ≤ tl.length := decodeSegment_rest_le hd'
        simp only
        rw [ih rest (by omega) r (by omega)]

/-- One segment at a time. -/
theorem rleDecode_cons (hd : Byte) (tl : List Byte) :
    rleDecode (hd :: tl) =
      match decodeSegment (hd :: tl) with
      | .ok (i, rest) => (rleDecode rest).map fun f => segmentValues i ++ f
      | .error _ => none := by
  rw [rleDecode, List.length_cons, decodeWithin]
  cases hd' : decodeSegment (hd :: tl) with
  | error e => rfl
  | ok d =>
    obtain ⟨i, rest⟩ := d
    simp only
    rw [decodeWithin_enough (decodeSegment_rest_le hd')]

end Sys2Proof.Machine
end

