-- ==== Sys2Proof/Laws/Step.lean ====
section
/-! SUPPORT. What one step can do, said once: an instruction always gives a next state and keeps the parameters, the
port and the host's side; the host acts; a step is one of the two. -/

namespace Sys2Proof.Machine

/-! ## Execution -/

/-- Every instruction completes (R276). -/
theorem exec_next (i : Instr) (s : State) : ∃ t, exec i s = .next t := by
  cases i <;> exact ⟨_, rfl⟩

/-- `t` agrees with `s` in what no instruction writes. -/
structure Keeps (s t : State) : Prop where
  port : t.port = s.port
  cfg : t.cfg = s.cfg
  input : t.input = s.input
  reads : t.reads = s.reads
  segs : t.segs = s.segs
  resets : t.resets = s.resets

theorem Keeps.refl (s : State) : Keeps s s := ⟨rfl, rfl, rfl, rfl, rfl, rfl⟩

theorem Keeps.trans {s t u : State} (a : Keeps s t) (b : Keeps t u) : Keeps s u :=
  ⟨b.port.trans a.port, b.cfg.trans a.cfg, b.input.trans a.input, b.reads.trans a.reads, b.segs.trans a.segs,
    b.resets.trans a.resets⟩

theorem SinkSide.keeps {s t : State} (h : SinkSide s t) : Keeps s t :=
  ⟨h.port, h.cfg, h.input, h.reads, h.segs, h.resets⟩

theorem keeps_failWith (e : Status) (s : State) : Keeps s (failWith e s) := ⟨rfl, rfl, rfl, rfl, rfl, rfl⟩

theorem runBegin_keeps (n : Word) (w h : Half) (fps : Byte) (s : State) : Keeps s (runBegin n w h fps s) := by
  rcases runBegin_sum n w h fps s with ⟨-, he⟩ | ⟨-, u, hu, ⟨e, -, he⟩ | ⟨-, -, -, he⟩⟩ <;> rw [he]
  · exact ⟨rfl, rfl, rfl, rfl, rfl, rfl⟩
  · rw [hu.eq]
    exact ⟨rfl, rfl, rfl, rfl, rfl, rfl⟩
  · rw [hu.eq]
    exact ⟨rfl, rfl, rfl, rfl, rfl, rfl⟩

theorem runFrame_keeps (px : List Pixel) (s : State) : Keeps s (runFrame px s) := by
  rcases runFrame_cases px s with ⟨-, he⟩ | ⟨-, ⟨e, -, he⟩ | ⟨-, -, -, ⟨-, he⟩ | ⟨-, he⟩⟩⟩ <;> rw [he]
  · exact ⟨rfl, rfl, rfl, rfl, rfl, rfl⟩
  · exact keeps_failWith _ _
  · exact (sinkPlace_side _ _ _).keeps.trans (keeps_failWith _ _)
  · exact (sinkPlace_side _ _ _).keeps.trans ⟨rfl, rfl, rfl, rfl, rfl, rfl⟩

theorem runFinalize_keeps (s : State) : Keeps s (runFinalize s) := by
  rcases runFinalize_sum s with ⟨-, he⟩ | ⟨-, u, hu, ⟨e, -, he⟩ | he⟩ <;> rw [he]
  · exact ⟨rfl, rfl, rfl, rfl, rfl, rfl⟩
  · exact hu.side.keeps.trans (keeps_failWith _ _)
  · exact hu.side.keeps.trans ⟨rfl, rfl, rfl, rfl, rfl, rfl⟩

/-- No instruction writes the port, the parameters, or the host's side (R20, R28). -/
theorem exec_keeps {i : Instr} {s t : State} (h : exec i s = .next t) : Keeps s t := by
  cases i with
  | quant r g b => cases h; exact ⟨rfl, rfl, rfl, rfl, rfl, rfl⟩
  | rleEnc v => cases h; unfold runRleEnc; split_ifs <;> exact ⟨rfl, rfl, rfl, rfl, rfl, rfl⟩
  | cwBegin n w h' fps => cases h; exact runBegin_keeps n w h' fps s
  | cwFrame px => cases h; exact runFrame_keeps px s
  | cwFinalize => cases h; exact runFinalize_keeps s
  | rdreg a => cases h; unfold runRdreg; split <;> exact ⟨rfl, rfl, rfl, rfl, rfl, rfl⟩
  | illegal op => cases h; exact ⟨rfl, rfl, rfl, rfl, rfl, rfl⟩
  | run n c => cases h; exact ⟨rfl, rfl, rfl, rfl, rfl, rfl⟩
  | lit vs => cases h; exact ⟨rfl, rfl, rfl, rfl, rfl, rfl⟩

/-! ## Fetching -/

/-- The command decoder gives no instruction only where the packet is incomplete. -/
theorem decodeCommand_error {bs : List Byte} {e : DecodeError} (h : decodeCommand bs = .error e) :
    e = .incompletePacket := by
  cases bs with
  | nil => cases h; rfl
  | cons op bs =>
    rw [decodeCommand] at h
    split_ifs at h
    · unfold decodeQuant at h; split at h <;> cases h; rfl
    · unfold decodeRleEnc at h; split at h
      · split at h <;> cases h; rfl
      · cases h; rfl
    · unfold decodeCwBegin at h; split at h <;> cases h; rfl
    · unfold decodeCwFrame at h; split at h
      · split at h <;> cases h; rfl
      · cases h; rfl
    · unfold decodeRdreg at h; split at h <;> cases h; rfl

/-- On a stream with bytes, the segment decoder gives no segment only where it is truncated (R153). -/
theorem decodeSegment_error {h : Byte} {bs : List Byte} {e : DecodeError}
    (he : decodeSegment (h :: bs) = .error e) : e = .truncatedSegment := by
  rw [decodeSegment] at he
  split_ifs at he
  · unfold decodeRun at he; split at he <;> cases he; rfl
  · unfold decodeLit at he; split at he <;> cases he; rfl

theorem fetch_port {s : State} (hs : s.segs = []) :
    fetch s = (decodeCommand s.port).map fun d => (d.1, { s with port := d.2 }) := by
  unfold fetch
  rw [hs]

theorem fetch_segs {s : State} (hs : s.segs ≠ []) :
    fetch s = (decodeSegment s.segs).map fun d => (d.1, { s with segs := d.2 }) := by
  obtain ⟨h, bs, hb⟩ := List.exists_cons_of_ne_nil hs
  unfold fetch
  rw [hb]

/-- Where the instruction that a step executes comes from. -/
theorem fetch_ok {s s1 : State} {i : Instr} (h : fetch s = .ok (i, s1)) :
    (s.segs = [] ∧ ∃ rest, decodeCommand s.port = .ok (i, rest) ∧ s1 = { s with port := rest }) ∨
    (s.segs ≠ [] ∧ ∃ rest, decodeSegment s.segs = .ok (i, rest) ∧ s1 = { s with segs := rest }) := by
  by_cases hs : s.segs = []
  · rw [fetch_port hs] at h
    cases hd : decodeCommand s.port with
    | error e => rw [hd] at h; cases h
    | ok d => rw [hd] at h; cases h; exact .inl ⟨hs, d.2, rfl, rfl⟩
  · rw [fetch_segs hs] at h
    cases hd : decodeSegment s.segs with
    | error e => rw [hd] at h; cases h
    | ok d => rw [hd] at h; cases h; exact .inr ⟨hs, d.2, rfl, rfl⟩

/-! ## The host -/

/-- Where the host does nothing during an operation, the operation's state stands. -/
theorem hostDuring_quiet {b t : State} {es : List HostEvent} (h : ∀ e es', es = e :: es' → e.isDuring = false) :
    hostDuring b es t = .next { t with input := es } := by
  cases es with
  | nil => rfl
  | cons e es =>
    have := h e es rfl
    cases e <;> first | rfl | cases this

/-- Everything the host can do during an operation: reads, and perhaps a reset after them. -/
theorem hostDuring_next {b u t : State} {es : List HostEvent} (h : hostDuring b es u = .next t) :
    ∃ rs es', t = { u with reads := rs, input := es' } ∨
      t = takeReset { u with
        reads := rs, out := b.out, input := es', finished := b.finished && u.finished } := by
  induction es generalizing u with
  | nil => cases h; exact ⟨u.reads, [], .inl rfl⟩
  | cons e es ih =>
    cases e with
    | memReadDuring a n =>
      rw [hostDuring] at h
      split at h
      · obtain ⟨rs, es', ht⟩ := ih h
        exact ⟨rs, es', ht⟩
      · cases h
    | resetDuring => cases h; exact ⟨u.reads, es, .inr rfl⟩
    | byte b => cases h; exact ⟨u.reads, _, .inl rfl⟩
    | reset => cases h; exact ⟨u.reads, _, .inl rfl⟩
    | bindSink => cases h; exact ⟨u.reads, _, .inl rfl⟩
    | memRead a n => cases h; exact ⟨u.reads, _, .inl rfl⟩
    | decodeBlob a n => cases h; exact ⟨u.reads, _, .inl rfl⟩

theorem underHost_quiet {b s : State} {i : Instr} (hi : s.input = b.input)
    (h : ∀ e es', b.input = e :: es' → e.isDuring = false) : underHost b (exec i s) = exec i s := by
  obtain ⟨t, ht⟩ := exec_next i s
  rw [ht]
  show hostDuring b b.input t = _
  rw [hostDuring_quiet h, ← hi, ← (exec_keeps ht).input]

/-- Everything the host can do while no operation executes. -/
theorem hostAct_next {e : HostEvent} {s t : State} (h : hostAct e s = .next t) :
    (∃ b, e = .byte b ∧ t = { s with port := s.port ++ [b] }) ∨ t = takeReset s ∨
    (s.phase ≠ .opened ∧ t = { s with sink := [], finished := false }) ∨
    (∃ bs, t = { s with reads := s.reads ++ [bs] }) ∨
    (s.finished = true ∧ ∃ bs, t = { s with segs := bs, frame := [] }) := by
  cases e with
  | byte b => cases h; exact .inl ⟨b, rfl, rfl⟩
  | reset => cases h; exact .inr (.inl rfl)
  | resetDuring => cases h; exact .inr (.inl rfl)
  | bindSink =>
    change bindSink s = _ at h
    unfold bindSink at h
    split_ifs at h with hp
    cases h
    exact .inr (.inr (.inl ⟨hp, rfl⟩))
  | memRead a n =>
    change hostReadDone a n s = _ at h
    unfold hostReadDone at h
    split at h <;> cases h
    exact .inr (.inr (.inr (.inl ⟨_, rfl⟩)))
  | memReadDuring a n =>
    change hostReadDone a n s = _ at h
    unfold hostReadDone at h
    split at h <;> cases h
    exact .inr (.inr (.inr (.inl ⟨_, rfl⟩)))
  | decodeBlob a n =>
    change startDecoder a n s = _ at h
    unfold startDecoder at h
    split_ifs at h with hf
    split at h <;> cases h
    exact .inr (.inr (.inr (.inr ⟨hf, _, rfl⟩)))

/-! ## The step -/

theorem step_command {s : State} {i : Instr} {rest : List Byte} (hs : s.segs = [])
    (hd : decodeCommand s.port = .ok (i, rest)) : step s = underHost s (exec i { s with port := rest }) := by
  unfold step
  rw [fetch_port hs, hd]
  rfl

theorem step_segment {s : State} {i : Instr} {rest : List Byte} (hs : s.segs ≠ [])
    (hd : decodeSegment s.segs = .ok (i, rest)) : step s = underHost s (exec i { s with segs := rest }) := by
  unfold step
  rw [fetch_segs hs, hd]
  rfl

theorem step_truncated {s : State} (hs : s.segs ≠ []) (hd : decodeSegment s.segs = .error .truncatedSegment) :
    step s = .fault .truncatedSegment := by
  unfold step
  rw [fetch_segs hs, hd]
  rfl

theorem step_await {s : State} (hs : s.segs = []) (hd : decodeCommand s.port = .error .incompletePacket) :
    step s = awaitHost s := by
  unfold step
  rw [fetch_port hs, hd]
  rfl

/-- Everything a step that gives a next state can do: execute the fetched instruction under the host, or, with no
complete packet held, let the host act. -/
theorem step_cases {s t : State} (h : step s = .next t) :
    (∃ i s1 u, fetch s = .ok (i, s1) ∧ exec i s1 = .next u ∧ hostDuring s s.input u = .next t) ∨
    (s.segs = [] ∧ decodeCommand s.port = .error .incompletePacket ∧
      (t = s ∨ ∃ e es, s.input = e :: es ∧ hostAct e { s with input := es } = .next t)) := by
  cases hf : fetch s with
  | ok d =>
    obtain ⟨i, s1⟩ := d
    obtain ⟨u, hu⟩ := exec_next i s1
    unfold step at h
    rw [hf] at h
    change underHost s (exec i s1) = _ at h
    rw [hu] at h
    exact .inl ⟨i, s1, u, rfl, hu, h⟩
  | error e =>
    by_cases hs : s.segs = []
    · have hd : decodeCommand s.port = .error .incompletePacket := by
        cases hd : decodeCommand s.port with
        | ok d => rw [fetch_port hs, hd] at hf; cases hf
        | error e' => rw [decodeCommand_error hd]
      refine .inr ⟨hs, hd, ?_⟩
      rw [step_await hs hd, awaitHost] at h
      split at h
      · cases h; exact .inl rfl
      · rename_i e' es he
        exact .inr ⟨e', es, he, h⟩
    · obtain ⟨h0, bs, hb⟩ := List.exists_cons_of_ne_nil hs
      cases hd : decodeSegment s.segs with
      | ok d => rw [fetch_segs hs, hd] at hf; cases hf
      | error e' =>
        have := hd
        rw [hb] at this
        rw [decodeSegment_error this] at hd
        rw [step_truncated hs hd] at h
        cases h

end Sys2Proof.Machine
end

