-- ==== Sys2Proof/Tests/Slice0.lean ====
section
/-! SUPPORT. Tests on fixed values, taken from spec/95_test_vectors.md and from the encodings of spec/30_encoding.md, and
for each statement with hypotheses a state and operands that meet them. -/

namespace Sys2Proof.Machine.Tests

/-! ## Helpers -/

/-- Parameters with small capacities and a known `MAGIC`. -/
def smallParams : Params where
  magic := ⟨0xA0, 0xA1, 0xA2, 0xA3⟩
  cap := 64
  maxFrames := 3
  shortPolicy := .fail
  seekable := true
  maxRleLen := 8

/-- A machine after reset with those parameters, on a sink that answers ok eight times. -/
def small : State := { State.reset with cfg := smallParams, answers := List.replicate 8 .ok }

/-- The machine of P2 (spec/95_test_vectors.md) after its `CW_BEGIN 2, 2, 1, 30`. -/
def opened : State :=
  { small with
    phase := .opened, n := 2, w := 2, h := 1, fps := 30, idx := 20, pos := 36
    sink := writeBytes 0 ([0xA0, 0xA1, 0xA2, 0xA3, 2, 0, 0, 0, 2, 0, 1, 0, 0x1E, 1, 0, 0] ++ List.replicate 20 0) [] }

/-- The machine of P3 before its `CW_FINALIZE`: one frame of three is placed at 44. -/
def short : State :=
  { small with
    phase := .opened, n := 3, w := 1, h := 1, fps := 24, idx := 20, pos := 47, k := 1
    off := [(0, 44)], size := [(0, 3)] }

/-- The same with `SHORT_POLICY = TRUNCATE`. -/
def shortTruncate : State := { short with cfg := { smallParams with shortPolicy := .truncate } }

/-- The machine of P2 before its `CW_FINALIZE`, the tables alone. -/
def full : State :=
  { opened with pos := 46, k := 2, off := [(0, 36), (1, 41)], size := [(0, 5), (1, 5)] }

/-- The state an instruction leaves. -/
def after (i : Instr) (s : State) : State :=
  match exec i s with
  | .next t => t
  | .fault _ => State.reset
  | .refused _ => State.reset

/-- The state a step leaves. -/
def stepped (s : State) : State :=
  match step s with
  | .next t => t
  | .fault _ => State.reset
  | .refused _ => State.reset

def red : Pixel := ⟨255, 0, 0⟩
def blue : Pixel := ⟨0, 0, 255⟩

/-! ## Well-formedness -/

theorem test_wellFormed_refuses_rleEnc_of_2_pow_32 : WellFormed (.rleEnc (List.replicate (2 ^ 32) 0)) = false := by
  rw [WellFormed, List.length_replicate]
  decide

theorem test_wellFormed_refuses_cwFrame_of_2_pow_32 :
    WellFormed (.cwFrame (List.replicate (2 ^ 32) red)) = false := by
  rw [WellFormed, List.length_replicate]
  decide

theorem test_wellFormed_refuses_illegal_of_a_table_opcode :
    WellFormed (.illegal 0x01) = false ∧ WellFormed (.illegal 0x20) = false := by decide

theorem test_wellFormed_refuses_empty_lit : WellFormed (.lit []) = false := by decide

theorem test_wellFormed_refuses_lit_of_129 : WellFormed (.lit (List.replicate 129 0)) = false := by
  rw [WellFormed, List.length_replicate]
  decide

set_option maxRecDepth 8000 in
theorem test_wellFormed_takes_the_bounds :
    WellFormed (.lit [0]) = true ∧ WellFormed (.lit (List.replicate 128 0)) = true ∧
      WellFormed (.rleEnc []) = true ∧ WellFormed (.cwFrame []) = true ∧ WellFormed (.illegal 0x03) = true ∧
      WellFormed (.run 127 0) = true ∧ WellFormed (.quant 1 2 3) = true ∧ WellFormed (.rdreg 0xFF) = true ∧
      WellFormed (.cwBegin 0 0 0 0) = true ∧ WellFormed .cwFinalize = true := by decide

/-! ## Decoding: bytes written out from R100, R82, R83 and the examples -/

theorem test_decode_quant : decodeCommand [0x01, 0x12, 0x34, 0x56, 0xAA] = .ok (.quant 0x12 0x34 0x56, [0xAA]) := by
  decide

theorem test_decode_rleEnc : decodeCommand [0x02, 0x02, 0, 0, 0, 0x34, 0x12, 0xCD, 0xAB] =
    .ok (.rleEnc [0x1234, 0xABCD], []) := by decide

theorem test_decode_cwBegin : decodeCommand [0x10, 0x04, 0x03, 0x02, 0x01, 0x06, 0x05, 0x08, 0x07, 0x1E] =
    .ok (.cwBegin 0x01020304 0x0506 0x0708 0x1E, []) := by decide

theorem test_decode_cwFrame : decodeCommand [0x11, 0x01, 0, 0, 0, 0x0A, 0x0B, 0x0C] =
    .ok (.cwFrame [⟨0x0A, 0x0B, 0x0C⟩], []) := by decide

theorem test_decode_cwFinalize : decodeCommand [0x12] = .ok (.cwFinalize, []) := by decide

theorem test_decode_rdreg : decodeCommand [0x20, 0x06] = .ok (.rdreg 6, []) := by decide

/-- The undefined opcodes of spec/95_test_vectors.md section 2.8. -/
theorem test_decode_illegal : ∀ op ∈ ([0x00, 0x03, 0x0F, 0x13, 0x1F, 0x21, 0x80, 0xFF] : List Byte),
    decodeCommand [op] = .ok (.illegal op, []) := by decide

theorem test_decode_waits : decodeCommand [0x11, 0x01, 0, 0, 0, 0x0A, 0x0B] = .error .incompletePacket := by decide

/-- X1 and X7: headers 0x83, 0x80 and 0xFF. -/
theorem test_decode_run :
    decodeSegment [0x83, 0x00, 0xF8] = .ok (.run 3 0xF800, []) ∧
      decodeSegment [0x80, 0x34, 0x12] = .ok (.run 0 0x1234, []) ∧
      decodeSegment [0xFF, 0, 0] = .ok (.run 127 0, []) := by decide

/-- X2. -/
theorem test_decode_lit : decodeSegment [0x02, 0x00, 0xF8, 0xE0, 0x07, 0x1F, 0x00] =
    .ok (.lit [0xF800, 0x07E0, 0x001F], []) := by decide

/-- V-DEC rows 6 and 8. -/
theorem test_decode_truncated :
    decodeSegment [0x82, 0x34] = .error .truncatedSegment ∧
      decodeSegment [0x01, 0x34, 0x12] = .error .truncatedSegment := by decide

/-- Bit 0 of a table word is the least significant bit of the first byte. -/
theorem test_table_word :
    decodeTableWord 32 0x56341201 = some (.quant 0x12 0x34 0x56) ∧ decodeTableWord 24 0xF80083 = some (.run 3 0xF800) := by
  decide

/-! ## QUANT -/

/-- Rows 3, 5, 17 and 21 of section 2.1. -/
theorem test_quant_values :
    quantize 0x12 0x34 0x56 = 0x11AA ∧ quantize 8 4 8 = 0x0821 ∧ quantize 127 127 127 = 0x7BEF ∧
      quantize 200 100 50 = 0xCB26 := by decide

theorem test_quant_response : (after (.quant 0x12 0x34 0x56) small).out = [[0x00, 0xAA, 0x11]] := by decide

/-! ## RLE -/

set_option maxRecDepth 8000 in
/-- V-RLE rows 1, 3, 4, 6, 11, 13 and 25. -/
theorem test_rle_rows :
    rleEncode [] = [] ∧ rleEncode [0x1234, 0x1234] = [0x01, 0x34, 0x12, 0x34, 0x12] ∧
      rleEncode (List.replicate 3 0x1234) = [0x82, 0x34, 0x12] ∧
      rleEncode (List.replicate 129 0x1234) = [0xFF, 0x34, 0x12, 0x00, 0x34, 0x12] ∧
      rleEncode [0x1234, 0xABCD, 0xABCD] = [0x02, 0x34, 0x12, 0xCD, 0xAB, 0xCD, 0xAB] ∧
      rleEncode [0x1234, 0x1234, 0xABCD, 0xABCD, 0xABCD] = [0x01, 0x34, 0x12, 0x34, 0x12, 0x82, 0xCD, 0xAB] ∧
      rleEncode [0xABCD, 0x1234, 0x1234, 0x1234, 0xABCD] =
        [0x00, 0xCD, 0xAB, 0x82, 0x34, 0x12, 0x00, 0xCD, 0xAB] := by decide

/-- V-DEC rows 3, 5 and 9. -/
theorem test_rleDecode_rows :
    rleDecode [0x81, 0x34, 0x12] = some [0x1234, 0x1234] ∧
      rleDecode [0x00, 0xCD, 0xAB, 0x82, 0x34, 0x12, 0x00, 0xCD, 0xAB] =
        some [0xABCD, 0x1234, 0x1234, 0x1234, 0xABCD] ∧
      rleDecode [0x00, 0xCD, 0xAB, 0x82] = none := by decide

/-- `RLE_ENC` rows 3 and 4 of section 2.2: `MAX_RLE_LEN = 8`. -/
theorem test_rleEnc_limit :
    (after (.rleEnc (List.replicate 9 0)) small).out = [[0x04]] ∧
      (after (.rleEnc (List.replicate 8 0)) small).out = [[0x00, 3, 0, 0, 0, 0x87, 0, 0]] := by decide

theorem test_run_values : (after (.run 3 0xF800) small).frame = List.replicate 4 0xF800 := by decide

theorem test_lit_values : (after (.lit [0xF800, 0x001F]) small).frame = [0xF800, 0x001F] := by decide

/-! ## The Container Writer -/

/-- Row 1 of section 2.4: the sink and the position. -/
theorem test_cwBegin_writes :
    (after (.cwBegin 2 2 1 30) small).sink = opened.sink ∧ (after (.cwBegin 2 2 1 30) small).pos = 36 ∧
      (after (.cwBegin 2 2 1 30) small).phase = .opened := by decide

/-- Row 4 of section 2.4: `CAPACITY`, the metadata stored. -/
theorem test_cwBegin_capacity :
    (after (.cwBegin 4 1 1 1) small).err = 0x14 ∧ (after (.cwBegin 4 1 1 1) small).n = 4 ∧
      (after (.cwBegin 4 1 1 1) small).sink = [] := by decide

/-- Row 1 of section 2.5. -/
theorem test_cwFrame_writes :
    readBytes (after (.cwFrame [red, red]) opened).sink 36 5 = some [0x01, 0x00, 0xF8, 0x00, 0xF8] ∧
      (after (.cwFrame [red, red]) opened).off = [(0, 36)] ∧ (after (.cwFrame [red, red]) opened).pos = 41 := by
  decide

/-- Row 3 of section 2.5. -/
theorem test_cwFrame_size_mismatch :
    (after (.cwFrame [red, red, red]) opened).out = [[0x13]] ∧ (after (.cwFrame [red, red, red]) opened).k = 0 ∧
      (after (.cwFrame [red, red, red]) opened).phase = .failed := by decide

/-- Row 1 of section 2.6: the three patches of P2. -/
theorem test_cwFinalize_patches :
    readBytes (after .cwFinalize full).sink 16 20 =
        some [0x14, 0, 0, 0, 0x24, 0, 0, 0, 5, 0, 0, 0, 0x29, 0, 0, 0, 5, 0, 0, 0] ∧
      (after .cwFinalize full).phase = .done := by decide

/-- Rows 3 and 4 of section 2.6. -/
theorem test_cwFinalize_short :
    (after .cwFinalize short).err = 0x11 ∧ (after .cwFinalize short).sink = [] ∧
      readBytes (after .cwFinalize shortTruncate).sink 4 4 = some [1, 0, 0, 0] ∧
      readBytes (after .cwFinalize shortTruncate).sink 20 8 = some [0x2C, 0, 0, 0, 3, 0, 0, 0] := by decide

/-! ## Control -/

/-- Rows 1, 3 and 13 of section 2.7. -/
theorem test_rdreg_rows :
    (after (.rdreg 0) small).out = [[0, 0, 0, 2, 0]] ∧ (after (.rdreg 4) small).out = [[0, 0, 1, 0, 0]] ∧
      (after (.rdreg 0x0A) small).out = [[3]] := by decide

/-- Rows 7, 8 and 12 of section 2.7. -/
theorem test_rdreg_open :
    (after (.rdreg 3) opened).out = [[0, 2, 0, 1, 0]] ∧ (after (.rdreg 4) opened).out = [[0, 0x1E, 1, 0, 0]] ∧
      (after (.rdreg 9) opened).out = [[0, 0xA0, 0xA1, 0xA2, 0xA3]] := by decide

theorem test_illegal_response : (after (.illegal 0xFF) opened).out = [[1]] := by decide

/-- A complete packet is executed, a host byte is taken, a reset discards a partial packet. -/
theorem test_step_packet : (stepped { small with port := [0x20, 0x01] }).out = [[0, 0, 0, 0, 0]] := by decide

theorem test_step_byte : (stepped { small with port := [0x11], input := [.byte 2] }).port = [0x11, 2] := by decide

theorem test_step_reset :
    (stepped { opened with port := [0x11], input := [.reset] }).port = [] ∧
      (stepped { opened with port := [0x11], input := [.reset] }).phase = .idle ∧
      (stepped { opened with port := [0x11], input := [.reset] }).sink = opened.sink := by decide

/-- A host read of the header, and of an unwritten byte. -/
theorem test_step_memRead :
    (stepped { opened with input := [.memRead 4 4] }).reads = [[2, 0, 0, 0]] ∧
      step { opened with input := [.memRead 35 2] } = .fault .unwrittenRead := ⟨by decide, rfl⟩

/-- A finished container can be decoded, an open one cannot; a read of no byte past `CAP` gives no byte. -/
theorem test_step_decodeBlob :
    (stepped { opened with phase := .done, finished := true, input := [.decodeBlob 20 3] }).segs = [0, 0, 0] ∧
      step { opened with input := [.decodeBlob 20 3] } = .refused .noFinishedContainer ∧
      (stepped { opened with input := [.memRead 65 0] }).reads = [[]] := ⟨by decide, rfl, by decide⟩

/-- A word of the table, first after reset. -/
theorem test_withFetchWord : (stepped (State.reset.withFetchWord 32 0x56341201)).out = [[0, 0xAA, 0x11]] := by decide

/-! ## Witnesses: the hypotheses of each statement can be met -/

theorem test_witness_CommandDecodesItsEncoding :
    (WellFormed (.rleEnc []) = true ∧ (Instr.rleEnc []).isCommand = true) ∧
      (WellFormed (.cwFrame [red]) = true ∧ (Instr.cwFrame [red]).isCommand = true) ∧
      (WellFormed (.illegal 0xFF) = true ∧ (Instr.illegal 0xFF).isCommand = true) := by decide

set_option maxRecDepth 8000 in
theorem test_witness_SegmentDecodesItsEncoding :
    (WellFormed (.run 127 0xF800) = true ∧ (Instr.run 127 0xF800).isCommand = false) ∧
      (WellFormed (.lit (List.replicate 128 0)) = true ∧ (Instr.lit (List.replicate 128 0)).isCommand = false) := by
  decide

theorem test_witness_DecodedBytesAreTheEncoding :
    decodeCommand [0x12, 0x34] = .ok (.cwFinalize, [0x34]) ∧ decodeSegment [0x00, 1, 2] = .ok (.lit [0x0201], []) := by
  decide

set_option maxRecDepth 8000 in
theorem test_witness_SegmentLengthFromHeader :
    (([0x00] : List Byte).length < 2 ∧ (0x80 : Byte).getLsbD 7 = true) ∧
      (([0x00, 0x00] : List Byte).length < 2 * (((0x01 : Byte).extractLsb' 0 7).toNat + 1)) ∧
      (2 ≤ ([0x00, 0x00] : List Byte).length) ∧
      (2 * (((0x7F : Byte).extractLsb' 0 7).toNat + 1) ≤ (List.replicate 256 (0 : Byte)).length) := by decide

theorem test_witness_StepRunsDecodedCommand :
    small.segs = [] ∧ decodeCommand ({ small with port := [0x12] } : State).port = .ok (.cwFinalize, []) ∧
      ∀ e es, small.input = e :: es → e.isDuring = false := ⟨rfl, rfl, fun _ _ h => nomatch h⟩

theorem test_witness_StepRunsDecodedSegment :
    let s : State := { small with segs := [0x80, 1, 2] }
    let t : State := { small with segs := [0x80, 1] }
    (s.segs ≠ [] ∧ (∀ e es, s.input = e :: es → e.isDuring = false) ∧
      decodeSegment s.segs = .ok (.run 0 0x0201, [])) ∧
    (t.segs ≠ [] ∧ (∀ e es, t.input = e :: es → e.isDuring = false) ∧
      decodeSegment t.segs = .error .truncatedSegment) :=
  ⟨⟨by decide, fun _ _ h => (nomatch h), by decide⟩, by decide, fun _ _ h => (nomatch h), by decide⟩

theorem test_witness_HostActsBetweenPackets :
    small.segs = [] ∧ decodeCommand small.port = .error .incompletePacket ∧ small.input = [] ∧
      ({ small with input := [.byte 7] } : State).input = .byte 7 :: [] ∧
      (({ small with input := [.bindSink] } : State).input = .bindSink :: [] ∧ small.phase ≠ .opened) ∧
      (({ opened with input := [.bindSink] } : State).input = .bindSink :: [] ∧ opened.phase = .opened ∧
        opened.segs = [] ∧ decodeCommand opened.port = .error .incompletePacket) ∧
      ({ small with input := [.resetDuring] } : State).input = .resetDuring :: [] ∧
      ({ small with input := [.memReadDuring 4 1] } : State).input = .memReadDuring 4 1 :: [] ∧
      (let s : State := { opened with phase := .done, finished := true, input := [.decodeBlob 35 1] }
       s.segs = [] ∧ decodeCommand s.port = .error .incompletePacket ∧ s.input = .decodeBlob 35 1 :: [] ∧
         35 + 1 ≤ s.cfg.cap.toNat ∧ ∀ j, j < 1 → cellGet s.sink (35 + j) = [(0 : Byte)][j]?) ∧
      (({ opened with input := [.decodeBlob 65 0] } : State).input = .decodeBlob 65 0 :: [] ∧
        opened.finished = false) := by decide

/-- The port empty, and holding exactly one packet. -/
theorem test_witness_PortKeepsOnePacket :
    (PortHoldsOnePacket small ∧ ∃ t, step small = .next t) ∧
      (PortHoldsOnePacket { small with port := [0x12] } ∧ ∃ t, step { small with port := [0x12] } = .next t) := by
  refine ⟨⟨fun i rest h => (nomatch h), _, rfl⟩, fun i rest h => ?_, _, rfl⟩
  cases h
  rfl

/-- Every command, and each side of the response's two cases. -/
theorem test_witness_ResponseForm :
    (Instr.quant 1 2 3).isCommand = true ∧ (Instr.rleEnc []).isCommand = true ∧ (Instr.rdreg 0x0A).isCommand = true ∧
      (Instr.cwBegin 0 0 0 0).isCommand = true ∧ (Instr.illegal 0).isCommand = true := by decide

/-- A run that the cap stops, one that another value stops, and one that the end stops. -/
theorem test_witness_RunLenMeaning :
    (0 < [(5 : Color565), 5, 5, 5].length ∧ runLen 3 [5, 5, 5, 5] = 3) ∧
      (runLen 128 [5, 5, 6] < 128 ∧ 0 + runLen 128 [5, 5, 6] < [(5 : Color565), 5, 6].length) ∧
      (3 < [(5 : Color565), 5, 5, 5].length ∧ 1 ≤ 1 ∧ runLen 1 [5] = 1) := by decide

set_option maxRecDepth 8000 in
/-- The three ends of a literal: a run, the end of the frame, 128 values. -/
theorem test_witness_LiteralLenMeaning :
    ([(1 : Color565), 2, 2, 2] ≠ [] ∧ runLen 128 [1, 2, 2, 2] < 3 ∧ literalLen 128 [1, 2, 2, 2] = 1) ∧
      (runLen 128 [1, 1] < 3 ∧ literalLen 128 [1, 1] = 2) ∧
      (runLen 128 ((List.range 129).map (BitVec.ofNat 16)) < 3 ∧
        literalLen 128 ((List.range 129).map (BitVec.ofNat 16)) = 128) := by decide

theorem test_witness_EncodedSize :
    (∀ i, i + 2 < [(1 : Color565), 1, 2].length →
      ¬([(1 : Color565), 1, 2][i]? = [(1 : Color565), 1, 2][i + 1]? ∧
        [(1 : Color565), 1, 2][i + 1]? = [(1 : Color565), 1, 2][i + 2]?)) ∧
      1 ≤ [(1 : Color565)].length ∧ [(1 : Color565)].length ≤ 0x7F000000 := by
  refine ⟨fun i hi => ?_, by decide, by decide⟩
  obtain rfl : i = 0 := by simp only [List.length_cons, List.length_nil] at hi; omega
  decide

/-- V-RLE row 12. -/
theorem test_witness_EmittedSegments :
    Instr.lit [0x1234] ∈ rleSegments [0x1234, 0xABCD, 0xABCD, 0xABCD] ∧
      rleSegments [0x1234, 0xABCD, 0xABCD, 0xABCD] = [] ++ .lit [0x1234] :: .run 2 0xABCD :: [] ∧
      [(0x1234 : Color565)].length < 128 := by decide

/-- Runs of 3, 128, 129 and 131 values, with neighbours. -/
theorem test_witness_MaximalRunSegments :
    ([(1 : Color565)].getLast? ≠ some 7 ∧ [(2 : Color565)].head? ≠ some 7) ∧ (3 ≤ 3 ∧ 3 ≤ 3 % 128) ∧
      (3 ≤ 128 ∧ 128 % 128 = 0) ∧ (3 ≤ 129 ∧ 1 ≤ 129 % 128 ∧ 129 % 128 < 3) ∧ (3 ≤ 131 ∧ 3 ≤ 131 % 128) := by decide

set_option maxRecDepth 8000 in
theorem test_witness_RleEncResponds :
    (List.replicate 8 (0 : Color565)).length < 2 ^ 32 ∧
      (List.replicate 8 (0 : Color565)).length ≤ small.cfg.maxRleLen.toNat ∧ small.cfg.wf = true ∧
      small.cfg.maxRleLen.toNat < (List.replicate 9 (0 : Color565)).length := by decide

set_option maxRecDepth 8000 in
theorem test_witness_LitSegmentMeaning :
    [(7 : Color565)].length = (0 : BitVec 7).toNat + 1 ∧
      (List.replicate 128 (7 : Color565)).length = (127 : BitVec 7).toNat + 1 := by decide

theorem test_witness_DecoderRunsToRleDecode :
    ({ small with segs := [0x81, 1, 2] } : State).input = [] ∧ rleDecode [0x81, 1, 2] = some [0x0201, 0x0201] ∧
      rleDecode [0x81, 1] = none := by decide

theorem test_witness_SinkWriteEffect :
    (19 < 20 ∨ 20 + 2 ≤ 19) ∧ (22 < 20 ∨ 20 + 2 ≤ 22) ∧ (answerAt small 0 = .ok ∧ 1 < [(1 : Byte), 2].length) ∧
      (answerAt { small with answers := [.fail] } 0 = .fail ∧ 1 < [(1 : Byte), 2].length) ∧ Memory.wf opened.sink := by
  decide

/-- The last byte of the placeholders; the first unwritten byte; the first address at `CAP`; no byte beyond it. -/
theorem test_witness_HostReadBetweenOperations :
    opened.segs = [] ∧ decodeCommand opened.port = .error .incompletePacket ∧
      (35 + 1 ≤ opened.cfg.cap.toNat ∧ [(0 : Byte)].length = 1 ∧
        ∀ j, j < 1 → cellGet opened.sink (35 + j) = [(0 : Byte)][j]?) ∧
      (36 + 1 ≤ opened.cfg.cap.toNat ∧ cellGet opened.sink (36 + 0) = none) ∧
      ((1 : Nat) ≠ 0 ∧ opened.cfg.cap.toNat < 64 + 1) ∧
      (([] : List Byte).length = 0 ∧ ∀ j, j < 0 → cellGet opened.sink (65 + j) = ([] : List Byte)[j]?) := by decide

/-- P2 after its `CW_BEGIN`, a `QUANT` received, and a host read of one byte while it executes. -/
def racing : State := { opened with port := [0x01, 0, 0, 0], input := [.memReadDuring 4 1] }

/-- What the `QUANT` leaves. -/
def racingAfter : State := { racing with port := [], out := [[0, 0, 0]] }

/-- The operation writes nothing at the address read, so every choice of the race gives one byte. -/
theorem test_racing_read : racingBytes 0 racing racingAfter 4 1 = some [2] := by
  unfold racingBytes racingCell
  rw [show racingViews racing racingAfter 4 = [some 2, some 2] from rfl]
  rcases Nat.mod_two_eq_zero_or_one (Config.raceChoice 0 4) with h | h <;> simp [h, racingBytes]

/-- While a header write that draws `fail` is under way, its byte 4 can be seen (R62). -/
theorem test_racing_failed_write :
    (racingViews small (after (.cwBegin 2 2 1 30) { small with answers := [.fail] }) 4)[2]? = some (some 2) := rfl

theorem test_witness_RacingReadSeesOldOrNew :
    racing.segs = [] ∧ decodeCommand racing.port = .ok (.quant 0 0 0, []) ∧
      racing.input = .memReadDuring 4 1 :: [] ∧
      (∀ e es', ([] : List HostEvent) = e :: es' → e.isDuring = false) ∧
      exec (.quant 0 0 0) { racing with port := [] } = .next racingAfter ∧ ∃ u, step racing = .next u := by
  refine ⟨rfl, rfl, rfl, fun _ _ h => (nomatch h), rfl, ?_⟩
  have h : step racing = hostDuring racing [.memReadDuring 4 1] racingAfter := rfl
  have hr : hostReadRacing racing 4 1 racingAfter = .ok [2] := by
    unfold hostReadRacing
    rw [if_neg (by decide), show racingAfter.reads.length = 0 from rfl, test_racing_read]
  rw [h, hostDuring, hr]
  exact ⟨_, rfl⟩

/-- A `CW_BEGIN` that writes its header and its placeholders. -/
theorem test_witness_CoreNeverReadsSink :
    ∃ t, exec (.cwBegin 2 2 1 30) small = .next t ∧ t.phase = .opened ∧ t.sink = opened.sink := ⟨_, rfl, rfl, rfl⟩

/-- `N` at its bound with the index ending exactly at `CAP`, and `N = 0`. -/
theorem test_witness_BeginOpensConversion :
    (small.phase = .idle ∧ small.cfg.seekable = true ∧ (3 : Word).toNat ≤ small.cfg.maxFrames.toNat ∧
      20 + 8 * (3 : Word).toNat ≤ ({ smallParams with cap := 44 } : Params).cap.toNat ∧
      20 + 8 * (3 : Word).toNat ≤ small.cfg.cap.toNat ∧
      ∀ j, j < (beginWrites small.cfg.magic 3 2 1 30).length → answerAt small j = .ok) ∧
      (beginWrites small.cfg.magic 0 2 1 30).length = 1 := by decide

theorem test_witness_OutOfPhaseRefused :
    (isContainerOp (.cwBegin 2 2 1 30) = true ∧ phaseAccepts .opened (.cwBegin 2 2 1 30) = false) ∧
      (isContainerOp (.cwFrame []) = true ∧ phaseAccepts .idle (.cwFrame []) = false) ∧
      (isContainerOp .cwFinalize = true ∧ phaseAccepts .done .cwFinalize = false) := by decide

/-- Each of the three refusals before a write, at its bound. -/
theorem test_witness_BeginFailsBeforeWriting :
    small.phase = .idle ∧ ({ smallParams with seekable := false } : Params).seekable = false ∧
      (small.cfg.seekable = true ∧ small.cfg.maxFrames.toNat < (4 : Word).toNat) ∧
      ((3 : Word).toNat ≤ small.cfg.maxFrames.toNat ∧
        ({ smallParams with cap := 43 } : Params).cap.toNat < 20 + 8 * (3 : Word).toNat) := by decide

/-- The header write fails; the placeholder write fails. -/
theorem test_witness_BeginWriteFails :
    small.phase = .idle ∧ small.cfg.seekable = true ∧ (2 : Word).toNat ≤ small.cfg.maxFrames.toNat ∧
      20 + 8 * (2 : Word).toNat ≤ small.cfg.cap.toNat ∧ answerAt { small with answers := [.fail] } 0 = .fail ∧
      (answerAt { small with answers := [.ok, .fail] } 0 = .ok ∧
        answerAt { small with answers := [.ok, .fail] } 1 = .fail ∧ (2 : Word) ≠ 0) := by decide

/-- A blob, and the empty frame of a zero-width container, which has no write. -/
theorem test_witness_FrameWritesBlob :
    (opened.phase = .opened ∧ opened.k ≠ opened.n ∧ [red, blue].length = opened.w.toNat * opened.h.toNat ∧
      opened.pos.toNat + (rleEncode (quantizeFrame [red, blue])).length ≤ opened.cfg.cap.toNat ∧
      answerAt opened 0 = .ok) ∧
      (([] : List Pixel).length = ({ opened with w := 0 } : State).w.toNat * opened.h.toNat ∧
        rleEncode (quantizeFrame []) = []) := by decide

/-- Each of the four failures. -/
theorem test_witness_FrameFails :
    opened.phase = .opened ∧ full.phase = .opened ∧ full.k = full.n ∧
      (opened.k ≠ opened.n ∧ [red].length ≠ opened.w.toNat * opened.h.toNat) ∧
      (opened.k ≠ opened.n ∧ [red, red].length = opened.w.toNat * opened.h.toNat ∧
        ({ smallParams with cap := 40 } : Params).cap.toNat <
          opened.pos.toNat + (rleEncode (quantizeFrame [red, red])).length) ∧
      (opened.pos.toNat + (rleEncode (quantizeFrame [red, red])).length ≤ opened.cfg.cap.toNat ∧
        rleEncode (quantizeFrame [red, red]) ≠ [] ∧ answerAt { opened with answers := [.fail] } 0 = .fail) := by
  decide

/-- Every frame written, and one of three under `TRUNCATE`. -/
theorem test_witness_FinalizePatches :
    (full.phase = .opened ∧ (full.k.toNat < full.n.toNat → full.cfg.shortPolicy = .truncate) ∧
      ∀ j, j < (finalizeWrites full).length → answerAt full j = .ok) ∧
      (shortTruncate.phase = .opened ∧ shortTruncate.k.toNat < shortTruncate.n.toNat ∧
        shortTruncate.cfg.shortPolicy = .truncate ∧
        ∀ j, j < (finalizeWrites shortTruncate).length → answerAt shortTruncate j = .ok) := by decide

/-- Each of the four failures; the last entry, with and without the count patch. -/
theorem test_witness_FinalizeFails :
    (short.phase = .opened ∧ short.k.toNat < short.n.toNat ∧ short.cfg.shortPolicy = .fail) ∧
      answerAt { full with answers := [.fail] } 0 = .fail ∧
      (shortTruncate.k.toNat < shortTruncate.n.toNat ∧ answerAt { shortTruncate with answers := [.ok, .fail] } 0 = .ok ∧
        answerAt { shortTruncate with answers := [.ok, .fail] } 1 = .fail) ∧
      (1 < full.k.toNat ∧ (∀ j, j < 1 + 1 → answerAt { full with answers := [.ok, .ok, .fail] } j = .ok) ∧
        answerAt { full with answers := [.ok, .ok, .fail] } (1 + 1) = .fail) ∧
      (0 < shortTruncate.k.toNat ∧
        (∀ j, j < 2 + 0 → answerAt { shortTruncate with answers := [.ok, .ok, .fail] } j = .ok) ∧
        answerAt { shortTruncate with answers := [.ok, .ok, .fail] } (2 + 0) = .fail) := by decide

/-- A refusal and a success, and the first address beyond the placeholders. -/
theorem test_witness_BeginFrame :
    (∃ t, exec (.cwBegin 2 2 1 30) opened = .next t ∧ opened.phase ≠ .idle) ∧
      (∃ t, exec (.cwBegin 2 2 1 30) small = .next t ∧ t.phase = .opened) ∧
      (∃ t, exec (.cwBegin 4 1 1 1) small = .next t ∧ t.phase ≠ .opened) ∧ 20 + 8 * (2 : Word).toNat ≤ 36 :=
  ⟨⟨_, rfl, by decide⟩, ⟨_, rfl, rfl⟩, ⟨_, rfl, by decide⟩, by decide⟩

theorem test_witness_FrameFrame :
    (∃ t, exec (.cwFrame [red, red]) opened = .next t ∧ t.phase = .opened) ∧
      (∃ t, exec (.cwFrame [red]) opened = .next t ∧ t.phase ≠ .opened) ∧ 1 ≠ opened.k.toNat ∧
      (35 < opened.pos.toNat ∨ opened.pos.toNat + 5 ≤ 35) ∧ (41 < opened.pos.toNat ∨ opened.pos.toNat + 5 ≤ 41) :=
  ⟨⟨_, rfl, rfl⟩, ⟨_, rfl, by decide⟩, by decide, by decide, by decide⟩

/-- The byte before and the byte after each place that is patched. -/
theorem test_witness_FinalizeFrame :
    (∃ t, exec .cwFinalize shortTruncate = .next t ∧ t.phase = .done) ∧
      ∀ x ∈ [3, 8, 15, 28], (x < 16 ∨ 20 ≤ x) ∧
        (shortTruncate.n.toNat ≤ shortTruncate.k.toNat ∨ x < 4 ∨ 8 ≤ x) ∧
        (x < shortTruncate.idx.toNat ∨ shortTruncate.idx.toNat + 8 * shortTruncate.k.toNat ≤ x) :=
  ⟨⟨_, rfl, rfl⟩, by decide⟩

theorem test_witness_RegisterMap : 0x0A ≤ (0x0A : Byte).toNat ∧ 0x0A ≤ (0xFF : Byte).toNat := by decide

theorem test_witness_RdregResponds :
    ((0x09 : Byte).toNat ≤ 0x09 ∧ (0x00 : Byte).toNat ≤ 0x09) ∧ 0x09 < (0x0A : Byte).toNat ∧ 0x09 < (0xFF : Byte).toNat := by
  decide

theorem test_witness_UndefinedOpcodeRejected : ∀ op ∈ ([0x00, 0x03, 0x0F, 0x13, 0x1F, 0x21, 0xFF] : List Byte),
    op ≠ 0x01 ∧ op ≠ 0x02 ∧ op ≠ 0x10 ∧ op ≠ 0x11 ∧ op ≠ 0x12 ∧ op ≠ 0x20 := by decide

theorem test_witness_ResetBetweenPackets :
    let s : State := { opened with port := [0x11], input := [.reset] }
    s.segs = [] ∧ decodeCommand s.port = .error .incompletePacket ∧ s.input = .reset :: [] := by decide

/-- A `CW_BEGIN` whose reset arrives while it executes. -/
theorem test_witness_ResetDuringOperation :
    let s : State := { small with port := [0x10, 2, 0, 0, 0, 2, 0, 1, 0, 0x1E], input := [.resetDuring] }
    s.segs = [] ∧ decodeCommand s.port = .ok (.cwBegin 2 2 1 30, []) ∧ s.input = .resetDuring :: [] ∧
      ∃ t, exec (.cwBegin 2 2 1 30) { s with port := [] } = .next t := ⟨rfl, rfl, rfl, _, rfl⟩

/-- A non-sticky and a sticky error. -/
theorem test_witness_ErrorExits :
    (∃ t, exec .cwFinalize small = .next t ∧ t.out = small.out ++ [[statusCode .badSequence]]) ∧
      isSticky .badSequence = false ∧
      (∃ t, exec (.cwFrame [red]) opened = .next t ∧ t.out = opened.out ++ [[statusCode .frameSizeMismatch]]) ∧
      isSticky .frameSizeMismatch = true :=
  ⟨⟨_, rfl, rfl⟩, rfl, ⟨_, rfl, rfl⟩, rfl⟩

theorem test_witness_FailedPhaseRefusesConversions :
    let s : State := { small with phase := .failed, err := 0x13 }
    s.phase = .failed ∧ isContainerOp .cwFinalize = true ∧ [(0 : Color565)].length ≤ s.cfg.maxRleLen.toNat ∧
      registerValue s 0 = some 0x00021303 := by decide

/-- A step that opens, one that fails, one that completes, one that resets. -/
theorem test_witness_PhaseTransitions :
    (∃ t, step { small with port := [0x10, 2, 0, 0, 0, 2, 0, 1, 0, 0x1E] } = .next t ∧ t.phase = .opened) ∧
      (∃ t, step { opened with port := [0x12] } = .next t ∧ t.phase = .failed) ∧
      (∃ t, step { full with port := [0x12] } = .next t ∧ t.phase = .done ∧ t.finished = true) ∧
      (∃ t, step { full with input := [.reset] } = .next t ∧ t.phase = .idle) :=
  ⟨⟨_, rfl, rfl⟩, ⟨_, rfl, rfl⟩, ⟨_, rfl, rfl, rfl⟩, ⟨_, rfl, rfl⟩⟩

theorem test_witness_ErrWrittenByFailAndReset :
    (∃ t, step { opened with port := [0x12] } = .next t ∧ t.err = 0x11) ∧
      (∃ t, step { opened with input := [.reset], err := 0x11 } = .next t ∧ t.err = 0) :=
  ⟨⟨_, rfl, rfl⟩, ⟨_, rfl, rfl⟩⟩

theorem test_witness_MetadataWrittenByBegin :
    (∃ t, exec (.cwBegin 4 1 1 1) small = .next t ∧ t.n = 4) ∧
      (∃ t, exec (.cwBegin 4 1 1 1) opened = .next t ∧ t.n = 2) ∧ (∃ t, step small = .next t) ∧
      (∃ t, step { small with port := [0x10, 2, 0, 0, 0, 2, 0, 1, 0, 0x1E] } = .next t ∧ t.n = 2) ∧
      ∃ t, step { opened with input := [.reset] } = .next t ∧ t.n = 0 :=
  ⟨⟨_, rfl, rfl⟩, ⟨_, rfl, rfl⟩, ⟨_, rfl⟩, ⟨_, rfl, rfl⟩, _, rfl, rfl⟩

/-- The state after `CW_BEGIN` meets the invariant, and so does a state with a frame placed. -/
theorem inv_opened : Inv opened := by
  refine ⟨by decide, by decide, by decide, by decide, by decide, by decide, by decide, by decide, fun h => ?_,
    fun _ => rfl, fun h => ?_, fun _ => ⟨rfl, by decide, fun i hi => ?_, by decide⟩, fun _ => rfl⟩
  · exact absurd h (by decide)
  · exact absurd h (by decide)
  · exact absurd hi (by simp [opened, small, State.reset])

theorem test_witness_InvariantKept :
    Inv opened ∧ ∃ t, step { opened with port := [0x12] } = .next t := ⟨inv_opened, _, rfl⟩

/-- The open container of no frames. -/
theorem openWith_opened : OpenWith [] opened :=
  ⟨rfl, rfl, by decide, rfl, by decide, fun i f h => by simp at h, fun i f h => by simp at h, by decide, by decide,
    by decide⟩

/-- A `CW_BEGIN` and a `CW_FRAME` that complete. -/
theorem test_witness_OpenContainerBuilt :
    (small.phase = .idle ∧ ∃ t, exec (.cwBegin 2 2 1 30) small = .next t ∧ t.phase = .opened) ∧
      (OpenWith [] opened ∧ ∃ t, exec (.cwFrame [red, red]) opened = .next t ∧ t.phase = .opened) :=
  ⟨⟨rfl, _, rfl, rfl⟩, openWith_opened, _, rfl, rfl⟩

/-- The empty open container under `TRUNCATE`, finalized. -/
theorem test_witness_FinalizedContainer :
    let s : State := { opened with cfg := { smallParams with shortPolicy := .truncate } }
    OpenWith [] s ∧ ∃ t, exec .cwFinalize s = .next t ∧ t.phase = .done :=
  ⟨⟨rfl, rfl, by decide, rfl, by decide, fun i f h => by simp at h, fun i f h => by simp at h, by decide, by decide,
    by decide⟩, _, rfl, rfl⟩

/-- P2: both frames, and its first frame alone under `TRUNCATE`. -/
theorem test_witness_ConversionCompletes :
    small.phase = .idle ∧ small.cfg.seekable = true ∧ (2 : Word).toNat ≤ small.cfg.maxFrames.toNat ∧
      (∀ px ∈ [[red, red], [red, blue]], px.length = (2 : Half).toNat * (1 : Half).toNat) ∧
      [[red, red], [red, blue]].length = (2 : Word).toNat ∧
      ([[red, red]].length < (2 : Word).toNat ∧
        ({ smallParams with shortPolicy := .truncate } : Params).shortPolicy = .truncate) ∧
      20 + 8 * (2 : Word).toNat + (blobs ([[red, red], [red, blue]].map quantizeFrame)).length ≤
        small.cfg.cap.toNat ∧
      ∀ j, j < 4 + 2 * [[red, red], [red, blue]].length → answerAt small j = .ok := by decide

/-- A second `CW_BEGIN` after one that was answered OK, and a `CONVERT` from `OPEN`. -/
theorem test_witness_ConvertStopsAtFirstError :
    (∃ s1 t, execAll [.cwBegin 2 2 1 30] small = .next s1 ∧ s1.out = small.out ++ [[0x00]] ∧
      exec (.cwBegin 2 2 1 30) s1 = .next t ∧ t.out = s1.out ++ [[0x02]]) ∧ opened.phase ≠ .idle :=
  ⟨⟨_, _, rfl, rfl, rfl, rfl⟩, by decide⟩

/-- A `CONVERT` whose first frame has a wrong pixel count goes no further (R106). -/
theorem test_convert_stops :
    execAll (convert 2 2 1 30 [[red], [red, red]]) small = exec (.cwFrame [red]) (after (.cwBegin 2 2 1 30) small) := rfl

/-- A conversion of one red pixel ends in `DONE`. -/
theorem test_witness_ConversionIndexCorrect :
    small.phase = .idle ∧ ∃ t, execAll (convert 1 1 1 1 [[red]]) small = .next t ∧ t.phase = .done :=
  ⟨rfl, _, rfl, rfl⟩

end Sys2Proof.Machine.Tests
end

section
/-! The scope family (spec/00_scope.md): what one step of the machine is. -/

namespace Sys2Proof.Machine

/-- Where the host does nothing meanwhile, a step is the execution of the complete packet held (R14). -/
theorem step_command_quiet {s : State} {i : Instr} {rest : List Byte} (hs : s.segs = [])
    (hd : decodeCommand s.port = .ok (i, rest)) (hq : ∀ e es, s.input = e :: es → e.isDuring = false) :
    step s = exec i { s with port := rest } := by
  rw [step_command hs hd]
  exact underHost_quiet rfl hq

/-- Settles O6: the packet held is what the step fetches, and a host that does nothing meanwhile leaves the state of the
execution as it is, its pending actions included. -/
theorem stepRunsDecodedCommand : Obligations.StepRunsDecodedCommand := by
  intro s i rest hs hd
  exact ⟨step_command hs hd, step_command_quiet hs hd⟩

end Sys2Proof.Machine
end

section
/-! What a step can do to the state (spec/10_state.md), said once: which registers it keeps, the outcomes of an
instruction, and the reset that may end a step. -/

namespace Sys2Proof.Machine

/-! ## What is kept -/

/-- `t` agrees with `s` in what R33 relates: the index registers, the tables and the parameters. -/
structure TablesKept (s t : State) : Prop where
  n : t.n = s.n
  idx : t.idx = s.idx
  pos : t.pos = s.pos
  k : t.k = s.k
  off : t.off = s.off
  size : t.size = s.size
  cfg : t.cfg = s.cfg
  resets : t.resets = s.resets

/-- `t` has every register and table of `s`. Its sink is as canonical, lists new addresses only below `CAP`, and holds
a finished container only if that of `s` does. -/
structure RegistersKept (s t : State) : Prop extends TablesKept s t where
  phase : t.phase = s.phase
  err : t.err = s.err
  w : t.w = s.w
  h : t.h = s.h
  fps : t.fps = s.fps
  finished : t.finished = true → s.finished = true
  wf : Memory.wf s.sink → Memory.wf t.sink
  mem : ∀ c, c ∈ t.sink → c.1 < s.cfg.cap.toNat ∨ c ∈ s.sink

theorem TablesKept.trans {s t u : State} (a : TablesKept s t) (b : TablesKept t u) : TablesKept s u :=
  ⟨b.n.trans a.n, b.idx.trans a.idx, b.pos.trans a.pos, b.k.trans a.k, b.off.trans a.off, b.size.trans a.size,
    b.cfg.trans a.cfg, b.resets.trans a.resets⟩

theorem RegistersKept.trans {s t u : State} (a : RegistersKept s t) (b : RegistersKept t u) : RegistersKept s u where
  toTablesKept := a.toTablesKept.trans b.toTablesKept
  phase := b.phase.trans a.phase
  err := b.err.trans a.err
  w := b.w.trans a.w
  h := b.h.trans a.h
  fps := b.fps.trans a.fps
  finished := a.finished ∘ b.finished
  wf := b.wf ∘ a.wf
  mem c hc := (b.mem c hc).elim (fun hlt => .inl (a.cfg ▸ hlt)) (a.mem c)

/-- What is written around the core alone, its port, the responses, the host's side and the decoder, keeps the
registers. -/
theorem registersKept_of_eq {s t : State} (h : t = { s with
    port := t.port, out := t.out, input := t.input, reads := t.reads, segs := t.segs, frame := t.frame }) :
    RegistersKept s t := by
  rw [h]
  exact ⟨⟨rfl, rfl, rfl, rfl, rfl, rfl, rfl, rfl⟩, rfl, rfl, rfl, rfl, rfl, id, id, fun _ => .inr⟩

theorem RegistersKept.refl (s : State) : RegistersKept s s := registersKept_of_eq rfl

theorem registersKept_emit (bs : List Byte) (s : State) : RegistersKept s (emit bs s) := registersKept_of_eq rfl

theorem registersKept_respondOk (p : List Byte) (s : State) : RegistersKept s (respondOk p s) := registersKept_emit _ s

theorem registersKept_reject (e : Status) (s : State) : RegistersKept s (reject e s) := registersKept_emit _ s

theorem registersKept_takeSegment (i : Instr) (s : State) : RegistersKept s (takeSegment i s) := registersKept_of_eq rfl

theorem SinkSide.tablesKept {s t : State} (h : SinkSide s t) : TablesKept s t :=
  ⟨h.n, h.idx, h.pos, h.k, h.off, h.size, h.cfg, h.resets⟩

/-- Transactions below `CAP` keep the registers. -/
theorem SinkSide.registersKept {s t : State} (h : SinkSide s t) (wf : Memory.wf s.sink → Memory.wf t.sink)
    (mem : ∀ c, c ∈ t.sink → c.1 < s.cfg.cap.toNat ∨ c ∈ s.sink) : RegistersKept s t :=
  ⟨h.tablesKept, h.phase, h.err, h.w, h.h, h.fps, fun hf => h.finished ▸ hf, wf, mem⟩

theorem sinkPlace_registersKept {addr : Nat} {bs : List Byte} {s : State}
    (hcap : addr + bs.length ≤ s.cfg.cap.toNat) : RegistersKept s (sinkPlace addr bs s).2 :=
  (sinkPlace_side addr bs s).registersKept (sinkPlace_wf addr bs) fun _ hc =>
    (sinkPlace_mem hc).imp_left fun hin => by omega

theorem fetch_registersKept {s s1 : State} {i : Instr} (h : fetch s = .ok (i, s1)) : RegistersKept s s1 := by
  rcases fetch_ok h with ⟨-, rest, -, rfl⟩ | ⟨-, rest, -, rfl⟩ <;> exact registersKept_of_eq rfl

/-! Inside a `CW_BEGIN` the metadata is stored already, and these fields stand as they were. -/

theorem HeadSide.err {n : Word} {w h : Half} {fps : Byte} {s u : State} (hu : HeadSide n w h fps s u) :
    u.err = s.err :=
  (congrArg State.err hu.eq :)
theorem HeadSide.k {n : Word} {w h : Half} {fps : Byte} {s u : State} (hu : HeadSide n w h fps s u) :
    u.k = s.k :=
  (congrArg State.k hu.eq :)
theorem HeadSide.off {n : Word} {w h : Half} {fps : Byte} {s u : State} (hu : HeadSide n w h fps s u) :
    u.off = s.off :=
  (congrArg State.off hu.eq :)
theorem HeadSide.size {n : Word} {w h : Half} {fps : Byte} {s u : State} (hu : HeadSide n w h fps s u) :
    u.size = s.size :=
  (congrArg State.size hu.eq :)
theorem HeadSide.cfg {n : Word} {w h : Half} {fps : Byte} {s u : State} (hu : HeadSide n w h fps s u) :
    u.cfg = s.cfg :=
  (congrArg State.cfg hu.eq :)
theorem HeadSide.finished {n : Word} {w h : Half} {fps : Byte} {s u : State} (hu : HeadSide n w h fps s u) :
    u.finished = false :=
  (congrArg State.finished hu.eq :)

theorem HeadSide.metadata {n : Word} {w h : Half} {fps : Byte} {s u : State} (hu : HeadSide n w h fps s u) :
    u.n = n ∧ u.w = w ∧ u.h = h ∧ u.fps = fps := by
  rw [hu.eq]
  exact ⟨rfl, rfl, rfl, rfl⟩

/-! ## What one instruction can do -/

/-- A segment or a command that is no container operation keeps the registers. -/
theorem exec_registersKept {i : Instr} {s t : State} (hi : isContainerOp i = false) (hx : exec i s = .next t) :
    RegistersKept s t := by
  cases i with
  | quant r g b => cases hx; exact registersKept_respondOk _ s
  | rleEnc v =>
    cases hx
    unfold runRleEnc
    split_ifs
    · exact registersKept_reject _ s
    · exact registersKept_respondOk _ s
  | cwBegin n w h fps => cases hi
  | cwFrame px => cases hi
  | cwFinalize => cases hi
  | rdreg a =>
    cases hx
    unfold runRdreg
    split
    · exact registersKept_respondOk _ s
    · exact registersKept_reject _ s
  | illegal op => cases hx; exact registersKept_reject _ s
  | run n c => cases hx; exact registersKept_takeSegment _ s
  | lit vs => cases hx; exact registersKept_takeSegment _ s

/-- The container operations that their phase does not accept are rejected. -/
theorem exec_outOfPhase {i : Instr} {s : State} (hi : isContainerOp i = true) (hp : phaseAccepts s.phase i = false) :
    exec i s = .next (reject .badSequence s) := by
  cases i with
  | cwBegin n w h fps => exact congrArg Host.Outcome.next (if_pos (of_decide_eq_false hp))
  | cwFrame px => exact congrArg Host.Outcome.next (if_pos (of_decide_eq_false hp))
  | cwFinalize => exact congrArg Host.Outcome.next (if_pos (of_decide_eq_false hp))
  | quant r g b => cases hi
  | rleEnc v => cases hi
  | rdreg a => cases hi
  | illegal op => cases hi
  | run n c => cases hi
  | lit vs => cases hi

/-- Everything an instruction can make of `s`: nothing that the registers show, or one of the outcomes of a container
operation in the phase that accepts it. -/
inductive ExecCase (s : State) : Instr → State → Prop where
  | quiet {i : Instr} {t : State} (hi : isContainerOp i = true → phaseAccepts s.phase i = false)
      (ht : RegistersKept s t) : ExecCase s i t
  | beginFails {n : Word} {w h : Half} {fps : Byte} {u : State} {e : Status} (hp : s.phase = .idle)
      (hu : HeadSide n w h fps s u) (he : isSticky e = true) : ExecCase s (.cwBegin n w h fps) (failWith e u)
  | beginOpens {n : Word} {w h : Half} {fps : Byte} {u : State} (hp : s.phase = .idle)
      (hu : HeadSide n w h fps s u) (hn : n.toNat ≤ s.cfg.maxFrames.toNat) (hc : blobBase n ≤ s.cfg.cap.toNat)
      (hidx : u.idx = 20) : ExecCase s (.cwBegin n w h fps) (respondOk [] (openConversion u))
  | frameFails {px : List Pixel} {u : State} {e : Status} (hp : s.phase = .opened) (hu : RegistersKept s u)
      (he : isSticky e = true) : ExecCase s (.cwFrame px) (failWith e u)
  | framePlaced {px : List Pixel} {u : State} {len : Nat} (hp : s.phase = .opened) (hu : RegistersKept s u)
      (hk : s.k ≠ s.n) (hc : s.pos.toNat + len ≤ s.cfg.cap.toNat) :
      ExecCase s (.cwFrame px) (respondOk [] (recordFrame len u))
  | finalizeFails {u : State} {e : Status} (hp : s.phase = .opened) (hu : PatchSide s u) (he : isSticky e = true) :
      ExecCase s .cwFinalize (failWith e u)
  | finalizes {u : State} (hp : s.phase = .opened) (hu : PatchSide s u) :
      ExecCase s .cwFinalize (respondOk [] { u with phase := .done, finished := true })

theorem execCase_cwBegin (n : Word) (w h : Half) (fps : Byte) (s : State) :
    ExecCase s (.cwBegin n w h fps) (runBegin n w h fps s) := by
  rcases runBegin_sum n w h fps s with ⟨hp, eq⟩ | ⟨hp, u, hu, ⟨e, he, eq⟩ | ⟨hn, hc, hidx, eq⟩⟩ <;> rw [eq]
  · exact .quiet (fun _ => decide_eq_false hp) (registersKept_reject _ s)
  · exact .beginFails hp hu (by rcases he with rfl | rfl <;> rfl)
  · exact .beginOpens hp hu hn hc hidx

theorem execCase_cwFrame (px : List Pixel) (s : State) : ExecCase s (.cwFrame px) (runFrame px s) := by
  rcases runFrame_cases px s with ⟨hp, eq⟩ | ⟨hp, ⟨e, he, eq⟩ | ⟨hk, -, hc, ⟨-, eq⟩ | ⟨-, eq⟩⟩⟩ <;> rw [eq]
  · exact .quiet (fun _ => decide_eq_false hp) (registersKept_reject _ s)
  · exact .frameFails hp (.refl s) (by rcases he with rfl | rfl | rfl <;> rfl)
  · exact .frameFails hp (sinkPlace_registersKept hc) rfl
  · exact .framePlaced hp (sinkPlace_registersKept hc) hk hc

theorem execCase_cwFinalize (s : State) : ExecCase s .cwFinalize (runFinalize s) := by
  rcases runFinalize_sum s with ⟨hp, eq⟩ | ⟨hp, u, hu, ⟨e, he, eq⟩ | eq⟩ <;> rw [eq]
  · exact .quiet (fun _ => decide_eq_false hp) (registersKept_reject _ s)
  · exact .finalizeFails hp hu (by rcases he with rfl | rfl <;> rfl)
  · exact .finalizes hp hu

theorem exec_cases {i : Instr} {s t : State} (hx : exec i s = .next t) : ExecCase s i t := by
  cases hi : isContainerOp i with
  | false => exact .quiet (fun h => absurd h (by simp [hi])) (exec_registersKept hi hx)
  | true =>
    cases i with
    | cwBegin n w h fps => cases hx; exact execCase_cwBegin n w h fps s
    | cwFrame px => cases hx; exact execCase_cwFrame px s
    | cwFinalize => cases hx; exact execCase_cwFinalize s
    | quant r g b => cases hi
    | rleEnc v => cases hi
    | rdreg a => cases hi
    | illegal op => cases hi
    | run n c => cases hi
    | lit vs => cases hi

/-! ## What one step can do -/

/-- What a step makes of `s` before the reset that may end it: nothing that the registers show, or the execution of
the fetched instruction. -/
inductive StepBody (s t : State) : Prop where
  | quiet (ht : RegistersKept s t)
  | operation {i : Instr} {s1 u : State} (hf : fetch s = .ok (i, s1)) (hx : exec i s1 = .next u)
      (hu : RegistersKept u t)

theorem StepBody.cfg {s t : State} (h : StepBody s t) : t.cfg = s.cfg := by
  cases h with
  | quiet ht => exact ht.cfg
  | operation hf hx hu => exact hu.cfg.trans ((exec_keeps hx).cfg.trans (fetch_registersKept hf).cfg)

theorem StepBody.resets {s t : State} (h : StepBody s t) : t.resets = s.resets := by
  cases h with
  | quiet ht => exact ht.resets
  | operation hf hx hu => exact hu.resets.trans ((exec_keeps hx).resets.trans (fetch_registersKept hf).resets)

theorem registersReset_takeReset (s : State) : RegistersReset (takeReset s) := ⟨rfl, rfl, rfl, rfl, rfl, rfl, rfl, rfl⟩

/-- Between operations the host keeps the registers or resets the core. -/
theorem hostAct_sum {e : HostEvent} {s t : State} (h : hostAct e s = .next t) :
    RegistersKept s t ∨ t = takeReset s := by
  rcases hostAct_next h with ⟨b, -, rfl⟩ | rfl | ⟨-, rfl⟩ | ⟨bs, rfl⟩ | ⟨-, bs, rfl⟩
  · exact .inl (registersKept_of_eq rfl)
  · exact .inr rfl
  · exact .inl ⟨⟨rfl, rfl, rfl, rfl, rfl, rfl, rfl, rfl⟩, rfl, rfl, rfl, rfl, rfl, Bool.noConfusion,
      fun _ => List.Pairwise.nil, fun _ => nofun⟩
  · exact .inl (registersKept_of_eq rfl)
  · exact .inl (registersKept_of_eq rfl)

/-- During an operation the host keeps the registers or resets the core, and then a container that the operation
finished does not count (R264, R272). -/
theorem hostDuring_sum {b u t : State} {es : List HostEvent} (h : hostDuring b es u = .next t) :
    RegistersKept u t ∨
      ∃ v, RegistersKept u v ∧ (v.finished = true → b.finished = true) ∧ t = takeReset v := by
  obtain ⟨rs, es', rfl | rfl⟩ := hostDuring_next h
  · exact .inl (registersKept_of_eq rfl)
  · refine .inr ⟨_, ?_, fun hv => ?_, rfl⟩
    · exact ⟨⟨rfl, rfl, rfl, rfl, rfl, rfl, rfl, rfl⟩, rfl, rfl, rfl, rfl, rfl,
        fun hv => (Bool.and_eq_true_iff.1 hv).2, id, fun _ => .inr⟩
    · exact (Bool.and_eq_true_iff.1 hv).1

/-- Everything a step can do: its body, and perhaps a reset after it. -/
theorem step_sum {s t : State} (h : step s = .next t) :
    StepBody s t ∨ ∃ v, StepBody s v ∧ (v.finished = true → s.finished = true) ∧ t = takeReset v := by
  rcases step_cases h with ⟨i, s1, u, hf, hx, hd⟩ | ⟨-, -, rfl | ⟨e, es, -, ha⟩⟩
  · rcases hostDuring_sum hd with hu | ⟨v, hv, hfin, rfl⟩
    · exact .inl (.operation hf hx hu)
    · exact .inr ⟨v, .operation hf hx hv, hfin, rfl⟩
  · exact .inl (.quiet (.refl _))
  · have hs : RegistersKept s { s with input := es } := registersKept_of_eq rfl
    rcases hostAct_sum ha with ht | rfl
    · exact .inl (.quiet (hs.trans ht))
    · exact .inr ⟨_, .quiet hs, id, rfl⟩

end Sys2Proof.Machine
end

section
/-! The state family (spec/10_state.md): who writes the phase, `ERR` and the metadata. -/

namespace Sys2Proof.Machine

/-! ## The phase (R21, R189) -/

theorem ExecCase.phase {i : Instr} {s t : State} (h : ExecCase s i t) :
    t.phase = s.phase ∨ (s.phase = .idle ∧ (t.phase = .opened ∨ t.phase = .failed)) ∨
      (s.phase = .opened ∧ (t.phase = .done ∨ t.phase = .failed)) := by
  cases h with
  | quiet _ ht => exact .inl ht.phase
  | beginFails hp => exact .inr (.inl ⟨hp, .inr rfl⟩)
  | beginOpens hp => exact .inr (.inl ⟨hp, .inl rfl⟩)
  | frameFails hp => exact .inr (.inr ⟨hp, .inr rfl⟩)
  | framePlaced hp hu => exact .inl hu.phase
  | finalizeFails hp => exact .inr (.inr ⟨hp, .inr rfl⟩)
  | finalizes hp => exact .inr (.inr ⟨hp, .inl rfl⟩)

theorem ExecCase.finished {i : Instr} {s t : State} (h : ExecCase s i t) (ht : t.finished = true) :
    s.finished = true ∨ (s.phase = .opened ∧ t.phase = .done ∧ i = .cwFinalize) := by
  cases h with
  | quiet _ hk => exact .inl (hk.finished ht)
  | beginFails hp hu => cases hu.finished.symm.trans ht
  | beginOpens hp hu => cases hu.finished.symm.trans ht
  | frameFails hp hu => exact .inl (hu.finished ht)
  | framePlaced hp hu => exact .inl (hu.finished ht)
  | finalizeFails hp hu => exact .inl (hu.side.finished.symm.trans ht)
  | finalizes hp => exact .inr ⟨hp, rfl, rfl⟩

theorem StepBody.phase {s t : State} (h : StepBody s t) :
    t.phase = s.phase ∨ (s.phase = .idle ∧ (t.phase = .opened ∨ t.phase = .failed)) ∨
      (s.phase = .opened ∧ (t.phase = .done ∨ t.phase = .failed)) := by
  cases h with
  | quiet ht => exact .inl ht.phase
  | operation hf hx hu =>
    rw [hu.phase, ← (fetch_registersKept hf).phase]
    exact (exec_cases hx).phase

theorem StepBody.finished {s t : State} (h : StepBody s t) (ht : t.finished = true) :
    s.finished = true ∨ (s.phase = .opened ∧ t.phase = .done ∧ ∃ s1, fetch s = .ok (.cwFinalize, s1)) := by
  cases h with
  | quiet hk => exact .inl (hk.finished ht)
  | @operation i s1 u hf hx hu =>
    have hs := fetch_registersKept hf
    rcases (exec_cases hx).finished (hu.finished ht) with h | ⟨hp, hd, rfl⟩
    · exact .inl (hs.finished h)
    · exact .inr ⟨hs.phase ▸ hp, hu.phase.trans hd, s1, hf⟩

/-- Settles O51: the body of a step moves the phase as its instruction does, and a reset, which ends in IDLE, leaves no
container finished that was not. -/
theorem phaseTransitions : Obligations.PhaseTransitions := by
  intro s t h
  rcases step_sum h with hb | ⟨v, hb, hfin, rfl⟩
  · exact ⟨hb.phase.imp_right (Or.imp_right .inl), hb.finished⟩
  · have hr : (takeReset v).resets = s.resets + 1 := congrArg (· + 1) hb.resets
    exact ⟨.inr (.inr (.inr ⟨rfl, registersReset_takeReset v, hr⟩)), fun hf => .inl (hfin hf)⟩

/-! ## The error cause (R22) -/

theorem ExecCase.err {i : Instr} {s t : State} (h : ExecCase s i t) :
    t.err = s.err ∨ ((s.phase = .idle ∨ s.phase = .opened) ∧ t.phase = .failed ∧
      ∃ e, isSticky e = true ∧ t.err = statusCode e) := by
  cases h with
  | quiet _ ht => exact .inl ht.err
  | beginFails hp _ he => exact .inr ⟨.inl hp, rfl, _, he, rfl⟩
  | beginOpens hp hu => exact .inl hu.err
  | frameFails hp _ he => exact .inr ⟨.inr hp, rfl, _, he, rfl⟩
  | framePlaced hp hu => exact .inl hu.err
  | finalizeFails hp _ he => exact .inr ⟨.inr hp, rfl, _, he, rfl⟩
  | finalizes hp hu => exact .inl hu.side.err

theorem StepBody.err {s t : State} (h : StepBody s t) :
    t.err = s.err ∨ ((s.phase = .idle ∨ s.phase = .opened) ∧ t.phase = .failed ∧
      ∃ e, isSticky e = true ∧ t.err = statusCode e) := by
  cases h with
  | quiet ht => exact .inl ht.err
  | operation hf hx hu =>
    have hs := fetch_registersKept hf
    rw [hu.err, hu.phase, ← hs.err, ← hs.phase]
    exact (exec_cases hx).err

/-- Settles O52: only the sticky exits of the container operations store a code, and only a reset clears it. -/
theorem errWrittenByFailAndReset : Obligations.ErrWrittenByFailAndReset := by
  intro s t h
  rcases step_sum h with hb | ⟨v, hb, -, rfl⟩
  · exact hb.err.imp_right .inl
  · exact .inr (.inr ⟨rfl, congrArg (· + 1) hb.resets⟩)

/-! ## The metadata (R23) -/

/-- A `CW_BEGIN` in IDLE stores its operands as the metadata, and every other instruction keeps what is stored. -/
theorem ExecCase.metadata {i : Instr} {s t : State} (hx : ExecCase s i t) :
    (∃ n w h fps, i = .cwBegin n w h fps ∧ s.phase = .idle ∧ t.n = n ∧ t.w = w ∧ t.h = h ∧ t.fps = fps) ∨
    ((∀ n w h fps, i = .cwBegin n w h fps → s.phase ≠ .idle) ∧
      t.n = s.n ∧ t.w = s.w ∧ t.h = s.h ∧ t.fps = s.fps) := by
  cases hx with
  | quiet hi ht =>
    refine .inr ⟨?_, ht.n, ht.w, ht.h, ht.fps⟩
    rintro n w h fps rfl
    exact of_decide_eq_false (hi rfl)
  | beginFails hp hu => exact .inl ⟨_, _, _, _, rfl, hp, hu.metadata⟩
  | beginOpens hp hu => exact .inl ⟨_, _, _, _, rfl, hp, hu.metadata⟩
  | frameFails hp hu => exact .inr ⟨nofun, hu.n, hu.w, hu.h, hu.fps⟩
  | framePlaced hp hu => exact .inr ⟨nofun, hu.n, hu.w, hu.h, hu.fps⟩
  | finalizeFails hp hu => exact .inr ⟨nofun, hu.side.n, hu.side.w, hu.side.h, hu.side.fps⟩
  | finalizes hp hu => exact .inr ⟨nofun, hu.side.n, hu.side.w, hu.side.h, hu.side.fps⟩

theorem StepBody.metadata {s t : State} (hb : StepBody s t) :
    (t.n = s.n ∧ t.w = s.w ∧ t.h = s.h ∧ t.fps = s.fps) ∨
    (s.phase = .idle ∧ ∃ n w h fps s1, fetch s = .ok (.cwBegin n w h fps, s1) ∧
      t.n = n ∧ t.w = w ∧ t.h = h ∧ t.fps = fps) := by
  cases hb with
  | quiet ht => exact .inl ⟨ht.n, ht.w, ht.h, ht.fps⟩
  | @operation i s1 u hf hx hu =>
    have hs := fetch_registersKept hf
    rw [hu.n, hu.w, hu.h, hu.fps, ← hs.phase, ← hs.n, ← hs.w, ← hs.h, ← hs.fps]
    rcases (exec_cases hx).metadata with ⟨n, w, h, fps, rfl, hp, hm⟩ | ⟨-, hm⟩
    · exact .inr ⟨hp, n, w, h, fps, s1, hf, hm⟩
    · exact .inl hm

/-- Settles O53: a `CW_BEGIN` in IDLE stores its operands before anything can fail, and nothing else but a reset
touches the metadata. -/
theorem metadataWrittenByBegin : Obligations.MetadataWrittenByBegin := by
  refine ⟨fun i s t hx => (exec_cases hx).metadata, fun s t h => ?_⟩
  rcases step_sum h with hb | ⟨v, hb, -, rfl⟩
  · exact ⟨hb.cfg, hb.metadata.imp_right .inl⟩
  · exact ⟨hb.cfg, .inr (.inr ⟨rfl, rfl, rfl, rfl, congrArg (· + 1) hb.resets⟩)⟩

end Sys2Proof.Machine
end

section
/-! The state family (spec/10_state.md): the invariant of the state (R33) holds at reset and every step keeps it. -/

namespace Sys2Proof.Machine

/-! ## The tables (R26) -/

theorem TablesKept.sizeAt {s t : State} (h : TablesKept s t) (i : Nat) : Machine.sizeAt t i = Machine.sizeAt s i := by
  rw [Machine.sizeAt, Machine.sizeAt, h.size, h.resets]

theorem TablesKept.offAt {s t : State} (h : TablesKept s t) (i : Nat) : Machine.offAt t i = Machine.offAt s i := by
  rw [Machine.offAt, Machine.offAt, h.off, h.resets]

theorem sizeSum_congr {s t : State} {m : Nat} (h : ∀ i, i < m → sizeAt t i = sizeAt s i) : sizeSum t m = sizeSum s m := by
  induction m with
  | zero => rfl
  | succ m ih => rw [sizeSum, sizeSum, ih fun i hi => h i (by omega), h m (by omega)]

theorem offAt_recordFrame (len : Nat) (s : State) (i : Nat) :
    offAt (recordFrame len s) i = if i = s.k.toNat then s.pos else offAt s i := by
  rw [offAt, recordFrame_off, cellGet_cellSet]
  split_ifs <;> rfl

theorem sizeAt_recordFrame (len : Nat) (s : State) (i : Nat) :
    sizeAt (recordFrame len s) i = if i = s.k.toNat then BitVec.ofNat 32 len else sizeAt s i := by
  rw [sizeAt, recordFrame_size, cellGet_cellSet]
  split_ifs <;> rfl

theorem sizeSum_recordFrame_of_le (len : Nat) {s : State} {m : Nat} (hm : m ≤ s.k.toNat) :
    sizeSum (recordFrame len s) m = sizeSum s m :=
  sizeSum_congr fun i hi => by rw [sizeAt_recordFrame, if_neg (by omega)]

theorem recordFrame_k_toNat (len : Nat) {s : State} (hk : s.k.toNat < s.n.toNat) :
    (recordFrame len s).k.toNat = s.k.toNat + 1 := by
  rw [recordFrame_k]
  bv_omega

theorem recordFrame_pos_toNat {len : Nat} {s : State} (hc : s.pos.toNat + len ≤ s.cfg.cap.toNat) :
    (recordFrame len s).pos.toNat = s.pos.toNat + len := by
  have := s.cfg.cap.isLt
  rw [recordFrame_pos, BitVec.toNat_ofNat, Nat.mod_eq_of_lt (by omega)]

theorem openConversion_pos_toNat {s : State} {c : Word} (hc : blobBase s.n ≤ c.toNat) :
    (openConversion s).pos.toNat = blobBase s.n := by
  rw [openConversion_pos, BitVec.toNat_ofNat, Nat.mod_eq_of_lt (by omega)]

/-! ## The invariants of R33 -/

theorem ConversionInv.of_tablesKept {s t : State} (hs : ConversionInv s) (h : TablesKept s t) : ConversionInv t := by
  have hsum : ∀ m, sizeSum t m = sizeSum s m := fun m => sizeSum_congr fun i _ => h.sizeAt i
  refine ⟨h.idx.trans hs.idx_eq, ?_, fun i hi => ?_, ?_⟩
  · rw [h.n, h.cfg]
    exact hs.n_le
  · rw [h.offAt, h.n, hsum]
    exact hs.off_eq i (h.k ▸ hi)
  · rw [h.pos, h.n, h.k, hsum]
    exact hs.pos_eq

/-- With no frame placed, the blob region is empty. -/
theorem conversionInv_openConversion {s : State} (hidx : s.idx = 20) (hn : s.n.toNat ≤ s.cfg.maxFrames.toNat)
    (hc : blobBase s.n ≤ s.cfg.cap.toNat) : ConversionInv (openConversion s) :=
  ⟨hidx, hn, fun i hi => absurd hi (Nat.not_lt_zero i), openConversion_pos_toNat hc⟩

/-- The frame placed begins where the sizes before it end, and `POS` moves by its size. -/
theorem ConversionInv.recordFrame {s : State} (hs : ConversionInv s) {len : Nat} (hk : s.k.toNat < s.n.toNat)
    (hc : s.pos.toNat + len ≤ s.cfg.cap.toNat) : ConversionInv (recordFrame len s) := by
  refine ⟨hs.idx_eq, hs.n_le, fun i hi => ?_, ?_⟩
  · rw [recordFrame_k_toNat len hk] at hi
    rw [offAt_recordFrame, recordFrame_n, sizeSum_recordFrame_of_le len (by omega)]
    split_ifs with h
    · rw [h]
      exact hs.pos_eq
    · exact hs.off_eq i (by omega)
  · have hlen : (BitVec.ofNat 32 len).toNat = len := by
      have := s.cfg.cap.isLt
      rw [BitVec.toNat_ofNat, Nat.mod_eq_of_lt (by omega)]
    rw [recordFrame_pos_toNat hc, recordFrame_n, recordFrame_k_toNat len hk, sizeSum,
      sizeSum_recordFrame_of_le len le_rfl, sizeAt_recordFrame, if_pos rfl, hlen, hs.pos_eq, Nat.add_assoc]

/-! ## The part of the invariant that no phase changes -/

/-- The clauses of `Inv` that speak of no phase: the canonical forms and the bounds (R24, R26, R27, R51, R56). -/
structure Bounds (s : State) : Prop where
  sink_wf : Memory.wf s.sink
  sink_below_cap : ∀ c, c ∈ s.sink → c.1 < s.cfg.cap.toNat
  off_wf : Cells.wf s.off
  size_wf : Cells.wf s.size
  off_bound : ∀ c, c ∈ s.off → c.1 < s.cfg.maxFrames.toNat
  size_bound : ∀ c, c ∈ s.size → c.1 < s.cfg.maxFrames.toNat
  pos_le : s.pos.toNat ≤ s.cfg.cap.toNat
  k_le : s.k.toNat ≤ s.n.toNat

theorem Inv.bounds {s : State} (h : Inv s) : Bounds s :=
  ⟨h.sink_wf, h.sink_below_cap, h.off_wf, h.size_wf, h.off_bound, h.size_bound, h.pos_le, h.k_le⟩

theorem Bounds.of_tablesKept {s t : State} (hs : Bounds s) (h : TablesKept s t)
    (wf : Memory.wf s.sink → Memory.wf t.sink)
    (mem : ∀ c, c ∈ t.sink → c.1 < s.cfg.cap.toNat ∨ c ∈ s.sink) : Bounds t where
  sink_wf := wf hs.sink_wf
  sink_below_cap c hc := by
    rw [h.cfg]
    exact (mem c hc).elim id (hs.sink_below_cap c)
  off_wf := h.off ▸ hs.off_wf
  size_wf := h.size ▸ hs.size_wf
  off_bound := by
    rw [h.off, h.cfg]
    exact hs.off_bound
  size_bound := by
    rw [h.size, h.cfg]
    exact hs.size_bound
  pos_le := by
    rw [h.pos, h.cfg]
    exact hs.pos_le
  k_le := by
    rw [h.k, h.n]
    exact hs.k_le

/-- Inside a `CW_BEGIN` from IDLE, where `K` is 0. -/
theorem Bounds.of_headSide {n : Word} {w h : Half} {fps : Byte} {s u : State} (hs : Bounds s) (hk : s.k = 0)
    (hu : HeadSide n w h fps s u) : Bounds u := by
  refine ⟨hu.wf hs.sink_wf, ?_, hu.off ▸ hs.off_wf, hu.size ▸ hs.size_wf, ?_, ?_, ?_, ?_⟩
  · intro c hc
    rw [hu.cfg]
    rcases hu.mem c hc with ⟨hlt, hcap⟩ | hold
    · exact hlt.trans_le hcap
    · exact hs.sink_below_cap c hold
  · rw [hu.off, hu.cfg]
    exact hs.off_bound
  · rw [hu.size, hu.cfg]
    exact hs.size_bound
  · rw [hu.cfg]
    rcases hu.pos with ⟨-, hpos⟩ | ⟨-, hpos, hcap⟩
    · rw [hpos]
      exact hs.pos_le
    · rw [hpos]
      exact (Nat.le_add_right _ _).trans hcap
  · rw [hu.k, hk]
    exact Nat.zero_le _

theorem Bounds.openConversion {s : State} (hs : Bounds s) (hc : blobBase s.n ≤ s.cfg.cap.toNat) :
    Bounds (openConversion s) where
  sink_wf := hs.sink_wf
  sink_below_cap := hs.sink_below_cap
  off_wf := hs.off_wf
  size_wf := hs.size_wf
  off_bound := hs.off_bound
  size_bound := hs.size_bound
  pos_le := (openConversion_pos_toNat hc).trans_le hc
  k_le := Nat.zero_le _

theorem Bounds.recordFrame {s : State} (hs : Bounds s) {len : Nat} (hk : s.k.toNat < s.n.toNat)
    (hn : s.n.toNat ≤ s.cfg.maxFrames.toNat) (hc : s.pos.toNat + len ≤ s.cfg.cap.toNat) :
    Bounds (recordFrame len s) where
  sink_wf := hs.sink_wf
  sink_below_cap := hs.sink_below_cap
  off_wf := cellSet_wf _ _ hs.off_wf
  size_wf := cellSet_wf _ _ hs.size_wf
  off_bound c hmem := by
    rcases mem_cellSet hmem with rfl | hold
    · exact hk.trans_le hn
    · exact hs.off_bound c hold
  size_bound c hmem := by
    rcases mem_cellSet hmem with rfl | hold
    · exact hk.trans_le hn
    · exact hs.size_bound c hold
  pos_le := (recordFrame_pos_toNat hc).trans_le hc
  k_le := (recordFrame_k_toNat len hk).trans_le hk

/-! ## The invariant in each phase -/

/-- In OPEN and DONE the bounds, R33 and a zero `ERR` are the invariant, if no container is finished in OPEN. -/
theorem inv_of_conversion {s : State} (hp : s.phase = .opened ∨ s.phase = .done) (hb : Bounds s) (herr : s.err = 0)
    (hc : ConversionInv s) (hfin : s.phase = .opened → s.finished = false) : Inv s := by
  have hnf : s.phase ≠ .failed := by rcases hp with hp | hp <;> simp [hp]
  have hni : s.phase ≠ .idle := by rcases hp with hp | hp <;> simp [hp]
  exact { hb with
    err_failed := fun h => absurd h hnf
    err_zero := fun _ => herr
    idle_reset := fun h => absurd h hni
    conversion := fun _ => hc
    unfinished := fun h => h.elim hfin fun h => absurd h hnf }

/-- The sticky exit leads to the invariant of FAILED (R22, R233). -/
theorem Bounds.inv_failWith {s : State} (hs : Bounds s) {e : Status} (he : isSticky e = true)
    (hfin : s.finished = false) : Inv (failWith e s) :=
  { hs with
    err_failed := fun _ => ⟨e, he, rfl⟩
    err_zero := fun h => absurd rfl h
    idle_reset := nofun
    conversion := fun h => h.elim nofun nofun
    unfinished := fun _ => hfin }

/-- A reset leads to the invariant of IDLE (R35). -/
theorem Inv.takeReset {s : State} (hs : Inv s) : Inv (takeReset s) where
  sink_wf := hs.sink_wf
  sink_below_cap := hs.sink_below_cap
  off_wf := List.Pairwise.nil
  size_wf := List.Pairwise.nil
  off_bound _ := nofun
  size_bound _ := nofun
  pos_le := Nat.zero_le _
  k_le := le_rfl
  err_failed := nofun
  err_zero _ := rfl
  idle_reset _ := registersReset_takeReset s
  conversion h := h.elim nofun nofun
  unfinished h := h.elim nofun nofun

theorem Inv.of_registersKept {s t : State} (hs : Inv s) (h : RegistersKept s t) : Inv t :=
  { hs.bounds.of_tablesKept h.toTablesKept h.wf h.mem with
    err_failed := by
      rw [h.phase, h.err]
      exact hs.err_failed
    err_zero := by
      rw [h.phase, h.err]
      exact hs.err_zero
    idle_reset := by
      rw [h.phase, RegistersReset, h.n, h.w, h.h, h.fps, h.idx, h.pos, h.k, h.err]
      exact hs.idle_reset
    conversion := by
      rw [h.phase]
      exact fun hp => (hs.conversion hp).of_tablesKept h.toTablesKept
    unfinished := by
      rw [h.phase]
      exact fun hp => Bool.eq_false_iff.2 fun hf => by simpa [hs.unfinished hp] using h.finished hf }

/-- In OPEN the whole index lies below `POS`. -/
theorem ConversionInv.blobBase_le_pos {s : State} (hs : ConversionInv s) : blobBase s.n ≤ s.pos.toNat := by
  rw [hs.pos_eq]
  exact Nat.le_add_right _ _

/-- The patches of a `CW_FINALIZE` fall into the header and the index, which lie below `CAP` (R56). -/
theorem PatchSide.registersKept {s u : State} (hu : PatchSide s u) (hb : Bounds s) (hc : ConversionInv s) :
    RegistersKept s u := by
  refine hu.side.registersKept hu.wf fun c hmem => ?_
  have hidx : s.idx.toNat = 20 := by rw [hc.idx_eq]; rfl
  have hbase := hc.blobBase_le_pos
  have hpos := hb.pos_le
  have hk := hb.k_le
  simp only [blobBase, Config.headerSize, Config.entrySize] at hbase
  rcases hu.mem c hmem with h | ⟨-, h⟩ | h
  · exact .inl (by omega)
  · exact .inl (by omega)
  · exact .inr h

/-! ## Every instruction and every step keep the invariant -/

theorem Inv.of_execCase {i : Instr} {s t : State} (hs : Inv s) (h : ExecCase s i t) : Inv t := by
  cases h with
  | quiet _ ht => exact hs.of_registersKept ht
  | beginFails hp hu he =>
    obtain ⟨-, -, -, -, -, -, hk, -⟩ := hs.idle_reset hp
    exact (hs.bounds.of_headSide hk hu).inv_failWith he hu.finished
  | @beginOpens n w h fps u hp hu hn hc hidx =>
    obtain ⟨-, -, -, -, -, -, hk, herr⟩ := hs.idle_reset hp
    obtain ⟨hn', -, -, -⟩ := hu.metadata
    rw [← hu.cfg, ← hn'] at hn hc
    refine Inv.of_registersKept ?_ (registersKept_respondOk [] _)
    exact inv_of_conversion (.inl rfl) ((hs.bounds.of_headSide hk hu).openConversion hc)
      (hu.err.trans herr) (conversionInv_openConversion hidx hn hc) fun _ => hu.finished
  | frameFails hp hu he =>
    have hp' := hu.phase.trans hp
    have hinv := hs.of_registersKept hu
    exact hinv.bounds.inv_failWith he (hinv.unfinished (.inl hp'))
  | @framePlaced px u len hp hu hk hc =>
    have hp' := hu.phase.trans hp
    have hinv := hs.of_registersKept hu
    have hconv := hinv.conversion (.inl hp')
    rw [← hu.k, ← hu.n] at hk
    rw [← hu.pos, ← hu.cfg] at hc
    have hlt : u.k.toNat < u.n.toNat := lt_of_le_of_ne hinv.k_le fun h => hk (BitVec.eq_of_toNat_eq h)
    refine Inv.of_registersKept ?_ (registersKept_respondOk [] _)
    exact inv_of_conversion (.inl hp') (hinv.bounds.recordFrame hlt hconv.n_le hc)
      (hinv.err_zero (by simp [hp'])) (hconv.recordFrame hlt hc) fun _ => hinv.unfinished (.inl hp')
  | finalizeFails hp hu he =>
    have hinv := hs.of_registersKept (hu.registersKept hs.bounds (hs.conversion (.inl hp)))
    exact hinv.bounds.inv_failWith he (hinv.unfinished (.inl (hu.side.phase.trans hp)))
  | @finalizes u hp hu =>
    have hp' := hu.side.phase.trans hp
    have hinv := hs.of_registersKept (hu.registersKept hs.bounds (hs.conversion (.inl hp)))
    have htab : TablesKept u { u with phase := .done, finished := true } := ⟨rfl, rfl, rfl, rfl, rfl, rfl, rfl, rfl⟩
    refine Inv.of_registersKept ?_ (registersKept_respondOk [] _)
    exact inv_of_conversion (.inr rfl) (hinv.bounds.of_tablesKept htab id fun _ => .inr)
      (hinv.err_zero (by simp [hp'])) ((hinv.conversion (.inl hp')).of_tablesKept htab) nofun

theorem StepBody.inv {s t : State} (h : StepBody s t) (hs : Inv s) : Inv t := by
  cases h with
  | quiet ht => exact hs.of_registersKept ht
  | operation hf hx hu =>
    exact ((hs.of_registersKept (fetch_registersKept hf)).of_execCase (exec_cases hx)).of_registersKept hu

/-- Settles O55: the body of a step keeps the invariant, and so does the reset that may end it. -/
theorem invariantKept : Obligations.InvariantKept := by
  intro s t hs h
  rcases step_sum h with hb | ⟨v, hb, -, rfl⟩
  · exact hb.inv hs
  · exact (hb.inv hs).takeReset

/-- Settles O54: nothing is stored at power-on, and every register holds its reset value. -/
theorem invariantAtReset : Obligations.InvariantAtReset where
  sink_wf := List.Pairwise.nil
  sink_below_cap _ := nofun
  off_wf := List.Pairwise.nil
  size_wf := List.Pairwise.nil
  off_bound _ := nofun
  size_bound _ := nofun
  pos_le := Nat.zero_le _
  k_le := le_rfl
  err_failed := nofun
  err_zero _ := rfl
  idle_reset _ := ⟨rfl, rfl, rfl, rfl, rfl, rfl, rfl, rfl⟩
  conversion h := h.elim nofun nofun
  unfinished h := h.elim nofun nofun

end Sys2Proof.Machine
end

section
/-! The state family (spec/10_state.md): power-on, refusals, and what the host does between packets. -/

namespace Sys2Proof.Machine

/-! ## Power-on and refusals -/

/-- Settles O48: each clause is a field of the power-on state, and the empty tables leave every entry unspecified. -/
theorem powerOnState : Obligations.PowerOnState :=
  ⟨rfl, ⟨rfl, rfl, rfl, rfl, rfl, rfl, rfl, rfl⟩, rfl, rfl, rfl, fun _ => ⟨rfl, rfl⟩, rfl, rfl, rfl, rfl⟩

/-- Settles O32: a rejection only emits the code of `BAD_SEQUENCE`. -/
theorem outOfPhaseRefused : Obligations.OutOfPhaseRefused := fun _ _ => exec_outOfPhase

/-! ## The host between packets -/

/-- With no complete packet held, a step is the host's next act (R28, R100). -/
theorem step_hostAct {s : State} {e : HostEvent} {es : List HostEvent} (hs : s.segs = [])
    (hd : decodeCommand s.port = .error .incompletePacket) (hi : s.input = e :: es) :
    step s = hostAct e { s with input := es } := by
  rw [step_await hs hd, awaitHost, hi]

/-- A read within the sink gives the bytes that stand there (R60). -/
theorem hostRead_ok {s : State} {addr n : Nat} {bs : List Byte} (hin : n = 0 ∨ addr + n ≤ s.cfg.cap.toNat)
    (hl : bs.length = n) (hcells : ∀ j, j < n → cellGet s.sink (addr + j) = bs[j]?) : hostRead addr n s = .ok bs := by
  have hleaves : leavesSink addr n s = false := decide_eq_false (by omega)
  rw [hostRead, hleaves, readBytes_eq_some.2 ⟨hl, hcells⟩]
  rfl

theorem bindSink_of_ne_opened {s : State} (hp : s.phase ≠ .opened) :
    bindSink s = .next { s with sink := [], finished := false } := if_neg hp

theorem bindSink_of_opened {s : State} (hp : s.phase = .opened) : bindSink s = .refused .rebindDuringConversion :=
  if_pos hp

theorem startDecoder_of_finished {s : State} {addr n : Nat} {bs : List Byte} (hf : s.finished = true)
    (hr : hostRead addr n s = .ok bs) : startDecoder addr n s = .next { s with segs := bs, frame := [] } := by
  rw [startDecoder, if_pos hf, hr]

theorem startDecoder_of_unfinished {s : State} (addr n : Nat) (hf : s.finished = false) :
    startDecoder addr n s = .refused .noFinishedContainer := by
  rw [startDecoder, if_neg (by simp [hf])]

/-- Settles O8: every clause is the host's act that stands first, taken on the state without it. -/
theorem hostActsBetweenPackets : Obligations.HostActsBetweenPackets := by
  intro s hs hd
  refine ⟨fun hi => ?_, fun b es hi => step_hostAct hs hd hi, fun es hi hp => ?_, fun es hi hp => ?_, fun es hi => ?_,
    fun addr n es hi => ?_, fun addr n es hi hf hin bs hl hcells => ?_, fun addr n es hi hf => ?_⟩
  · rw [step_await hs hd, awaitHost, hi]
  · rw [step_hostAct hs hd hi]
    exact bindSink_of_ne_opened hp
  · rw [step_hostAct hs hd hi]
    exact bindSink_of_opened hp
  · rw [step_hostAct hs hd hi, step_hostAct (s := { s with input := .reset :: es }) hs hd rfl]
    rfl
  · rw [step_hostAct hs hd hi, step_hostAct (s := { s with input := .memRead addr n :: es }) hs hd rfl]
    rfl
  · rw [step_hostAct hs hd hi]
    exact startDecoder_of_finished hf (hostRead_ok hin hl hcells)
  · rw [step_hostAct hs hd hi]
    exact startDecoder_of_unfinished addr n hf

/-- Settles O46: the reset input is an act of the host like any other, and it empties both tables. -/
theorem resetBetweenPackets : Obligations.ResetBetweenPackets := by
  intro s es hs hd hi
  exact ⟨_, step_hostAct hs hd hi, rfl, fun i => ⟨rfl, rfl⟩⟩

end Sys2Proof.Machine
end

section
/-! The memory family (spec/20_memory.md): one write transaction, the host's reads of the sink between and during
operations, and that the core never reads it. -/

namespace Sys2Proof.Machine

/-! ## One write transaction -/

/-- Settles O27: a transaction draws the next answer, and stores its bytes or scrambles its addresses accordingly. -/
theorem sinkWriteEffect : Obligations.SinkWriteEffect := by
  intro addr bs s
  have hout : ∀ x, x < addr ∨ addr + bs.length ≤ x →
      cellGet (sinkWrite addr bs s).2.sink x = cellGet s.sink x := fun _ => sinkWrite_outside s
  have hwf : Memory.wf s.sink → Memory.wf (sinkWrite addr bs s).2.sink := sinkWrite_wf addr bs
  rcases sinkWrite_cases addr bs s with ⟨hok, eq⟩ | ⟨hfail, eq⟩
  · refine ⟨by rw [eq, hok], by rw [eq]; rfl, hout, fun _ j hj => ?_, fun hf => ?_, hwf⟩
    · rw [eq, cellGet_writeBytes, if_pos (by omega), Nat.add_sub_cancel_left]
    · cases hok.symm.trans hf
  · refine ⟨by rw [eq, hfail], by rw [eq]; rfl, hout, fun hok => ?_, fun _ j hj => ?_, hwf⟩
    · cases hfail.symm.trans hok
    · rw [eq, cellGet_scrambleBytes, if_pos (by omega)]

/-! ## A host read between operations -/

/-- A read of a byte that no value stands for faults (R60). -/
theorem hostRead_unwritten {s : State} {addr n j : Nat} (hin : addr + n ≤ s.cfg.cap.toNat) (hj : j < n)
    (hcell : cellGet s.sink (addr + j) = none) : hostRead addr n s = .error .unwrittenRead := by
  have hleaves : leavesSink addr n s = false := decide_eq_false (by omega)
  have hread : readBytes s.sink addr n = none := by
    refine Option.eq_none_iff_forall_ne_some.2 fun bs hbs => ?_
    obtain ⟨hl, hcells⟩ := readBytes_eq_some.1 hbs
    have hnone := (hcells j hj).symm.trans hcell
    rw [List.getElem?_eq_none_iff] at hnone
    omega
  rw [hostRead, hleaves, hread]
  rfl

/-- A read beyond `CAP` faults (R51, log 10). -/
theorem hostRead_outside {s : State} {addr n : Nat} (hn : n ≠ 0) (hout : s.cfg.cap.toNat < addr + n) :
    hostRead addr n s = .error .outsideSink :=
  if_pos (decide_eq_true ⟨hn, hout⟩)

theorem hostReadDone_ok {s : State} {addr n : Nat} {bs : List Byte} (h : hostRead addr n s = .ok bs) :
    hostReadDone addr n s = .next { s with reads := s.reads ++ [bs] } := by
  rw [hostReadDone, h]

theorem hostReadDone_error {s : State} {addr n : Nat} {f : Fault} (h : hostRead addr n s = .error f) :
    hostReadDone addr n s = .fault f := by
  rw [hostReadDone, h]

/-- Settles O28: with no packet held the step is the host's read, and each clause is one outcome of it. -/
theorem hostReadBetweenOperations : Obligations.HostReadBetweenOperations := by
  intro s addr n es hs hd hi
  rw [step_hostAct hs hd hi]
  refine ⟨fun hin bs hl hcells => ?_, fun hin hno => ?_, fun hn hout => ?_⟩
  · exact hostReadDone_ok (s := { s with input := es }) (hostRead_ok hin hl hcells)
  · obtain ⟨j, hj, hcell⟩ := hno
    exact hostReadDone_error (hostRead_unwritten hin hj hcell)
  · exact hostReadDone_error (hostRead_outside hn hout)

/-! ## A host read during an operation -/

/-- A racing read sees one of the values that R62 admits. -/
theorem racingCell_mem (k : Nat) (b u : State) (a : Nat) : racingCell k b u a ∈ racingViews b u a := by
  have hlt : Config.raceChoice k a % (racingViews b u a).length < (racingViews b u a).length :=
    Nat.mod_lt _ (Nat.succ_pos _)
  rw [racingCell, List.getD_eq_getElem _ _ hlt]
  exact List.getElem_mem hlt

theorem transactionByte_eq_some {a : Nat} {tx : Transaction} {b : Byte} (h : transactionByte a tx = some b) :
    tx.addr ≤ a ∧ tx.bytes[a - tx.addr]? = some b := by
  rw [transactionByte] at h
  split_ifs at h with ha
  exact ⟨ha, h⟩

/-- The values that R62 admits: the old one, the one left, or one that a transaction of the operation writes. -/
theorem mem_racingViews {b u : State} {a : Nat} {v : Option Byte} (h : v ∈ racingViews b u a) :
    v = cellGet b.sink a ∨ v = cellGet u.sink a ∨
      ∃ tx, tx ∈ u.issued.drop b.issued.length ∧ tx.addr ≤ a ∧ v = tx.bytes[a - tx.addr]? := by
  simp only [racingViews, List.mem_cons, List.mem_map, List.mem_filterMap] at h
  rcases h with h | h | ⟨x, ⟨tx, htx, hx⟩, rfl⟩
  · exact .inl h
  · exact .inr (.inl h)
  · obtain ⟨ha, hb⟩ := transactionByte_eq_some hx
    exact .inr (.inr ⟨tx, htx, ha, hb.symm⟩)

/-- What a racing read gives is what it sees at each of its addresses. -/
theorem racingBytes_some {k : Nat} {b u : State} {a n : Nat} {bs : List Byte}
    (h : racingBytes k b u a n = some bs) : bs.length = n ∧ ∀ j, j < n → bs[j]? = racingCell k b u (a + j) := by
  induction n generalizing a bs with
  | zero =>
    cases h
    exact ⟨rfl, fun j hj => absurd hj j.not_lt_zero⟩
  | succ n ih =>
    rw [racingBytes] at h
    split at h
    · next c cs hc hcs =>
      cases h
      obtain ⟨hl, hj⟩ := ih hcs
      refine ⟨congrArg Nat.succ hl, fun j hjn => ?_⟩
      cases j with
      | zero => exact hc.symm
      | succ j =>
        rw [List.getElem?_cons_succ, hj j (by omega), Nat.add_right_comm]
        rfl
    · cases h

theorem hostReadRacing_ok {b u : State} {addr n : Nat} {bs : List Byte} (h : hostReadRacing b addr n u = .ok bs) :
    racingBytes u.reads.length b u addr n = some bs := by
  rw [hostReadRacing] at h
  split_ifs at h
  split at h
  · next hbs => cases h; exact hbs
  · cases h

/-- A read, and nothing after it, during an operation adds its result to the operation's state. -/
theorem hostDuring_read {b t u : State} {addr n : Nat} {es : List HostEvent}
    (hq : ∀ e es', es = e :: es' → e.isDuring = false)
    (h : hostDuring b (.memReadDuring addr n :: es) t = .next u) :
    ∃ bs, hostReadRacing b addr n t = .ok bs ∧ u = { t with reads := t.reads ++ [bs], input := es } := by
  rw [hostDuring] at h
  split at h
  · next bs hbs =>
    rw [hostDuring_quiet hq] at h
    cases h
    exact ⟨bs, hbs, rfl⟩
  · cases h

/-- Settles O29: each byte read is among the racing views of its address, and only the read's result is added to what
the operation leaves. -/
theorem racingReadSeesOldOrNew : Obligations.RacingReadSeesOldOrNew := by
  intro s t u i rest addr n es hs hd hi hq hx hstep
  rw [step_command hs hd, hx, underHost, hi] at hstep
  obtain ⟨bs, hread, rfl⟩ := hostDuring_read hq hstep
  obtain ⟨hl, hcells⟩ := racingBytes_some (hostReadRacing_ok hread)
  refine ⟨bs, hl, by rw [(exec_keeps hx).reads], fun j hj => ?_⟩
  rw [hcells j hj]
  exact mem_racingViews (racingCell_mem _ s t (addr + j))

/-! ## The core never reads the sink

An operation is run twice, from `s` and from `s` with the sink `m`, and the two runs are compared step by step. -/

/-- Sinks `p` and `q` become `p'` and `q'` by the same writes: each address holds the same in both afterwards, or what
it held before. -/
def WrittenAlike (p p' q q' : List Host.Cell) : Prop :=
  ∀ a, cellGet q' a = cellGet p' a ∨ (cellGet q' a = cellGet q a ∧ cellGet p' a = cellGet p a)

theorem WrittenAlike.refl (p q : List Host.Cell) : WrittenAlike p p q q := fun _ => .inr ⟨rfl, rfl⟩

theorem WrittenAlike.trans {p p' p'' q q' q'' : List Host.Cell} (h : WrittenAlike p p' q q')
    (h' : WrittenAlike p' p'' q' q'') : WrittenAlike p p'' q q'' := by
  intro a
  rcases h' a with he | ⟨hq', hp'⟩
  · exact .inl he
  · rw [hq', hp']
    exact h a

theorem writtenAlike_writeBytes (addr : Nat) (bs : List Byte) (p q : List Host.Cell) :
    WrittenAlike p (writeBytes addr bs p) q (writeBytes addr bs q) := by
  intro a
  rw [cellGet_writeBytes, cellGet_writeBytes]
  split_ifs
  · exact .inl rfl
  · exact .inr ⟨rfl, rfl⟩

theorem writtenAlike_scrambleBytes (tx addr len : Nat) (p q : List Host.Cell) :
    WrittenAlike p (scrambleBytes tx addr len p) q (scrambleBytes tx addr len q) := by
  intro a
  rw [cellGet_scrambleBytes, cellGet_scrambleBytes]
  split_ifs
  · exact .inl rfl
  · exact .inr ⟨rfl, rfl⟩

/-- `t` reached from `s`, and `t'` reached from `s` with the sink `m`, differ in the sink alone, after the same
writes. -/
def RunsAlike (s : State) (m : List Host.Cell) (t t' : State) : Prop :=
  ∃ m', t' = { t with sink := m' } ∧ WrittenAlike s.sink t.sink m m'

/-- Two runs that answer, as transactions do: the answers are equal and the states reached are alike. -/
def AnswersAlike (s : State) (m : List Host.Cell) (r r' : Answer × State) : Prop :=
  r'.1 = r.1 ∧ RunsAlike s m r.2 r'.2

/-- An update that neither reads nor writes the sink. -/
theorem runsAlike_of_eq {s t t' : State} {m : List Host.Cell} (hs : t.sink = s.sink) (h : t' = { t with sink := m }) :
    RunsAlike s m t t' :=
  ⟨m, h, hs ▸ .refl s.sink m⟩

theorem RunsAlike.trans {s t t' u u' : State} {m : List Host.Cell} (h : RunsAlike s m t t')
    (h' : ∀ m', t' = { t with sink := m' } → RunsAlike t m' u u') : RunsAlike s m u u' := by
  obtain ⟨m', ht, hw⟩ := h
  obtain ⟨m'', hu, hw'⟩ := h' m' ht
  exact ⟨m'', hu, hw.trans hw'⟩

theorem RunsAlike.answersAlike {s t t' : State} {m : List Host.Cell} {r r' : Answer × State} (h : RunsAlike s m t t')
    (h' : ∀ m', t' = { t with sink := m' } → AnswersAlike t m' r r') : AnswersAlike s m r r' := by
  obtain ⟨m', ht, hw⟩ := h
  obtain ⟨ha, m'', hr, hw'⟩ := h' m' ht
  exact ⟨ha, m'', hr, hw.trans hw'⟩

theorem runsAlike_reject (e : Status) (s : State) (m : List Host.Cell) :
    RunsAlike s m (reject e s) (reject e { s with sink := m }) := runsAlike_of_eq rfl rfl

theorem runsAlike_failWith (e : Status) (s : State) (m : List Host.Cell) :
    RunsAlike s m (failWith e s) (failWith e { s with sink := m }) := runsAlike_of_eq rfl rfl

/-- The branches of a test that does not look at the sink. -/
theorem runsAlike_ite {c : Prop} [Decidable c] {s t t' u u' : State} {m : List Host.Cell} (ht : RunsAlike s m t t')
    (hu : RunsAlike s m u u') : RunsAlike s m (if c then t else u) (if c then t' else u') := by
  split_ifs
  · exact ht
  · exact hu

/-- A transaction stores what it is given, or what a failed write leaves there, and its answer is not the sink's
content (R54, R55). -/
theorem answersAlike_sinkWrite (addr : Nat) (bs : List Byte) (s : State) (m : List Host.Cell) :
    AnswersAlike s m (sinkWrite addr bs s) (sinkWrite addr bs { s with sink := m }) := by
  cases h : answerAt s 0 with
  | ok =>
    rw [sinkWrite_ok addr bs h, sinkWrite_ok (s := { s with sink := m }) addr bs h]
    exact ⟨rfl, _, rfl, writtenAlike_writeBytes addr bs s.sink m⟩
  | fail =>
    rw [sinkWrite_fail addr bs h, sinkWrite_fail (s := { s with sink := m }) addr bs h]
    exact ⟨rfl, _, rfl, writtenAlike_scrambleBytes s.issued.length addr bs.length s.sink m⟩

theorem answersAlike_refl (a : Answer) (s : State) (m : List Host.Cell) :
    AnswersAlike s m (a, s) (a, { s with sink := m }) := ⟨rfl, runsAlike_of_eq rfl rfl⟩

theorem answersAlike_sinkPlace (addr : Nat) (bs : List Byte) (s : State) (m : List Host.Cell) :
    AnswersAlike s m (sinkPlace addr bs s) (sinkPlace addr bs { s with sink := m }) := by
  cases bs with
  | nil => exact answersAlike_refl .ok s m
  | cons b bs => exact answersAlike_sinkWrite addr (b :: bs) s m

/-- An operation goes on alike after a transaction, or takes the sticky exit alike. -/
theorem AnswersAlike.onOk {s : State} {m : List Host.Cell} {r r' : Answer × State} {go go' : State → State}
    (h : AnswersAlike s m r r') (hgo : ∀ u m', RunsAlike u m' (go u) (go' { u with sink := m' })) :
    RunsAlike s m (onOk r go) (onOk r' go') := by
  obtain ⟨ha, hr⟩ := h
  refine hr.trans fun m' hr' => ?_
  cases hr1 : r.1 with
  | ok =>
    rw [onOk_of_ok go hr1, onOk_of_ok go' (ha.trans hr1), hr']
    exact hgo r.2 m'
  | fail =>
    rw [onOk_of_fail go hr1, onOk_of_fail go' (ha.trans hr1), hr']
    exact runsAlike_failWith .ioError r.2 m'

/-! ### The container operations -/

theorem runsAlike_writeHead (s : State) (m : List Host.Cell) :
    RunsAlike s m (writeHead s) (writeHead { s with sink := m }) :=
  (answersAlike_sinkWrite _ _ s m).onOk fun s1 m1 =>
    (answersAlike_sinkPlace _ _ (recordIndex s1) m1).onOk fun _ _ => runsAlike_of_eq rfl rfl

theorem runsAlike_beginConversion (s : State) (m : List Host.Cell) :
    RunsAlike s m (beginConversion s) (beginConversion { s with sink := m }) :=
  runsAlike_ite (runsAlike_failWith _ s m) <| runsAlike_ite (runsAlike_failWith _ s m) <|
    runsAlike_ite (runsAlike_failWith _ s m) (runsAlike_writeHead s m)

theorem runsAlike_runBegin (n : Word) (w h : Half) (fps : Byte) (s : State) (m : List Host.Cell) :
    RunsAlike s m (runBegin n w h fps s) (runBegin n w h fps { s with sink := m }) :=
  runsAlike_ite (runsAlike_reject _ s m) (runsAlike_beginConversion (setMeta n w h fps s) m)

theorem runsAlike_placeBlob (blob : List Byte) (s : State) (m : List Host.Cell) :
    RunsAlike s m (placeBlob blob s) (placeBlob blob { s with sink := m }) :=
  runsAlike_ite (runsAlike_failWith _ s m) <|
    (answersAlike_sinkPlace _ blob s m).onOk fun _ _ => runsAlike_of_eq rfl rfl

theorem runsAlike_runFrame (px : List Pixel) (s : State) (m : List Host.Cell) :
    RunsAlike s m (runFrame px s) (runFrame px { s with sink := m }) :=
  runsAlike_ite (runsAlike_reject _ s m) <| runsAlike_ite (runsAlike_failWith _ s m) <|
    runsAlike_ite (runsAlike_failWith _ s m) (runsAlike_placeBlob _ s m)

theorem answersAlike_patchCount (s : State) (m : List Host.Cell) :
    AnswersAlike s m (patchCount s) (patchCount { s with sink := m }) := by
  unfold patchCount
  split_ifs
  · exact answersAlike_sinkWrite 4 (le32 s.k) s m
  · exact answersAlike_refl .ok s m

theorem patchEntries_succ_of_ok {c i : Nat} {s : State}
    (h : (sinkWrite (s.idx.toNat + Config.entrySize * i) (tableEntry s i) s).1 = .ok) :
    patchEntries (c + 1) i s =
      patchEntries c (i + 1) (sinkWrite (s.idx.toNat + Config.entrySize * i) (tableEntry s i) s).2 := by
  rw [patchEntries]
  split
  · next hw => rw [hw] at h; cases h
  · next hw => rw [hw]

theorem patchEntries_succ_of_fail {c i : Nat} {s : State}
    (h : (sinkWrite (s.idx.toNat + Config.entrySize * i) (tableEntry s i) s).1 = .fail) :
    patchEntries (c + 1) i s =
      (.fail, (sinkWrite (s.idx.toNat + Config.entrySize * i) (tableEntry s i) s).2) := by
  rw [patchEntries]
  split
  · next hw => rw [hw]
  · next hw => rw [hw] at h; cases h

theorem answersAlike_patchEntries (c i : Nat) (s : State) (m : List Host.Cell) :
    AnswersAlike s m (patchEntries c i s) (patchEntries c i { s with sink := m }) := by
  induction c generalizing i s m with
  | zero => exact answersAlike_refl .ok s m
  | succ c ih =>
    obtain ⟨ha, hr⟩ := answersAlike_sinkWrite (s.idx.toNat + Config.entrySize * i) (tableEntry s i) s m
    cases hr1 : (sinkWrite (s.idx.toNat + Config.entrySize * i) (tableEntry s i) s).1 with
    | ok =>
      rw [patchEntries_succ_of_ok hr1, patchEntries_succ_of_ok (s := { s with sink := m }) (ha.trans hr1)]
      exact hr.answersAlike fun m' hr' => hr' ▸ ih (i + 1) _ m'
    | fail =>
      rw [patchEntries_succ_of_fail hr1, patchEntries_succ_of_fail (s := { s with sink := m }) (ha.trans hr1)]
      exact ⟨rfl, hr⟩

theorem runsAlike_patchContainer (s : State) (m : List Host.Cell) :
    RunsAlike s m (patchContainer s) (patchContainer { s with sink := m }) :=
  (answersAlike_sinkWrite 16 (le32 s.idx) s m).onOk fun s1 m1 =>
    (answersAlike_patchCount s1 m1).onOk fun s2 m2 =>
      (answersAlike_patchEntries s2.k.toNat 0 s2 m2).onOk fun _ _ => runsAlike_of_eq rfl rfl

theorem runsAlike_runFinalize (s : State) (m : List Host.Cell) :
    RunsAlike s m (runFinalize s) (runFinalize { s with sink := m }) :=
  runsAlike_ite (runsAlike_reject _ s m) <|
    runsAlike_ite (runsAlike_failWith _ s m) (runsAlike_patchContainer s m)

/-! ### Every instruction -/

theorem runsAlike_runRleEnc (v : List Color565) (s : State) (m : List Host.Cell) :
    RunsAlike s m (runRleEnc v s) (runRleEnc v { s with sink := m }) :=
  runsAlike_ite (runsAlike_reject _ s m) (runsAlike_of_eq rfl rfl)

/-- No register of the map shows the sink (R213). -/
theorem registerValue_sink (a : Byte) (s : State) (m : List Host.Cell) :
    registerValue { s with sink := m } a = registerValue s a := rfl

theorem runsAlike_runRdreg (a : Byte) (s : State) (m : List Host.Cell) :
    RunsAlike s m (runRdreg a s) (runRdreg a { s with sink := m }) := by
  rw [runRdreg, runRdreg, registerValue_sink a s m]
  cases registerValue s a with
  | some v => exact runsAlike_of_eq rfl rfl
  | none => exact runsAlike_reject _ s m

/-- An instruction makes the same of a state whatever its sink holds, but for the sink (R50). -/
theorem exec_runsAlike (i : Instr) (s : State) (m : List Host.Cell) :
    ∃ t t', exec i s = .next t ∧ exec i { s with sink := m } = .next t' ∧ RunsAlike s m t t' := by
  cases i with
  | quant r g b => exact ⟨_, _, rfl, rfl, runsAlike_of_eq rfl rfl⟩
  | rleEnc v => exact ⟨_, _, rfl, rfl, runsAlike_runRleEnc v s m⟩
  | cwBegin n w h fps => exact ⟨_, _, rfl, rfl, runsAlike_runBegin n w h fps s m⟩
  | cwFrame px => exact ⟨_, _, rfl, rfl, runsAlike_runFrame px s m⟩
  | cwFinalize => exact ⟨_, _, rfl, rfl, runsAlike_runFinalize s m⟩
  | rdreg a => exact ⟨_, _, rfl, rfl, runsAlike_runRdreg a s m⟩
  | illegal op => exact ⟨_, _, rfl, rfl, runsAlike_reject _ s m⟩
  | run n c => exact ⟨_, _, rfl, rfl, runsAlike_of_eq rfl rfl⟩
  | lit vs => exact ⟨_, _, rfl, rfl, runsAlike_of_eq rfl rfl⟩

/-- Settles O30: the run from the other sink is alike, and an instruction gives one next state only. -/
theorem coreNeverReadsSink : Obligations.CoreNeverReadsSink := by
  intro i s t m hx
  obtain ⟨u, u', hu, hu', m', rfl, hw⟩ := exec_runsAlike i s m
  cases hx.symm.trans hu
  exact ⟨m', hu', hw⟩

end Sys2Proof.Machine
end

section
/-! The encoding family (spec/30_encoding.md): the two decoders and the encoder agree. -/

namespace Sys2Proof

/-! ## A command decodes to itself (R100, R102, R103) -/

theorem not_mem_commandOpcodes {op : Byte} : op ∉ commandOpcodes ↔
    op ≠ 0x01#8 ∧ op ≠ 0x02#8 ∧ op ≠ 0x10#8 ∧ op ≠ 0x11#8 ∧ op ≠ 0x12#8 ∧ op ≠ 0x20#8 := by
  simp [commandOpcodes]

theorem wellFormed_illegal {op : Byte} : WellFormed (.illegal op) = true ↔ op ∉ commandOpcodes := by
  simp [WellFormed]

/-- An opcode byte outside the table is a packet of its own (R102). -/
theorem decodeCommand_undefined {op : Byte} (rest : List Byte) (h : op ∉ commandOpcodes) :
    decodeCommand (op :: rest) = .ok (.illegal op, rest) := by
  obtain ⟨h1, h2, h3, h4, h5, h6⟩ := not_mem_commandOpcodes.1 h
  rw [decodeCommand, if_neg h1, if_neg h2, if_neg h3, if_neg h4, if_neg h5, if_neg h6]

theorem decodeCwBegin_operands (n : Word) (w h : Half) (fps : Byte) (rest : List Byte) :
    decodeCwBegin (le32 n ++ le16 w ++ le16 h ++ [fps] ++ rest) = .ok (.cwBegin n w h fps, rest) := by
  simp [le32, le16, decodeCwBegin]

theorem decodeRleEnc_operands {v : List Color565} (hv : v.length < 2 ^ 32) (rest : List Byte) :
    decodeRleEnc (le32 (BitVec.ofNat 32 v.length) ++ v.flatMap le16 ++ rest) = .ok (.rleEnc v, rest) := by
  have hlen : (BitVec.ofNat 32 v.length).toNat = v.length := by rw [BitVec.toNat_ofNat, Nat.mod_eq_of_lt hv]
  rw [List.append_assoc]
  change decodeRleEnc (_ :: _ :: _ :: _ :: (v.flatMap le16 ++ rest)) = _
  rw [decodeRleEnc, rd32_le32, hlen, takeColors_flatMap]

theorem decodeCwFrame_operands {px : List Pixel} (hp : px.length < 2 ^ 32) (rest : List Byte) :
    decodeCwFrame (le32 (BitVec.ofNat 32 px.length) ++ (px.flatMap fun p => [p.r, p.g, p.b]) ++ rest) =
      .ok (.cwFrame px, rest) := by
  have hlen : (BitVec.ofNat 32 px.length).toNat = px.length := by rw [BitVec.toNat_ofNat, Nat.mod_eq_of_lt hp]
  rw [List.append_assoc]
  change decodeCwFrame (_ :: _ :: _ :: _ :: ((px.flatMap fun p => [p.r, p.g, p.b]) ++ rest)) = _
  rw [decodeCwFrame, rd32_le32, hlen, takePixels_flatMap]

/-- Settles O1: the opcode byte selects the operand decoder, and each one reads its operands back. -/
theorem commandDecodesItsEncoding : Obligations.CommandDecodesItsEncoding := by
  intro i rest hwf hcmd
  cases i with
  | quant r g b => rfl
  | rleEnc v => exact decodeRleEnc_operands (of_decide_eq_true hwf) rest
  | cwBegin n w h fps => exact decodeCwBegin_operands n w h fps rest
  | cwFrame px => exact decodeCwFrame_operands (of_decide_eq_true hwf) rest
  | cwFinalize => rfl
  | rdreg a => rfl
  | illegal op => exact decodeCommand_undefined rest (wellFormed_illegal.1 hwf)
  | run n c => cases hcmd
  | lit vs => cases hcmd

/-! ## A segment decodes to itself (R82, R83, R84) -/

theorem decodeSegment_runHeader (n : BitVec 7) (bs : List Byte) :
    decodeSegment (segmentHeader 1 n :: bs) = decodeRun n bs := by
  simp [decodeSegment]

theorem decodeSegment_litHeader (n : BitVec 7) (bs : List Byte) :
    decodeSegment (segmentHeader 0 n :: bs) = decodeLit n bs := by
  simp [decodeSegment]

/-- The count field of a Literal of 1 to 128 values holds their number less one (R83, R85). -/
theorem literalCount {vs : List Color565} (h1 : 1 ≤ vs.length) (h2 : vs.length ≤ Config.segMax) :
    (BitVec.ofNat 7 (vs.length - 1)).toNat + 1 = vs.length := by
  simp only [Config.segMax] at h2
  rw [BitVec.toNat_ofNat, Nat.mod_eq_of_lt (by omega), Nat.sub_add_cancel h1]

/-- Settles O2: the header byte gives back the flag and the count, and the values are read back after it. -/
theorem segmentDecodesItsEncoding : Obligations.SegmentDecodesItsEncoding := by
  intro i rest hwf hcmd
  cases i with
  | run n c =>
    change decodeSegment (segmentHeader 1 n :: _ :: _ :: rest) = _
    rw [decodeSegment_runHeader, decodeRun, rd16_le16]
  | lit vs =>
    obtain ⟨h1, h2⟩ := of_decide_eq_true hwf
    change decodeSegment (segmentHeader 0 _ :: (vs.flatMap le16 ++ rest)) = _
    rw [decodeSegment_litHeader, decodeLit, literalCount h1 h2, takeColors_flatMap]
  | quant r g b => cases hcmd
  | rleEnc v => cases hcmd
  | cwBegin n w h fps => cases hcmd
  | cwFrame px => cases hcmd
  | cwFinalize => cases hcmd
  | rdreg a => cases hcmd
  | illegal op => cases hcmd

/-! ## What a decoder takes is an encoding -/

/-- `bs` is the encoding of the well-formed instruction `i`, of the command space or of the segments', and then
`rest`. -/
def EncodedAs (command : Bool) (i : Instr) (rest bs : List Byte) : Prop :=
  i.isCommand = command ∧ WellFormed i = true ∧ encode i ++ rest = bs

theorem decodeQuant_encoded {bs rest : List Byte} {i : Instr} (h : decodeQuant bs = .ok (i, rest)) :
    EncodedAs true i rest (0x01 :: bs) := by
  unfold decodeQuant at h
  split at h <;> cases h
  exact ⟨rfl, rfl, rfl⟩

theorem decodeRdreg_encoded {bs rest : List Byte} {i : Instr} (h : decodeRdreg bs = .ok (i, rest)) :
    EncodedAs true i rest (0x20 :: bs) := by
  unfold decodeRdreg at h
  split at h <;> cases h
  exact ⟨rfl, rfl, rfl⟩

theorem decodeCwBegin_encoded {bs rest : List Byte} {i : Instr} (h : decodeCwBegin bs = .ok (i, rest)) :
    EncodedAs true i rest (0x10 :: bs) := by
  unfold decodeCwBegin at h
  split at h <;> cases h
  refine ⟨rfl, rfl, ?_⟩
  simp [encode, le32_rd32, le16_rd16]

/-- A length field that was read is written again by the length it stands for. -/
theorem le32_ofNat_length {α : Type} {l : List α} {b0 b1 b2 b3 : Byte} (hl : l.length = (rd32 b0 b1 b2 b3).toNat) :
    le32 (BitVec.ofNat 32 l.length) = [b0, b1, b2, b3] := by
  rw [hl, BitVec.ofNat_toNat, BitVec.setWidth_eq, le32_rd32]

theorem decodeRleEnc_encoded {bs rest : List Byte} {i : Instr} (h : decodeRleEnc bs = .ok (i, rest)) :
    EncodedAs true i rest (0x02 :: bs) := by
  unfold decodeRleEnc at h
  split at h
  · split at h <;> cases h
    obtain ⟨hl, hbytes⟩ := takeColors_eq_some.1 ‹takeColors _ _ = some _›
    refine ⟨rfl, decide_eq_true (hl ▸ BitVec.isLt _), ?_⟩
    rw [encode, le32_ofNat_length hl, ← hbytes]
    simp
  · cases h

theorem decodeCwFrame_encoded {bs rest : List Byte} {i : Instr} (h : decodeCwFrame bs = .ok (i, rest)) :
    EncodedAs true i rest (0x11 :: bs) := by
  unfold decodeCwFrame at h
  split at h
  · split at h <;> cases h
    obtain ⟨hl, hbytes⟩ := takePixels_eq_some.1 ‹takePixels _ _ = some _›
    refine ⟨rfl, decide_eq_true (hl ▸ BitVec.isLt _), ?_⟩
    rw [encode, le32_ofNat_length hl, ← hbytes]
    simp
  · cases h

theorem decodeCommand_encoded {bs rest : List Byte} {i : Instr} (h : decodeCommand bs = .ok (i, rest)) :
    EncodedAs true i rest bs := by
  cases bs with
  | nil => cases h
  | cons op bs =>
    rw [decodeCommand] at h
    split_ifs at h with h1 h2 h3 h4 h5 h6
    · exact h1 ▸ decodeQuant_encoded h
    · exact h2 ▸ decodeRleEnc_encoded h
    · exact h3 ▸ decodeCwBegin_encoded h
    · exact h4 ▸ decodeCwFrame_encoded h
    · cases h
      exact h5 ▸ ⟨rfl, rfl, rfl⟩
    · exact h6 ▸ decodeRdreg_encoded h
    · cases h
      exact ⟨rfl, wellFormed_illegal.2 (not_mem_commandOpcodes.2 ⟨h1, h2, h3, h4, h5, h6⟩), rfl⟩

/-- A header byte is its run flag and its count field (R81). -/
theorem segmentHeader_eta (h : Byte) :
    h = segmentHeader (BitVec.ofBool (h.getLsbD 7)) (h.extractLsb' 0 7) := by
  revert h
  decide

theorem decodeRun_encoded {n : BitVec 7} {bs rest : List Byte} {i : Instr} (h : decodeRun n bs = .ok (i, rest)) :
    EncodedAs false i rest (segmentHeader 1 n :: bs) := by
  unfold decodeRun at h
  split at h <;> cases h
  refine ⟨rfl, rfl, ?_⟩
  simp [encode, le16_rd16]

theorem decodeLit_encoded {n : BitVec 7} {bs rest : List Byte} {i : Instr} (h : decodeLit n bs = .ok (i, rest)) :
    EncodedAs false i rest (segmentHeader 0 n :: bs) := by
  unfold decodeLit at h
  split at h <;> cases h
  obtain ⟨hl, hbytes⟩ := takeColors_eq_some.1 ‹takeColors _ _ = some _›
  have hn := n.isLt
  refine ⟨rfl, decide_eq_true ⟨by omega, by show _ ≤ 128; omega⟩, ?_⟩
  rw [encode, hl, Nat.add_sub_cancel, BitVec.ofNat_toNat, BitVec.setWidth_eq, ← hbytes]
  rfl

theorem decodeSegment_encoded {bs rest : List Byte} {i : Instr} (h : decodeSegment bs = .ok (i, rest)) :
    EncodedAs false i rest bs := by
  cases bs with
  | nil => cases h
  | cons hd bs =>
    rw [decodeSegment] at h
    rw [segmentHeader_eta hd]
    split_ifs at h with hflag
    · rw [hflag]
      exact decodeRun_encoded h
    · rw [Bool.eq_false_iff.2 hflag]
      exact decodeLit_encoded h

/-- Settles O3: each operand decoder takes the bytes that its instruction encodes to. -/
theorem decodedBytesAreTheEncoding : Obligations.DecodedBytesAreTheEncoding :=
  fun _ _ _ => ⟨decodeCommand_encoded, decodeSegment_encoded⟩

/-! ## The length of a segment (R84, R86, R153) -/

/-- Settles O4: a Run needs the two bytes of its value, a Literal two for each value its count field announces. -/
theorem segmentLengthFromHeader : Obligations.SegmentLengthFromHeader := by
  intro h bs need
  by_cases hflag : h.getLsbD 7 = true
  · have hneed : need = 2 := if_pos hflag
    have hdec : decodeSegment (h :: bs) = decodeRun (h.extractLsb' 0 7) bs := if_pos hflag
    rw [hdec, hneed]
    match bs with
    | [] => exact ⟨fun _ => rfl, nofun⟩
    | [_] => exact ⟨fun _ => rfl, nofun⟩
    | b0 :: b1 :: rest => exact ⟨fun hlt => absurd hlt (by simp), fun _ => ⟨_, rfl⟩⟩
  · have hneed : need = 2 * ((h.extractLsb' 0 7).toNat + 1) := if_neg hflag
    have hdec : decodeSegment (h :: bs) = decodeLit (h.extractLsb' 0 7) bs := if_neg hflag
    rw [hdec, hneed, decodeLit]
    constructor
    · intro hlt
      rw [takeColors_of_lt hlt]
    · intro hle
      obtain ⟨vs, hvs⟩ := takeColors_of_le hle
      exact ⟨.lit vs, by rw [hvs]⟩

/-! ## Words of the spec -/

/-- Settles O5: both decoders evaluate on the words written out. -/
theorem specWordsDecode : Obligations.SpecWordsDecode := by
  refine ⟨?_, ?_, ?_, ?_, ?_, ?_, ?_, ?_, ?_⟩ <;> decide

/-- Settles O45: no command row has the opcode, and `ILLEGAL` takes the non-sticky exit. -/
theorem undefinedOpcodeRejected : Obligations.UndefinedOpcodeRejected := by
  intro op rest s h1 h2 h3 h4 h5 h6
  exact ⟨decodeCommand_undefined rest (not_mem_commandOpcodes.2 ⟨h1, h2, h3, h4, h5, h6⟩), rfl⟩

end Sys2Proof
end

section
/-! The encoding family (spec/30_encoding.md): the command port, the responses, and sequences of packets. -/

namespace Sys2Proof.Machine

/-! ## The command port (R28, R100) -/

/-- A byte that completes a packet is its last: bytes after a packet would stand behind one that was complete
already. -/
theorem decodeCommand_append_byte {p rest : List Byte} {b : Byte} {i : Instr}
    (hp : decodeCommand p = .error .incompletePacket) (h : decodeCommand (p ++ [b]) = .ok (i, rest)) : rest = [] := by
  obtain ⟨hcmd, hwf, hbytes⟩ := decodeCommand_encoded h
  rcases List.eq_nil_or_concat rest with hnil | ⟨rest', b', rfl⟩
  · exact hnil
  · rw [List.concat_eq_append, ← List.append_assoc] at hbytes
    have hdec := commandDecodesItsEncoding i rest' hwf hcmd
    rw [(List.append_inj' hbytes rfl).1, hp] at hdec
    cases hdec

theorem portHoldsOnePacket_nil {s : State} (h : s.port = []) : PortHoldsOnePacket s := by
  intro i rest hd
  rw [h] at hd
  cases hd

theorem PortHoldsOnePacket.congr {s t : State} (hs : PortHoldsOnePacket s) (h : t.port = s.port) :
    PortHoldsOnePacket t := by
  rw [PortHoldsOnePacket, h]
  exact hs

/-- Taking an instruction out empties the port or leaves it alone. -/
theorem PortHoldsOnePacket.fetch {s s1 : State} {i : Instr} (hs : PortHoldsOnePacket s)
    (h : fetch s = .ok (i, s1)) : PortHoldsOnePacket s1 := by
  rcases fetch_ok h with ⟨-, rest, hd, rfl⟩ | ⟨-, rest, -, rfl⟩
  · exact portHoldsOnePacket_nil (hs i rest hd)
  · exact hs

theorem PortHoldsOnePacket.hostDuring {b u t : State} {es : List HostEvent} (hu : PortHoldsOnePacket u)
    (h : hostDuring b es u = .next t) : PortHoldsOnePacket t := by
  obtain ⟨rs, es', rfl | rfl⟩ := hostDuring_next h
  · exact hu
  · exact portHoldsOnePacket_nil rfl

/-- While no packet is complete, the host's next byte completes at most one. -/
theorem PortHoldsOnePacket.hostAct {e : HostEvent} {s t : State} (hs : PortHoldsOnePacket s)
    (hd : decodeCommand s.port = .error .incompletePacket) (h : hostAct e s = .next t) : PortHoldsOnePacket t := by
  rcases hostAct_next h with ⟨b, -, rfl⟩ | rfl | ⟨-, rfl⟩ | ⟨bs, rfl⟩ | ⟨-, bs, rfl⟩
  · exact fun i rest => decodeCommand_append_byte hd
  · exact portHoldsOnePacket_nil rfl
  · exact hs
  · exact hs
  · exact hs

/-- Settles O9: an execution takes its packet out of the port, and a byte arrives only where no packet is complete. -/
theorem portKeepsOnePacket : Obligations.PortKeepsOnePacket := by
  refine ⟨portHoldsOnePacket_nil rfl, fun s t hs h => ?_⟩
  rcases step_cases h with ⟨i, s1, u, hf, hx, hd⟩ | ⟨-, hd, rfl | ⟨e, es, -, ha⟩⟩
  · exact ((hs.fetch hf).congr (exec_keeps hx).port).hostDuring hd
  · exact hs
  · exact (hs.congr (t := { s with input := es }) rfl).hostAct hd ha

/-! ## Responses (R101) -/

/-- `t` has the responses of `s` and one more, a status alone. -/
def AnswersStatus (s t : State) : Prop := ∃ st, t.out = s.out ++ [[statusCode st]]

theorem answersStatus_of_out {s u t : State} {st : Status} (hu : u.out = s.out)
    (ht : t.out = u.out ++ [[statusCode st]]) : AnswersStatus s t :=
  ⟨st, by rw [ht, hu]⟩

theorem HeadSide.out {n : Word} {w h : Half} {fps : Byte} {s u : State} (hu : HeadSide n w h fps s u) :
    u.out = s.out :=
  (congrArg State.out hu.eq :)

theorem runBegin_answersStatus (n : Word) (w h : Half) (fps : Byte) (s : State) :
    AnswersStatus s (runBegin n w h fps s) := by
  rcases runBegin_sum n w h fps s with ⟨-, eq⟩ | ⟨-, u, hu, ⟨e, -, eq⟩ | ⟨-, -, -, eq⟩⟩ <;> rw [eq]
  · exact ⟨.badSequence, rfl⟩
  · exact answersStatus_of_out hu.out (failWith_out e u)
  · exact answersStatus_of_out (st := .ok) hu.out rfl

theorem runFrame_answersStatus (px : List Pixel) (s : State) : AnswersStatus s (runFrame px s) := by
  have hside := sinkPlace_side s.pos.toNat (rleEncode (quantizeFrame px)) s
  rcases runFrame_cases px s with ⟨-, eq⟩ | ⟨-, ⟨e, -, eq⟩ | ⟨-, -, -, ⟨-, eq⟩ | ⟨-, eq⟩⟩⟩ <;> rw [eq]
  · exact ⟨.badSequence, rfl⟩
  · exact ⟨e, rfl⟩
  · exact answersStatus_of_out hside.out (failWith_out .ioError _)
  · exact answersStatus_of_out (st := .ok) hside.out rfl

theorem runFinalize_answersStatus (s : State) : AnswersStatus s (runFinalize s) := by
  rcases runFinalize_sum s with ⟨-, eq⟩ | ⟨-, u, hu, ⟨e, -, eq⟩ | eq⟩ <;> rw [eq]
  · exact ⟨.badSequence, rfl⟩
  · exact answersStatus_of_out hu.side.out (failWith_out e u)
  · exact answersStatus_of_out (st := .ok) hu.side.out rfl

/-- Settles O10: `QUANT`, `RLE_ENC` and `RDREG` answer a payload or a status, every other command a status alone. -/
theorem responseForm : Obligations.ResponseForm := by
  intro i s hcmd
  cases i with
  | quant r g b => exact ⟨_, .ok, _, rfl, rfl, fun h => absurd rfl h, fun _ => rfl⟩
  | rleEnc v =>
    by_cases hlen : s.cfg.maxRleLen.toNat < v.length
    · exact ⟨_, .tooLong, [], congrArg Host.Outcome.next (if_pos hlen), rfl, fun _ => rfl, nofun⟩
    · exact ⟨_, .ok, _, congrArg Host.Outcome.next (if_neg hlen), rfl, fun h => absurd rfl h, fun _ => rfl⟩
  | rdreg a =>
    cases hv : registerValue s a with
    | some v =>
      have hrun : runRdreg a s = respondOk (le32 v) s := by rw [runRdreg, hv]
      exact ⟨_, .ok, le32 v, congrArg Host.Outcome.next hrun, rfl, fun h => absurd rfl h, fun _ => ⟨v, hv, rfl⟩⟩
    | none =>
      have hrun : runRdreg a s = reject .badReg s := by rw [runRdreg, hv]
      exact ⟨_, .badReg, [], congrArg Host.Outcome.next hrun, rfl, fun _ => rfl, nofun⟩
  | illegal op => exact ⟨_, .illegalOp, [], rfl, rfl, fun _ => rfl, nofun⟩
  | cwBegin n w h fps =>
    obtain ⟨st, hout⟩ := runBegin_answersStatus n w h fps s
    exact ⟨_, st, [], rfl, hout, fun _ => rfl, fun _ => rfl⟩
  | cwFrame px =>
    obtain ⟨st, hout⟩ := runFrame_answersStatus px s
    exact ⟨_, st, [], rfl, hout, fun _ => rfl, fun _ => rfl⟩
  | cwFinalize =>
    obtain ⟨st, hout⟩ := runFinalize_answersStatus s
    exact ⟨_, st, [], rfl, hout, fun _ => rfl, fun _ => rfl⟩
  | run n c => cases hcmd
  | lit vs => cases hcmd

/-- A command adds exactly one response to those given (R101). -/
theorem exec_out {i : Instr} {s t : State} (hcmd : i.isCommand = true) (hx : exec i s = .next t) :
    ∃ r, t.out = s.out ++ [r] := by
  obtain ⟨t', st, payload, hx', hout, -⟩ := responseForm i s hcmd
  cases hx.symm.trans hx'
  exact ⟨_, hout⟩

/-! ## Sequences of packets (R106) -/

theorem lastAnswerOk_iff {t : State} {rs : List (List Byte)} {r : List Byte} (h : t.out = rs ++ [r]) :
    lastAnswerOk t = true ↔ r.head? = some 0x00 := by
  simp [lastAnswerOk, h]

theorem execAll_cons_ok {i : Instr} {s t : State} (is : List Instr) (hx : exec i s = .next t)
    (hok : lastAnswerOk t = true) : execAll (i :: is) s = execAll is t := by
  rw [execAll, hx]
  exact if_pos hok

theorem execAll_cons_error {i : Instr} {s t : State} (is : List Instr) (hx : exec i s = .next t)
    (herr : lastAnswerOk t = false) : execAll (i :: is) s = .next t := by
  rw [execAll, hx]
  exact if_neg (by simp [herr])

/-- A sequence of commands adds at most one response for each. -/
theorem execAll_out {is : List Instr} {s t : State} (hcmd : ∀ j, j ∈ is → j.isCommand = true)
    (h : execAll is s = .next t) : ∃ rs, t.out = s.out ++ rs ∧ rs.length ≤ is.length := by
  induction is generalizing s with
  | nil =>
    cases h
    exact ⟨[], (List.append_nil _).symm, le_rfl⟩
  | cons i is ih =>
    obtain ⟨hi, his⟩ := List.forall_mem_cons.1 hcmd
    obtain ⟨u, hu⟩ := exec_next i s
    obtain ⟨r, hr⟩ := exec_out hi hu
    cases hok : lastAnswerOk u with
    | true =>
      rw [execAll_cons_ok is hu hok] at h
      obtain ⟨rs, hrs, hlen⟩ := ih his h
      exact ⟨r :: rs, by rw [hrs, hr, List.append_assoc]; rfl, Nat.succ_le_succ hlen⟩
    | false =>
      cases (execAll_cons_error is hu hok).symm.trans h
      exact ⟨[r], hr, by simp⟩

/-- Commands that are answered OK one and all are followed by what stands behind them. -/
theorem execAll_append {before after : List Instr} {rs : List (List Byte)} {s t : State}
    (hcmd : ∀ j, j ∈ before → j.isCommand = true) (h : execAll before s = .next t) (hout : t.out = s.out ++ rs)
    (hlen : rs.length = before.length) (hok : ∀ r, r ∈ rs → r.head? = some 0x00) :
    execAll (before ++ after) s = execAll after t := by
  induction before generalizing s rs with
  | nil =>
    cases h
    rfl
  | cons i is ih =>
    obtain ⟨hi, his⟩ := List.forall_mem_cons.1 hcmd
    obtain ⟨u, hu⟩ := exec_next i s
    obtain ⟨r, hr⟩ := exec_out hi hu
    cases hu0 : lastAnswerOk u with
    | true =>
      rw [execAll_cons_ok is hu hu0] at h
      obtain ⟨rs', hrs', -⟩ := execAll_out his h
      have hsplit : rs = r :: rs' := by
        rw [hout, hr, List.append_assoc] at hrs'
        exact List.append_cancel_left hrs'
      rw [hsplit] at hlen hok
      rw [List.cons_append, execAll_cons_ok _ hu hu0]
      exact ih his h hrs' (Nat.succ.inj hlen) (List.forall_mem_cons.1 hok).2
    | false =>
      cases (execAll_cons_error is hu hu0).symm.trans h
      have hlast : rs = [r] := List.append_cancel_left (hout.symm.trans hr)
      rw [(lastAnswerOk_iff hr).2 (hok r (by simp [hlast]))] at hu0
      cases hu0

/-- Settles O59: the packets before the error are answered OK, one response each, so that none of them is the last to
be executed; the packet answered with the error is. -/
theorem convertStopsAtFirstError : Obligations.ConvertStopsAtFirstError := by
  constructor
  · intro before after i rs e s s1 t hcmd hbefore hout hlen hok hx ht he
    rw [execAll_append hcmd hbefore hout hlen hok]
    refine execAll_cons_error after hx (Bool.eq_false_iff.2 fun h => he ?_)
    simpa using (lastAnswerOk_iff ht).1 h
  · intro n w h fps frames s hp
    have hx : exec (.cwBegin n w h fps) s = .next (reject .badSequence s) :=
      exec_outOfPhase rfl (decide_eq_false hp)
    refine execAll_cons_error _ hx (Bool.eq_false_iff.2 fun h => ?_)
    exact absurd ((lastAnswerOk_iff (reject_out .badSequence s)).1 h) (by decide)

/-! ## A conversion whose every answer is ok (R55, R106) -/

theorem SinkAnswersOk.congr {s t : State} {m : Nat} (hs : SinkAnswersOk s m) (ha : t.answers = s.answers)
    (hd : t.issued = s.issued) : SinkAnswersOk t m :=
  fun j hj => (answerAt_congr ha hd j).trans (hs j hj)

/-- A transaction that is answered ok, and the answers after it. -/
theorem SinkAnswersOk.sinkWrite {s : State} {m : Nat} (hs : SinkAnswersOk s (m + 1)) (addr : Nat) (bs : List Byte) :
    (sinkWrite addr bs s).1 = .ok ∧ SinkAnswersOk (sinkWrite addr bs s).2 m := by
  rw [sinkWrite_ok addr bs (sinkAnswersOk_head hs)]
  exact ⟨rfl, (sinkAnswersOk_tail addr bs hs).congr rfl rfl⟩

theorem SinkAnswersOk.sinkPlace {s : State} {m : Nat} (hs : SinkAnswersOk s (m + 1)) (addr : Nat) (bs : List Byte) :
    (sinkPlace addr bs s).1 = .ok ∧ SinkAnswersOk (sinkPlace addr bs s).2 m := by
  cases bs with
  | nil => exact ⟨rfl, sinkAnswersOk_mono hs (Nat.le_succ m)⟩
  | cons b bs => exact hs.sinkWrite addr (b :: bs)

theorem SinkAnswersOk.patchCount {s : State} {m : Nat} (hs : SinkAnswersOk s (m + 1)) :
    (patchCount s).1 = .ok ∧ SinkAnswersOk (patchCount s).2 m := by
  unfold Machine.patchCount
  split_ifs
  · exact hs.sinkWrite 4 (le32 s.k)
  · exact ⟨rfl, sinkAnswersOk_mono hs (Nat.le_succ m)⟩

/-- A conversion of `n` frames of `w * h` pixels is open under the parameters `cfg`, with `k` frames placed and `POS` at
`pos`, and the next `m` transactions are answered ok. -/
structure Underway (cfg : Params) (n : Word) (w h : Half) (k pos m : Nat) (s : State) : Prop where
  phase : s.phase = .opened
  cfg : s.cfg = cfg
  n : s.n = n
  w : s.w = w
  h : s.h = h
  k : s.k.toNat = k
  pos : s.pos.toNat = pos
  answers : SinkAnswersOk s m

@[simp] theorem lastAnswerOk_respondOk (p : List Byte) (s : State) : lastAnswerOk (respondOk p s) = true :=
  (lastAnswerOk_iff (respondOk_out p s)).2 rfl

/-- The header and the placeholders take two answers at most. -/
theorem writeHead_completes {s : State} {m : Nat} (hok : SinkAnswersOk s (m + 2)) :
    ∃ u, writeHead s = respondOk [] (openConversion u) ∧ SinkAnswersOk u m := by
  obtain ⟨hheader, hs1⟩ := SinkAnswersOk.sinkWrite (m := m + 1) hok 0 (headerImage s.cfg.magic s.n s.w s.h s.fps 0)
  obtain ⟨hholes, hs2⟩ := SinkAnswersOk.sinkPlace (hs1.congr (t := recordIndex _) rfl rfl) Config.headerSize
    (zeros (Config.entrySize * s.n.toNat))
  exact ⟨_, (onOk_of_ok _ hheader).trans (onOk_of_ok _ hholes), hs2⟩

/-- `CW_BEGIN` within its bounds opens the conversion (R180). -/
theorem runBegin_underway {n : Word} (w h : Half) (fps : Byte) {s : State} {m : Nat} (hp : s.phase = .idle)
    (hseek : s.cfg.seekable = true) (hn : n.toNat ≤ s.cfg.maxFrames.toNat) (hcap : blobBase n ≤ s.cfg.cap.toNat)
    (hok : SinkAnswersOk s (m + 2)) :
    Underway s.cfg n w h 0 (blobBase n) m (runBegin n w h fps s) ∧ lastAnswerOk (runBegin n w h fps s) = true := by
  have hwrites : runBegin n w h fps s = writeHead (setMeta n w h fps s) := by
    rw [runBegin, if_neg (not_not.2 hp)]
    exact (if_neg (by simp [hseek])).trans ((if_neg (not_lt.2 hn)).trans (if_neg (not_lt.2 hcap)))
  obtain ⟨u, hu, hans⟩ := writeHead_completes (hok.congr (t := setMeta n w h fps s) rfl rfl)
  have hopen := hwrites.trans hu
  rcases runBegin_sum n w h fps s with ⟨hne, -⟩ | ⟨-, v, hv, ⟨e, -, heq⟩ | ⟨-, -, -, heq⟩⟩
  · exact absurd hp hne
  · cases (congrArg State.phase hopen).symm.trans (congrArg State.phase heq)
  · obtain ⟨hn', hw', hh', -⟩ := hv.metadata
    have hans' : SinkAnswersOk (runBegin n w h fps s) m := by
      rw [hopen]
      exact hans.congr rfl rfl
    rw [heq] at hans' ⊢
    have hpos : (openConversion v).pos.toNat = blobBase n := by
      rw [openConversion_pos_toNat (c := s.cfg.cap) (hn' ▸ hcap), hn']
    exact ⟨⟨rfl, hv.cfg, hn', hw', hh', rfl, hpos, hans'⟩, lastAnswerOk_respondOk _ _⟩

/-- A blob within `CAP` is written and recorded as the next frame (R181). -/
theorem Underway.placeBlob {cfg : Params} {n : Word} {w h : Half} {k pos m : Nat} {s : State} {blob : List Byte}
    (hs : Underway cfg n w h k pos (m + 1) s) (hroom : k < n.toNat) (hcap : pos + blob.length ≤ cfg.cap.toNat) :
    Underway cfg n w h (k + 1) (pos + blob.length) m (placeBlob blob s) ∧ lastAnswerOk (placeBlob blob s) = true := by
  obtain ⟨hphase, rfl, rfl, rfl, rfl, rfl, rfl, hans⟩ := hs
  obtain ⟨hok, hans'⟩ := hans.sinkPlace s.pos.toNat blob
  have hside := sinkPlace_side s.pos.toNat blob s
  have hrun : Machine.placeBlob blob s =
      respondOk [] (recordFrame blob.length (sinkPlace s.pos.toNat blob s).2) := by
    rw [Machine.placeBlob, if_neg (not_lt.2 hcap), onOk_of_ok _ hok]
  rw [hrun]
  refine ⟨⟨hside.phase.trans hphase, hside.cfg, hside.n, hside.w, hside.h, ?_, ?_, hans'.congr rfl rfl⟩,
    lastAnswerOk_respondOk _ _⟩
  · rw [respondOk_k, recordFrame_k_toNat _ (by rwa [hside.k, hside.n]), hside.k]
  · rw [respondOk_pos, recordFrame_pos_toNat (by rwa [hside.pos, hside.cfg]), hside.pos]

/-- `CW_FRAME` of the right size, with a frame still expected, places its blob (R181). -/
theorem Underway.frame {cfg : Params} {n : Word} {w h : Half} {k pos m : Nat} {s : State} {px : List Pixel}
    (hs : Underway cfg n w h k pos (m + 1) s) (hroom : k < n.toNat) (hsize : px.length = w.toNat * h.toNat)
    (hcap : pos + (rleEncode (quantizeFrame px)).length ≤ cfg.cap.toNat) :
    Underway cfg n w h (k + 1) (pos + (rleEncode (quantizeFrame px)).length) m (runFrame px s) ∧
      lastAnswerOk (runFrame px s) = true := by
  have hk : s.k ≠ s.n := fun heq => by
    rw [← hs.k, ← hs.n, heq] at hroom
    exact lt_irrefl _ hroom
  have hpx : px.length = pixelCount s := by rw [pixelCount, hs.w, hs.h, hsize]
  have hrun : runFrame px s = Machine.placeBlob (rleEncode (quantizeFrame px)) s := by
    rw [runFrame, if_neg (not_not.2 hs.phase), if_neg hk, if_neg (not_not.2 hpx)]
  rw [hrun]
  exact hs.placeBlob hroom hcap

/-- The frames of a conversion are placed one after the other. -/
theorem Underway.frames {cfg : Params} {n : Word} {w h : Half} {m : Nat} (is : List Instr)
    {frames : List (List Pixel)} {k pos : Nat} {s : State} (hs : Underway cfg n w h k pos (m + frames.length) s)
    (hroom : k + frames.length ≤ n.toNat) (hsize : ∀ px, px ∈ frames → px.length = w.toNat * h.toNat)
    (hcap : pos + (blobs (frames.map quantizeFrame)).length ≤ cfg.cap.toNat) :
    ∃ t, execAll (frames.map Instr.cwFrame ++ is) s = execAll is t ∧
      Underway cfg n w h (k + frames.length) (pos + (blobs (frames.map quantizeFrame)).length) m t := by
  induction frames generalizing k pos s with
  | nil => exact ⟨s, rfl, hs⟩
  | cons px frames ih =>
    obtain ⟨hpx, hframes⟩ := List.forall_mem_cons.1 hsize
    have hblobs : (blobs ((px :: frames).map quantizeFrame)).length =
        (rleEncode (quantizeFrame px)).length + (blobs (frames.map quantizeFrame)).length := by
      simp [blobs]
    rw [hblobs, ← Nat.add_assoc] at hcap ⊢
    rw [List.length_cons] at hs hroom ⊢
    obtain ⟨hplaced, hlast⟩ := Underway.frame (m := m + frames.length) hs (by omega) hpx (by omega)
    obtain ⟨t, ht, hu⟩ := ih hplaced (by omega) hframes hcap
    refine ⟨t, (execAll_cons_ok _ rfl hlast).trans ht, ?_⟩
    rwa [Nat.add_assoc k 1, Nat.add_comm 1] at hu

/-- The patches of `CW_FINALIZE` take an answer for the index offset, at most one for the count, and one for each entry
(R182). -/
theorem patchContainer_completes {s : State} (hok : SinkAnswersOk s (s.k.toNat + 2)) :
    ∃ u, SinkSide s u ∧ patchContainer s = respondOk [] { u with phase := .done, finished := true } := by
  obtain ⟨hidx, hs1⟩ := SinkAnswersOk.sinkWrite (m := s.k.toNat + 1) hok 16 (le32 s.idx)
  obtain ⟨hcount, hs2⟩ := hs1.patchCount
  have hside := (sinkWrite_side 16 (le32 s.idx) s).trans (patchCount_side _)
  have hentries := congrArg Prod.fst (patchEntries_ok _ 0 (hside.k ▸ hs2))
  exact ⟨_, hside.trans (patchEntries_side _ 0 _),
    (onOk_of_ok _ hidx).trans ((onOk_of_ok _ hcount).trans (onOk_of_ok _ hentries))⟩

/-- `CW_FINALIZE` with every frame placed, or under `TRUNCATE`, completes the conversion (R182). -/
theorem Underway.finalize {cfg : Params} {n : Word} {w h : Half} {k pos : Nat} {s : State}
    (hs : Underway cfg n w h k pos (k + 2) s) (hall : k < n.toNat → cfg.shortPolicy = .truncate) :
    ∃ t, execAll [.cwFinalize] s = .next t ∧ t.phase = .done ∧ t.k.toNat = k ∧ t.pos.toNat = pos := by
  obtain ⟨hphase, rfl, rfl, rfl, rfl, rfl, rfl, hans⟩ := hs
  obtain ⟨u, hside, hpatch⟩ := patchContainer_completes hans
  have hshort : ¬(s.k.toNat < s.n.toNat ∧ s.cfg.shortPolicy = .fail) := fun ⟨hlt, hfail⟩ => by
    cases hfail.symm.trans (hall hlt)
  have hrun : runFinalize s = respondOk [] { u with phase := .done, finished := true } := by
    rw [runFinalize, if_neg (not_not.2 hphase), if_neg hshort, hpatch]
  refine ⟨_, execAll_cons_ok [] (congrArg Host.Outcome.next hrun) (lastAnswerOk_respondOk _ _), rfl, ?_, ?_⟩
  · exact congrArg BitVec.toNat hside.k
  · exact congrArg BitVec.toNat hside.pos

/-- Settles O58: `CW_BEGIN` opens the conversion, each `CW_FRAME` keeps it underway, and `CW_FINALIZE` ends it. Two
transactions, one for each frame, and two with one for each entry are all that the three can issue. -/
theorem conversionCompletes : Obligations.ConversionCompletes := by
  intro n w h fps frames s hp hseek hn hsize hcount hcap hok
  have hbase : blobBase n ≤ s.cfg.cap.toNat := (Nat.le_add_right _ _).trans hcap
  obtain ⟨hopen, hlast⟩ := runBegin_underway (m := frames.length + 2 + frames.length) w h fps hp hseek hn hbase
    (sinkAnswersOk_mono hok (by omega))
  obtain ⟨u, hframes, hu⟩ := hopen.frames [.cwFinalize] (by omega) hsize hcap
  rw [Nat.zero_add] at hu
  obtain ⟨t, hfin, ht⟩ := hu.finalize fun hlt => (hcount.resolve_left hlt.ne).2
  exact ⟨t, (execAll_cons_ok _ rfl hlast).trans (hframes.trans hfin), ht⟩

end Sys2Proof.Machine
end

section
/-! The quantizer family (spec/40_quantizer.md): the value of `Quant`, its three fields, and the `QUANT` packet. -/

namespace Sys2Proof.Machine

/-! ## The value as a number (R121, R122) -/

/-- The kept bits of a channel, moved to their place in a Color565 value: the value is wide enough to lose
none. -/
theorem keptBits_shifted_toNat (x : Byte) {n k : Nat} (hn : n ≤ 8) (hk : 8 - n + k ≤ 16) :
    ((x >>> n).setWidth 16 <<< k).toNat = (x.toNat >>> n) <<< k := by
  have hkept : x.toNat >>> n <<< k < 2 ^ 16 :=
    (Nat.shiftLeft_lt (x.toNat_ushiftRight_lt n hn)).trans_le (Nat.pow_le_pow_right Nat.two_pos hk)
  rw [BitVec.toNat_shiftLeft, BitVec.toNat_setWidth_of_le (by decide), BitVec.toNat_ushiftRight,
    Nat.mod_eq_of_lt hkept]

/-- `Quant` as the arithmetic of R121 has it. -/
theorem quantize_toNat (r g b : Byte) :
    (quantize r g b).toNat = ((r.toNat >>> 3) <<< 11) ||| ((g.toNat >>> 2) <<< 5) ||| (b.toNat >>> 3) := by
  rw [quantize, BitVec.toNat_or, BitVec.toNat_or, keptBits_shifted_toNat r (by decide) (by decide),
    keptBits_shifted_toNat g (by decide) (by decide), BitVec.toNat_setWidth_of_le (by decide),
    BitVec.toNat_ushiftRight]

/-- Clearing the `n` low bits of a byte by a mask is shifting them out and zeros in. -/
theorem and_allOnes_shiftLeft_toNat (x : Byte) (n : Nat) :
    x.toNat &&& (BitVec.allOnes 8 <<< n).toNat = x.toNat >>> n <<< n := by
  have hcleared : x.toNat >>> n <<< n ≤ x.toNat := by
    rw [Nat.shiftLeft_eq, Nat.shiftRight_eq_div_pow]
    exact Nat.div_mul_le_self _ _
  rw [← BitVec.toNat_and, ← BitVec.shiftLeft_ushiftRight, BitVec.toNat_shiftLeft, BitVec.toNat_ushiftRight,
    Nat.mod_eq_of_lt (hcleared.trans_lt x.isLt)]

/-- Settles O12: a channel under its mask is the channel with its discarded bits shifted out and zeros shifted in. -/
theorem quantMaskedForm : Obligations.QuantMaskedForm := by
  intro r g b
  have hr : (r.toNat &&& 0xF8) <<< 8 = r.toNat >>> 3 <<< 11 := by
    rw [Nat.shiftLeft_add _ 3 8, ← and_allOnes_shiftLeft_toNat]
    rfl
  have hg : (g.toNat &&& 0xFC) <<< 3 = g.toNat >>> 2 <<< 5 := by
    rw [Nat.shiftLeft_add _ 2 3, ← and_allOnes_shiftLeft_toNat]
    rfl
  rw [hr, hg, quantize_toNat]

/-! ## The three fields (R121, R123) -/

/-- The kept bits of a channel, as a field, have the value of the shifted channel. -/
theorem keptField_toNat (x : Byte) {n m : Nat} (h : n + m = 8) : (x.extractLsb' n m).toNat = x.toNat >>> n := by
  obtain rfl : m = 8 - n := by omega
  rw [BitVec.extractLsb'_toNat]
  exact Nat.mod_eq_of_lt (x.toNat_ushiftRight_lt n (by omega))

/-- `Quant` places the kept bits of the three channels side by side: the fields do not overlap (R121). -/
theorem quantize_eq_append (r g b : Byte) :
    quantize r g b = r.extractLsb' 3 5 ++ g.extractLsb' 2 6 ++ b.extractLsb' 3 5 := by
  apply BitVec.eq_of_toNat_eq
  rw [quantize_toNat, BitVec.toNat_append, BitVec.toNat_append, Nat.shiftLeft_or_distrib, ← Nat.shiftLeft_add,
    keptField_toNat r rfl, keptField_toNat g rfl, keptField_toNat b rfl]

theorem quantize_red (r g b : Byte) : (quantize r g b).extractLsb' 11 5 = r.extractLsb' 3 5 := by
  rw [quantize_eq_append]
  exact (BitVec.extractLsb'_append_eq_of_le (by decide)).trans BitVec.extractLsb'_append_eq_left

theorem quantize_green (r g b : Byte) : (quantize r g b).extractLsb' 5 6 = g.extractLsb' 2 6 := by
  rw [quantize_eq_append]
  exact (BitVec.extractLsb'_append_eq_of_le (by decide)).trans BitVec.extractLsb'_append_eq_right

theorem quantize_blue (r g b : Byte) : (quantize r g b).extractLsb' 0 5 = b.extractLsb' 3 5 := by
  rw [quantize_eq_append]
  exact BitVec.extractLsb'_append_eq_right

/-- Settles O11: the value is the arithmetic of R121, and each field is read off the channels placed side by side. -/
theorem quantValue : Obligations.QuantValue := fun r g b =>
  ⟨quantize_toNat r g b, quantize_red r g b, quantize_green r g b, quantize_blue r g b⟩

/-- A Color565 value is its red, green and blue fields side by side (R80). -/
theorem color565_eq_append (c : Color565) :
    c.extractLsb' 11 5 ++ c.extractLsb' 5 6 ++ c.extractLsb' 0 5 = c := by
  have hupper : c.extractLsb' 11 5 ++ c.extractLsb' 5 6 = c.extractLsb' 5 11 :=
    BitVec.extractLsb'_append_extractLsb'_eq_extractLsb' rfl
  rw [hupper]
  exact (BitVec.extractLsb'_append_extractLsb'_eq_extractLsb' rfl).trans BitVec.extractLsb'_eq_self

/-- Two Color565 values are equal exactly when their three fields are. -/
theorem color565_eq_iff {c d : Color565} :
    c = d ↔ c.extractLsb' 11 5 = d.extractLsb' 11 5 ∧ c.extractLsb' 5 6 = d.extractLsb' 5 6 ∧
      c.extractLsb' 0 5 = d.extractLsb' 0 5 := by
  constructor
  · rintro rfl
    exact ⟨rfl, rfl, rfl⟩
  · rintro ⟨hred, hgreen, hblue⟩
    rw [← color565_eq_append c, ← color565_eq_append d, hred, hgreen, hblue]

/-- Settles O13: the fields of `Quant` are the kept bits, and a Color565 value has nothing beside its fields. -/
theorem quantPreimages : Obligations.QuantPreimages := by
  intro r g b c
  rw [color565_eq_iff, quantize_red, quantize_green, quantize_blue]

/-! ## The packet (R120) -/

/-- Settles O14: the packet decodes to `QUANT`, whose execution only answers the value. -/
theorem quantResponds : Obligations.QuantResponds := fun _ _ _ _ => ⟨rfl, rfl⟩

end Sys2Proof.Machine
end

section
/-! The Frame RLE family (spec/41_rle.md): the encoder. A run and a literal at the cursor, the rounds of block `B-RLE`,
the segments it emits and their bytes. -/

namespace Sys2Proof.Machine

/-! ## The run at the cursor (R130) -/

theorem getElem?_of_lt_runLen {cap j : Nat} {c : Color565} {cs : List Color565} (hj : j < runLen cap (c :: cs)) :
    (c :: cs)[j]? = some c := by
  cases j with
  | zero => rfl
  | succ j =>
    rw [List.getElem?_cons_succ]
    exact getElem_countEqual (Nat.lt_of_succ_lt_succ hj)

/-- Below the cap, a run ends at the end of the frame or before another value. -/
theorem getElem?_runLen_ne {cap : Nat} {c : Color565} {cs : List Color565} (h : runLen cap (c :: cs) < cap) :
    (c :: cs)[runLen cap (c :: cs)]? ≠ some c := by
  rw [runLen] at h ⊢
  rw [List.getElem?_cons_succ]
  exact countEqual_stop (by omega)

/-- The counted run reaches `n` exactly where the first `n` values are equal. -/
theorem le_runLen_iff {n cap : Nat} {c : Color565} {cs : List Color565} (h : n ≤ cap) :
    n ≤ runLen cap (c :: cs) ↔ ∀ j, j < n → (c :: cs)[j]? = some c := by
  refine ⟨fun hle j hj => getElem?_of_lt_runLen (hj.trans_le hle), fun hall => ?_⟩
  by_contra hlt
  have hlt : runLen cap (c :: cs) < n := Nat.lt_of_not_le hlt
  exact getElem?_runLen_ne (hlt.trans_le h) (hall _ hlt)

theorem runLen_three_eq_iff {c : Color565} {cs : List Color565} :
    runLen 3 (c :: cs) = 3 ↔ (c :: cs)[1]? = some c ∧ (c :: cs)[2]? = some c := by
  have hle := runLen_le_cap (cap := 3) (by decide) (c :: cs)
  have hiff := le_runLen_iff (c := c) (cs := cs) (le_refl 3)
  constructor
  · intro h
    exact ⟨hiff.1 h.ge 1 (by decide), hiff.1 h.ge 2 (by decide)⟩
  · rintro ⟨h1, h2⟩
    refine le_antisymm hle (hiff.2 fun j hj => ?_)
    interval_cases j
    · rfl
    · exact h1
    · exact h2

/-- Settles O15: the frame from the cursor on is its first value and the rest, and the run is counted there. -/
theorem runLenMeaning : Obligations.RunLenMeaning := by
  intro f i cap hi hcap
  obtain ⟨c, cs, hdrop⟩ : ∃ c cs, f.drop i = c :: cs := ⟨_, _, List.drop_eq_getElem_cons hi⟩
  have hat (j : Nat) : f[i + j]? = (c :: cs)[j]? := by rw [← hdrop, List.getElem?_drop]
  have hcursor : f[i]? = some c := hat 0
  have hlen : (c :: cs).length = f.length - i := by rw [← hdrop, List.length_drop]
  have hfits := runLen_le_length cap (c :: cs)
  rw [hdrop, hcursor, hat 1, hat 2]
  refine ⟨⟨runLen_pos cap (by simp), runLen_le_cap hcap _, by omega⟩, fun j hj => ?_, fun hlt _ => ?_,
    runLen_three _, ?_⟩
  · rw [hat]
    exact getElem?_of_lt_runLen hj
  · rw [hat]
    exact getElem?_runLen_ne hlt
  · rw [runLen_three_eq_iff]
    constructor
    · rintro ⟨h1, h2⟩
      obtain ⟨hlt, -⟩ := List.getElem?_eq_some_iff.1 h2
      exact ⟨by omega, h1.symm, h1.trans h2.symm⟩
    · rintro ⟨-, h1, h2⟩
      exact ⟨h1.symm, (h1.trans h2).symm⟩

/-! ## The literal at the cursor (R133) -/

theorem literalLen_cons (room : Nat) (c : Color565) (cs : List Color565) :
    literalLen (room + 1) (c :: cs) = if runLen 3 (c :: cs) < 3 then literalLen room cs + 1 else 0 := rfl

/-- No run of 3 starts at a value that a literal takes. -/
theorem runLen_lt_of_lt_literalLen {room j : Nat} {f : List Color565} (hj : j < literalLen room f) :
    runLen 3 (f.drop j) < 3 := by
  induction room generalizing f j with
  | zero => exact absurd hj (Nat.not_lt_zero j)
  | succ room ih =>
    cases f with
    | nil => exact absurd hj (Nat.not_lt_zero j)
    | cons c cs =>
      rw [literalLen_cons] at hj
      split_ifs at hj with h
      · cases j with
        | zero => exact h
        | succ j => exact ih (f := cs) (Nat.lt_of_succ_lt_succ hj)
      · exact absurd hj (Nat.not_lt_zero j)

/-- What ends a literal: the cap, the end of the frame, or a run of 3. -/
theorem literalLen_stop (room : Nat) (f : List Color565) :
    literalLen room f = room ∨ literalLen room f = f.length ∨ runLen 3 (f.drop (literalLen room f)) = 3 := by
  induction room generalizing f with
  | zero => exact .inl rfl
  | succ room ih =>
    cases f with
    | nil => exact .inr (.inl rfl)
    | cons c cs =>
      rw [literalLen_cons]
      split_ifs with h
      · simpa using ih cs
      · exact .inr (.inr (le_antisymm (runLen_le_cap (by decide) _) (by simpa using h)))

/-- Settles O16: each test that a literal passed is passed at one of its values, and the test that failed ends it. -/
theorem literalLenMeaning : Obligations.LiteralLenMeaning := fun f hf h =>
  ⟨literalLen_pos hf h, literalLen_le_room 128 f, literalLen_le_length 128 f,
    fun _ => runLen_lt_of_lt_literalLen, literalLen_stop 128 f⟩

/-! ## The bytes of one round (R132, R134, R135) -/

theorem rleEncode_run {c : Color565} {cs : List Color565} (h : 3 ≤ runLen 128 (c :: cs)) :
    rleEncode (c :: cs) = encode (.run (BitVec.ofNat 7 (runLen 128 (c :: cs) - 1)) c) ++
      rleEncode ((c :: cs).drop (runLen 128 (c :: cs))) := by
  rw [rleEncode, rleSegments_run h, List.flatMap_cons, ← rleEncode]

theorem rleEncode_lit {c : Color565} {cs : List Color565} (h : runLen 128 (c :: cs) < 3) :
    rleEncode (c :: cs) = encode (.lit ((c :: cs).take (literalLen 128 (c :: cs)))) ++
      rleEncode ((c :: cs).drop (literalLen 128 (c :: cs))) := by
  rw [rleEncode, rleSegments_lit h, List.flatMap_cons, ← rleEncode]

/-- A literal takes as many values as it counts. -/
theorem length_take_literalLen (room : Nat) (f : List Color565) :
    (f.take (literalLen room f)).length = literalLen room f :=
  List.length_take_of_le (literalLen_le_length room f)

/-- A count field of 7 bits, put into a header byte, is the count less one. -/
theorem setWidth_count {k : Nat} (h : k < 128) : (BitVec.ofNat 7 k).setWidth 8 = BitVec.ofNat 8 k := by
  apply BitVec.eq_of_toNat_eq
  rw [BitVec.toNat_setWidth, BitVec.toNat_ofNat, BitVec.toNat_ofNat, Nat.mod_eq_of_lt (b := 2 ^ 7) h]

/-- Settles O17: the two branches of a round, each with its segment's header byte written out. -/
theorem encoderLoop : Obligations.EncoderLoop := by
  refine ⟨rfl, fun x xs => ?_⟩
  show rleEncode (x :: xs) = ite _ _ _
  split_ifs with h
  · have hcap := runLen_le_cap (cap := 128) (by decide) (x :: xs)
    rw [rleEncode_run h, encode, segmentHeader_one, setWidth_count (by omega)]
  · have hcap := literalLen_le_room 128 (x :: xs)
    rw [rleEncode_lit (by omega), encode, length_take_literalLen, segmentHeader_zero, setWidth_count (by omega)]

/-! ## The segments (R155, R157, R158) -/

/-- The count field of a Run holds the length of the run less one (R82, R85). -/
theorem runCount (c : Color565) (cs : List Color565) :
    (BitVec.ofNat 7 (runLen 128 (c :: cs) - 1)).toNat + 1 = runLen 128 (c :: cs) := by
  have hpos := runLen_pos 128 (List.cons_ne_nil c cs)
  have hcap := runLen_le_cap (cap := 128) (by decide) (c :: cs)
  rw [BitVec.toNat_ofNat, Nat.mod_eq_of_lt (by omega), Nat.sub_add_cancel hpos]

/-- Settles O21: a Run stands for the equal values that it counts and a Literal holds its values, and the next round
begins behind them. -/
theorem segmentsCoverFrame : Obligations.SegmentsCoverFrame := by
  intro f
  induction f using rle_induction with
  | empty => rfl
  | run c cs h ih =>
    rw [rleSegments_run h, List.flatMap_cons, ih, segmentValues, runCount, ← take_runLen, List.take_append_drop]
  | lit c cs h h' ih =>
    rw [rleSegments_lit h, List.flatMap_cons, ih, segmentValues, List.take_append_drop]

/-- A Run of 3 to 128 values or a Literal of 1 to 128. -/
def Emitted : Instr → Prop
  | .run n _ => 2 ≤ n.toNat
  | .lit vs => 1 ≤ vs.length ∧ vs.length ≤ 128
  | _ => False

theorem rleSegments_emitted {f : List Color565} {i : Instr} (hi : i ∈ rleSegments f) : Emitted i := by
  induction f using rle_induction with
  | empty => cases hi
  | run c cs h ih =>
    rw [rleSegments_run h] at hi
    rcases List.mem_cons.1 hi with rfl | hi
    · have hcount := runCount c cs
      show 2 ≤ BitVec.toNat _
      omega
    · exact ih hi
  | lit c cs h h' ih =>
    rw [rleSegments_lit h] at hi
    rcases List.mem_cons.1 hi with rfl | hi
    · rw [Emitted, length_take_literalLen]
      exact ⟨h', literalLen_le_room 128 _⟩
    · exact ih hi

/-- Two neighbours as R158 allows them: behind a Literal of fewer than 128 values stands a Run. -/
def Adjacent (i j : Instr) : Prop := ∀ vs, i = .lit vs → vs.length < 128 → ∃ n c, j = .run n c

/-- Where a run of 3 starts, the next segment is a Run. -/
theorem head_rleSegments {f : List Color565} {i : Instr} (h : runLen 3 f = 3) (hi : i ∈ (rleSegments f).head?) :
    ∃ n c, i = .run n c := by
  cases f with
  | nil => cases h
  | cons c cs =>
    have hrun := runLen_three (c :: cs)
    rw [rleSegments_run (by omega)] at hi
    cases hi
    exact ⟨_, _, rfl⟩

theorem rleSegments_isChain (f : List Color565) : (rleSegments f).IsChain Adjacent := by
  induction f using rle_induction with
  | empty => exact .nil
  | run c cs h ih =>
    rw [rleSegments_run h]
    exact List.isChain_cons.2 ⟨fun _ _ _ => nofun, ih⟩
  | lit c cs h h' ih =>
    rw [rleSegments_lit h]
    refine List.isChain_cons.2 ⟨fun j hj vs hvs hlt => ?_, ih⟩
    cases hvs
    rw [length_take_literalLen] at hlt
    rcases literalLen_stop 128 (c :: cs) with hstop | hstop | hstop
    · omega
    · rw [hstop, List.drop_length] at hj
      cases hj
    · exact head_rleSegments hstop hj

theorem segmentHeader_one_toNat (n : BitVec 7) : (segmentHeader 1 n).toNat = 128 + n.toNat := by
  revert n
  decide

theorem segmentHeader_zero_toNat (n : BitVec 7) : (segmentHeader 0 n).toNat = n.toNat := by
  rw [segmentHeader_zero, BitVec.toNat_setWidth, Nat.mod_eq_of_lt (by omega)]

/-- Settles O20: the header byte is read off its flag and its count field, and neighbours off the chain of segments. -/
theorem emittedSegments : Obligations.EmittedSegments := by
  refine fun f => ⟨fun i hi => ?_, fun before vs next after hsplit hlt => ?_⟩
  · have hem := rleSegments_emitted hi
    cases i with
    | run n c =>
      have hn : 2 ≤ n.toNat := hem
      refine ⟨_, _, rfl, ?_, .inl ⟨n, c, rfl, ?_⟩⟩
      · rw [segmentHeader_count, segmentValues, List.length_replicate]
      · rw [segmentHeader_one_toNat]
        omega
    | lit vs =>
      obtain ⟨h1, h2⟩ := hem
      refine ⟨_, _, rfl, ?_, .inr ⟨vs, rfl, h1, h2, ?_⟩⟩
      · rw [segmentHeader_count, literalCount h1 h2, segmentValues]
      · rw [segmentHeader_zero_toNat]
        omega
    | quant r g b => cases hem
    | rleEnc v => cases hem
    | cwBegin n w h fps => cases hem
    | cwFrame px => cases hem
    | cwFinalize => cases hem
    | rdreg a => cases hem
    | illegal op => cases hem
  · have hchain := rleSegments_isChain f
    rw [hsplit] at hchain
    obtain ⟨-, hadj, -⟩ := List.isChain_append_cons_cons.1 hchain
    exact hadj vs rfl hlt

/-! ## The size of an encoding (R141) -/

theorem length_rleEncode_run {c : Color565} {cs : List Color565} (h : 3 ≤ runLen 128 (c :: cs)) :
    (rleEncode (c :: cs)).length = 3 + (rleEncode ((c :: cs).drop (runLen 128 (c :: cs)))).length := by
  rw [rleEncode_run h, List.length_append, Laws.EncodeLength.run]
  rfl

theorem length_rleEncode_lit {c : Color565} {cs : List Color565} (h : runLen 128 (c :: cs) < 3) :
    (rleEncode (c :: cs)).length = 1 + 2 * literalLen 128 (c :: cs) +
      (rleEncode ((c :: cs).drop (literalLen 128 (c :: cs)))).length := by
  rw [rleEncode_lit h, List.length_append, Laws.EncodeLength.lit, Instr.byteLength, length_take_literalLen]

/-- A frame that begins with a Run stays 3 bytes below the bound, which pays for the header of a short Literal before
it. -/
theorem length_rleEncode_le (f : List Color565) :
    (rleEncode f).length + (if 3 ≤ runLen 128 f then 3 else 0) ≤ 2 * f.length + (f.length + 127) / 128 := by
  induction f using rle_induction with
  | empty => decide
  | run c cs h ih =>
    have hfits := runLen_le_length 128 (c :: cs)
    rw [length_rleEncode_run h, if_pos h]
    rw [List.length_drop] at ih
    omega
  | lit c cs h h' ih =>
    have hfits := literalLen_le_length 128 (c :: cs)
    rw [length_rleEncode_lit h, if_neg (by omega)]
    rw [List.length_drop] at ih
    rcases literalLen_stop 128 (c :: cs) with hstop | hstop | hstop
    · omega
    · simp only [hstop, List.drop_length] at ih ⊢
      have : (rleEncode []).length = 0 := rfl
      omega
    · have hrun := runLen_three ((c :: cs).drop (literalLen 128 (c :: cs)))
      rw [if_pos (by omega)] at ih
      omega

/-- Without a run of 3 every segment is a Literal, full at 128 values but for the last. -/
theorem length_rleEncode_of_noRun (f : List Color565) (hno : ∀ i, runLen 3 (f.drop i) < 3) :
    (rleEncode f).length = 2 * f.length + (f.length + 127) / 128 := by
  induction f using rle_induction with
  | empty => rfl
  | run c cs h ih =>
    have hrun := runLen_three (c :: cs)
    have := hno 0
    rw [List.drop_zero] at this
    omega
  | lit c cs h h' ih =>
    have hfits := literalLen_le_length 128 (c :: cs)
    have hcap := literalLen_le_room 128 (c :: cs)
    rw [length_rleEncode_lit h, ih fun i => by rw [List.drop_drop]; exact hno _, List.length_drop]
    rcases literalLen_stop 128 (c :: cs) with hstop | hstop | hstop
    · omega
    · omega
    · exact absurd hstop (hno _).ne

theorem three_le_length_rleEncode {f : List Color565} (hf : 1 ≤ f.length) : 3 ≤ (rleEncode f).length := by
  cases f with
  | nil => exact absurd hf (by decide)
  | cons c cs =>
    by_cases h : 3 ≤ runLen 128 (c :: cs)
    · rw [length_rleEncode_run h]
      omega
    · have hpos := literalLen_pos (List.cons_ne_nil c cs) (by omega)
      rw [length_rleEncode_lit (by omega)]
      omega

/-- Settles O19: the bound, the frames that reach it, and the first segment's 3 bytes at least. -/
theorem encodedSize : Obligations.EncodedSize := by
  intro f
  have hbound := length_rleEncode_le f
  refine ⟨by omega, fun hno => length_rleEncode_of_noRun f fun i => ?_, three_le_length_rleEncode, fun hlim => by omega⟩
  by_cases hi : i < f.length
  · obtain ⟨⟨-, hcap, -⟩, -, -, -, hthree⟩ := runLenMeaning f i 3 hi (by decide)
    refine lt_of_le_of_ne hcap fun h => ?_
    obtain ⟨hlt, heq⟩ := hthree.1 h
    exact hno i hlt heq
  · rw [List.drop_of_length_le (by omega)]
    decide

/-! ## A maximal run (R156) -/

theorem countEqual_cons (x : Color565) (cap : Nat) (d : Color565) (ds : List Color565) :
    countEqual x (cap + 1) (d :: ds) = if d = x then countEqual x cap ds + 1 else 0 := rfl

/-- A count that begins before another value `c` does not reach beyond it. -/
theorem countEqual_append {x c : Color565} {cap : Nat} {g cs : List Color565} (h : (x :: g).getLast? ≠ some c) :
    countEqual x cap (g ++ c :: cs) = countEqual x cap g := by
  induction cap generalizing g with
  | zero => rfl
  | succ cap ih =>
    cases g with
    | nil =>
      have hne : c ≠ x := fun he => h (by rw [he]; rfl)
      rw [List.nil_append, countEqual_cons, if_neg hne]
      rfl
    | cons d ds =>
      rw [List.cons_append, countEqual_cons, countEqual_cons]
      split_ifs with hd
      · rw [ih (by rwa [← hd, ← List.getLast?_cons_cons (a := x)])]
      · rfl

theorem runLen_append {cap : Nat} {c : Color565} {pre cs : List Color565} (hne : pre ≠ [])
    (h : pre.getLast? ≠ some c) : runLen cap (pre ++ c :: cs) = runLen cap pre := by
  cases pre with
  | nil => exact absurd rfl hne
  | cons x g => rw [List.cons_append, runLen, runLen, countEqual_append h]

theorem getLast?_drop_ne {f : List Color565} {c : Color565} (h : f.getLast? ≠ some c) (k : Nat) :
    (f.drop k).getLast? ≠ some c := by
  rw [List.getLast?_drop]
  split_ifs
  · exact nofun
  · exact h

/-- A literal that reaches a run of 3 stops there, as it would at the end of the frame. -/
theorem literalLen_append {room : Nat} {c : Color565} {pre cs : List Color565} (h : pre.getLast? ≠ some c)
    (hrun : 3 ≤ runLen 3 (c :: cs)) : literalLen room (pre ++ c :: cs) = literalLen room pre := by
  induction room generalizing pre with
  | zero => rfl
  | succ room ih =>
    cases pre with
    | nil => rw [List.nil_append, literalLen_cons, if_neg (by omega), literalLen]
    | cons x g =>
      have hg : g.getLast? ≠ some c := getLast?_drop_ne h 1
      have hsame := runLen_append (cap := 3) (cs := cs) (List.cons_ne_nil x g) h
      rw [List.cons_append] at hsame ⊢
      rw [literalLen_cons, literalLen_cons, hsame, ih hg]

/-- The cursor always stops where a run of 3 or more begins: what stands before it is encoded by itself. -/
theorem rleSegments_append {c : Color565} {pre cs : List Color565} (h : pre.getLast? ≠ some c)
    (hrun : 3 ≤ runLen 3 (c :: cs)) : rleSegments (pre ++ c :: cs) = rleSegments pre ++ rleSegments (c :: cs) := by
  induction pre using rle_induction with
  | empty => rfl
  | run x g hr ih =>
    have hsame := runLen_append (cap := 128) (cs := cs) (List.cons_ne_nil x g) h
    have hfits := runLen_le_length 128 (x :: g)
    rw [List.cons_append] at hsame ⊢
    rw [rleSegments_run (hsame ▸ hr), hsame, rleSegments_run hr, List.cons_append, ← ih (getLast?_drop_ne h _),
      ← List.cons_append, List.drop_append_of_le_length hfits]
  | lit x g hr hl ih =>
    have hsame := runLen_append (cap := 128) (cs := cs) (List.cons_ne_nil x g) h
    have hsame' := literalLen_append (room := 128) h hrun
    have hfits := literalLen_le_length 128 (x :: g)
    rw [List.cons_append] at hsame hsame' ⊢
    rw [rleSegments_lit (hsame ▸ hr), hsame', rleSegments_lit hr, List.cons_append, ← ih (getLast?_drop_ne h _),
      ← List.cons_append, List.drop_append_of_le_length hfits, List.take_append_of_le_length hfits]

theorem countEqual_replicate {c : Color565} {post : List Color565} (h : post.head? ≠ some c) (cap n : Nat) :
    countEqual c cap (List.replicate n c ++ post) = min n cap := by
  induction cap generalizing n with
  | zero => simp [countEqual]
  | succ cap ih =>
    cases n with
    | zero =>
      cases post with
      | nil => simp [countEqual]
      | cons d ds =>
        have hne : d ≠ c := fun he => h (by rw [he]; rfl)
        simp [countEqual, hne]
    | succ n => rw [List.replicate_succ, List.cons_append, countEqual_cons, if_pos rfl, ih, Nat.succ_min_succ]

theorem runLen_replicate {c : Color565} {post : List Color565} (h : post.head? ≠ some c) {cap n : Nat} (hcap : 1 ≤ cap)
    (hn : 1 ≤ n) : runLen cap (List.replicate n c ++ post) = min n cap := by
  obtain ⟨n, rfl⟩ := Nat.exists_eq_add_of_le' hn
  rw [List.replicate_succ, List.cons_append, runLen, countEqual_replicate h]
  omega

/-- Where a maximal run of 3 or more begins, the next segment takes up to 128 of its values. -/
theorem rleSegments_replicate {c : Color565} {post : List Color565} (h : post.head? ≠ some c) {n : Nat} (hn : 3 ≤ n) :
    rleSegments (List.replicate n c ++ post) = .run (BitVec.ofNat 7 (min n 128 - 1)) c ::
      rleSegments (List.replicate (n - min n 128) c ++ post) := by
  have hr := runLen_replicate h (cap := 128) (n := n) (by decide) (by omega)
  have hdrop : (List.replicate n c ++ post).drop (min n 128) = List.replicate (n - min n 128) c ++ post := by
    rw [List.drop_append_of_le_length (by simp), List.drop_replicate]
  obtain ⟨n, rfl⟩ := Nat.exists_eq_add_of_le' (show 1 ≤ n by omega)
  rw [List.replicate_succ, List.cons_append] at hr hdrop ⊢
  rw [rleSegments_run (by omega), hr, hdrop]

/-- The values of a maximal run are taken by 128 while there are as many. -/
theorem rleSegments_replicate_full {c : Color565} {post : List Color565} (h : post.head? ≠ some c) (q k : Nat) :
    rleSegments (List.replicate (128 * q + k) c ++ post) =
      List.replicate q (.run 127 c) ++ rleSegments (List.replicate k c ++ post) := by
  induction q with
  | zero => simp
  | succ q ih =>
    have hmin : min (128 * (q + 1) + k) 128 = 128 := by omega
    have hrest : 128 * (q + 1) + k - 128 = 128 * q + k := by omega
    rw [rleSegments_replicate h (by omega), hmin, hrest, ih, List.replicate_succ, List.cons_append]
    rfl

/-- One or two values left of a maximal run pass the tests of a literal. -/
theorem literalLen_replicate {c : Color565} {post : List Color565} (h : post.head? ≠ some c) {k : Nat} (hk : k < 3)
    (room : Nat) : literalLen (room + k) (List.replicate k c ++ post) = literalLen room post + k := by
  induction k with
  | zero => rfl
  | succ k ih =>
    have hr := runLen_replicate h (cap := 3) (n := k + 1) (by decide) (by omega)
    rw [List.replicate_succ, List.cons_append] at hr ⊢
    rw [← Nat.add_assoc, literalLen_cons, if_pos (by omega), ih (by omega), Nat.add_assoc]

/-- One or two values left of a maximal run begin the next Literal. -/
theorem rleSegments_replicate_rest {c : Color565} {post : List Color565} (h : post.head? ≠ some c) {k : Nat}
    (h1 : 1 ≤ k) (hk : k < 3) :
    ∃ vs later, rleSegments (List.replicate k c ++ post) = .lit (List.replicate k c ++ vs) :: later := by
  have hr := runLen_replicate h (cap := 128) (n := k) (by decide) h1
  have hl := literalLen_replicate h hk (128 - k)
  have htake : (List.replicate k c ++ post).take (literalLen (128 - k) post + k) =
      List.replicate k c ++ post.take (literalLen (128 - k) post) := by
    simp [List.take_append]
  rw [Nat.sub_add_cancel (by omega)] at hl
  have hne : List.replicate k c ++ post ≠ [] := by simp; omega
  obtain ⟨d, ds, hcons⟩ := List.exists_cons_of_ne_nil hne
  rw [hcons] at hr hl htake ⊢
  rw [rleSegments_lit (by omega), hl, htake]
  exact ⟨_, _, rfl⟩

/-- Settles O22: the segments before the run are those of `pre`; the full Runs and the remainder follow. -/
theorem maximalRunSegments : Obligations.MaximalRunSegments := by
  intro pre post c m hm hpre hpost
  refine ⟨rleSegments pre, rleSegments (List.replicate (m % 128) c ++ post), segmentsCoverFrame pre, ?_, fun h3 => ?_,
    fun h0 => ?_, fun h1 => rleSegments_replicate_rest hpost h1⟩
  · have hthree := runLen_replicate hpost (cap := 3) (n := m) (by decide) (by omega)
    have hsplit := rleSegments_replicate_full hpost (m / 128) (m % 128)
    rw [Nat.div_add_mod] at hsplit
    obtain ⟨n, rfl⟩ := Nat.exists_eq_add_of_le' (show 1 ≤ m by omega)
    rw [List.append_assoc, List.append_assoc, ← hsplit]
    rw [List.replicate_succ, List.cons_append] at hthree ⊢
    exact rleSegments_append hpre (by omega)
  · have hmin : min (m % 128) 128 = m % 128 := by omega
    rw [rleSegments_replicate hpost h3, hmin, Nat.sub_self]
    rfl
  · rw [h0]
    rfl

/-! ## `RLE_ENC` (R140) -/

/-- Settles O23: the length test decides between the encoding, whose length R141 bounds, and the rejection. -/
theorem rleEncResponds : Obligations.RleEncResponds := by
  intro v s
  refine ⟨fun hlt => ?_, fun hle => congrArg Host.Outcome.next (if_neg (Nat.not_lt.2 hle)), fun hle hwf => ?_,
    fun hlt => congrArg Host.Outcome.next (if_pos hlt)⟩
  · have hdec := decodeRleEnc_operands hlt []
    rwa [List.append_nil] at hdec
  · have hlim : s.cfg.maxRleLen.toNat ≤ 0x7F000000 := of_decide_eq_true hwf
    obtain ⟨-, -, -, hsize⟩ := encodedSize v
    have := hsize (by omega)
    rw [BitVec.toNat_ofNat, Nat.mod_eq_of_lt (by omega)]

end Sys2Proof.Machine
end

section
/-! The Frame RLE family (spec/41_rle.md): what a segment means, the reference decoder and its place in the
machine. -/

namespace Sys2Proof.Machine

/-! ## What a segment means (R151, R152) -/

/-- A segment's values go to the decoder's output, and nothing else changes. -/
theorem exec_segment {i : Instr} (h : i.isCommand = false) (s : State) : exec i s = .next (takeSegment i s) := by
  cases i with
  | run n c => rfl
  | lit vs => rfl
  | quant r g b => cases h
  | rleEnc v => cases h
  | cwBegin n w h' fps => cases h
  | cwFrame px => cases h
  | cwFinalize => cases h
  | rdreg a => cases h
  | illegal op => cases h

/-- Settles O24: the header of a Run has the flag, and the value's two bytes follow. -/
theorem runSegmentMeaning : Obligations.RunSegmentMeaning := by
  refine fun n l u rest s => ⟨?_, exec_segment rfl s⟩
  rw [← segmentHeader_one, decodeSegment_runHeader]
  rfl

/-- Settles O25: the header of a Literal is its count field, by which the values are read back. -/
theorem litSegmentMeaning : Obligations.LitSegmentMeaning := by
  refine fun n vs rest s hlen => ⟨?_, ?_, exec_segment rfl s⟩
  · rw [← segmentHeader_zero, List.cons_append, decodeSegment_litHeader, decodeLit, ← hlen, takeColors_flatMap]
  · rw [List.length_cons, flatMap_le16_length, hlen]
    omega

/-! ## Decoding an encoding (R150, R155) -/

theorem rleDecode_ok {bs rest : List Byte} {i : Instr} (h : decodeSegment bs = .ok (i, rest)) :
    rleDecode bs = (rleDecode rest).map (segmentValues i ++ ·) := by
  cases bs with
  | nil => cases h
  | cons hd tl => rw [rleDecode_cons, h]

/-- Segments that have encodings are decoded one after the other to the values they stand for. -/
theorem rleDecode_flatMap_encode {is : List Instr} (h : ∀ i, i ∈ is → WellFormed i = true ∧ i.isCommand = false) :
    rleDecode (is.flatMap encode) = some (is.flatMap segmentValues) := by
  induction is with
  | nil => rfl
  | cons i is ih =>
    obtain ⟨⟨hwf, hseg⟩, his⟩ := List.forall_mem_cons.1 h
    rw [List.flatMap_cons, rleDecode_ok (segmentDecodesItsEncoding i _ hwf hseg), ih his]
    rfl

/-- Settles O18: the decoder reads back the encoder's segments, and these cover the frame. -/
theorem rleRoundTrip : Obligations.RleRoundTrip := by
  intro f
  rw [rleEncode, rleDecode_flatMap_encode (rleSegments_wellFormed f), segmentsCoverFrame f]

/-! ## The decoder in the machine (R150, R153) -/

/-- Settles O7: with bytes in the decoder's stream, the step fetches from it, and a quiet host leaves the execution as
it is. -/
theorem stepRunsDecodedSegment : Obligations.StepRunsDecodedSegment := by
  refine fun s hs hq => ⟨fun i rest hd => ?_, step_truncated hs⟩
  rw [step_segment hs hd]
  exact underHost_quiet rfl hq

/-- With the host silent, a step of the decoder takes the values of one segment. -/
theorem step_takeSegment {s : State} {i : Instr} {rest : List Byte} (hin : s.input = [])
    (hd : decodeSegment s.segs = .ok (i, rest)) : step s = .next (takeSegment i { s with segs := rest }) := by
  have hs : s.segs ≠ [] := fun h => by rw [h] at hd; cases hd
  obtain ⟨hstep, -⟩ := stepRunsDecodedSegment s hs (by rw [hin]; exact nofun)
  obtain ⟨hseg, -, -⟩ := decodeSegment_encoded hd
  rw [hstep i rest hd, exec_segment hseg]

theorem run_succ_of_next {M : Host.Core} {s t : M.State} (h : M.step s = .next t) (k : Nat) :
    M.run (k + 1) s = M.run k t := by
  rw [Host.Core.run, h]

theorem run_one_of_fault {M : Host.Core} {s : M.State} {r : M.Fault} (h : M.step s = .fault r) :
    M.run 1 s = .fault r := by
  rw [Host.Core.run, h]

/-- How the decoder ends that starts in `s` on a stream for which `RleDecode` gives `r`. -/
def decoderEnd (s : State) (r : Option (List Color565)) : Host.Outcome State Fault Refusal :=
  match r with
  | some f => .next { s with segs := [], frame := s.frame ++ f }
  | none => .fault .truncatedSegment

/-- The values of a segment taken first stand before those of the rest. -/
theorem decoderEnd_takeSegment (i : Instr) (rest : List Byte) (s : State) (r : Option (List Color565)) :
    decoderEnd (takeSegment i { s with segs := rest }) r = decoderEnd s (r.map (segmentValues i ++ ·)) := by
  cases r with
  | none => rfl
  | some f => simp [decoderEnd, takeSegment]

/-- By induction on the length of the stream: a step takes one segment from the machine's stream as `RleDecode` does,
and faults where there is none. -/
theorem run_decoderEnd {s : State} (hin : s.input = []) :
    ∃ k, Host.Core.run core k s = decoderEnd s (rleDecode s.segs) := by
  induction hn : s.segs.length using Nat.strong_induction_on generalizing s with
  | _ n ih =>
    cases hb : s.segs with
    | nil =>
      refine ⟨0, congrArg Host.Outcome.next ?_⟩
      rw [List.append_nil, ← hb]
    | cons hd tl =>
      cases hdec : decodeSegment (hd :: tl) with
      | error e =>
        rw [rleDecode_cons, hdec]
        rw [decodeSegment_error hdec, ← hb] at hdec
        exact ⟨1, run_one_of_fault (M := core) (step_truncated (by simp [hb]) hdec)⟩
      | ok d =>
        obtain ⟨i, rest⟩ := d
        have hstep := step_takeSegment hin (hb ▸ hdec)
        have hshort : rest.length < n := by
          rw [← hn, hb]
          exact Nat.lt_succ_of_le (decodeSegment_rest_le hdec)
        obtain ⟨k, hk⟩ := ih _ hshort (s := takeSegment i { s with segs := rest }) hin rfl
        rw [rleDecode_ok hdec, ← decoderEnd_takeSegment i rest]
        exact ⟨k + 1, (run_succ_of_next (M := core) hstep k).trans hk⟩

/-- Settles O26: the run ends as `RleDecode` says, in both of its cases. -/
theorem decoderRunsToRleDecode : Obligations.DecoderRunsToRleDecode := by
  intro s hin
  obtain ⟨k, hk⟩ := run_decoderEnd hin
  constructor
  · intro f hf
    rw [hf] at hk
    exact ⟨k, hk⟩
  · intro hnone
    rw [hnone] at hk
    exact ⟨k, hk⟩

end Sys2Proof.Machine
end

section
/-! The container family (spec/42_container.md): the state after some transactions, and what the next one makes of
it. -/

namespace Sys2Proof.Machine

/-- `s` after the transactions `ws`, one answer drawn for each, with the sink left as `m` (R54, R55). -/
def wrote (s : State) (ws : List Transaction) (m : List Host.Cell) : State :=
  { s with sink := m, answers := s.answers.drop ws.length, issued := s.issued ++ ws }

@[simp] theorem wrote_nil (s : State) : wrote s [] s.sink = s := by
  simp [wrote]

@[simp] theorem answerAt_wrote (s : State) (ws : List Transaction) (m : List Host.Cell) (j : Nat) :
    answerAt (wrote s ws m) j = answerAt s (ws.length + j) :=
  answerAt_shift rfl (List.length_append ..) j

theorem sinkWrite_wrote_ok {s : State} {ws : List Transaction} (h : answerAt s ws.length = .ok) (addr : Nat)
    (bs : List Byte) (m : List Host.Cell) :
    sinkWrite addr bs (wrote s ws m) = (.ok, wrote s (ws ++ [⟨addr, bs⟩]) (writeBytes addr bs m)) := by
  rw [sinkWrite_ok addr bs (by simpa using h)]
  simp [wrote, issue]

theorem sinkWrite_wrote_fail {s : State} {ws : List Transaction} (h : answerAt s ws.length = .fail) (addr : Nat)
    (bs : List Byte) (m : List Host.Cell) :
    sinkWrite addr bs (wrote s ws m) = (.fail, wrote s (ws ++ [⟨addr, bs⟩])
      (scrambleBytes (s.issued.length + ws.length) addr bs.length m)) := by
  rw [sinkWrite_fail addr bs (by simpa using h)]
  simp [wrote, issue]

/-- The first transaction of an operation, answered ok. -/
theorem sinkWrite_first_ok {s : State} (h : answerAt s 0 = .ok) (addr : Nat) (bs : List Byte) :
    sinkWrite addr bs s = (.ok, wrote s [⟨addr, bs⟩] (writeBytes addr bs s.sink)) := by
  simpa using sinkWrite_wrote_ok (ws := []) h addr bs s.sink

/-- The first transaction of an operation, drawing `fail`. -/
theorem sinkWrite_first_fail {s : State} (h : answerAt s 0 = .fail) (addr : Nat) (bs : List Byte) :
    sinkWrite addr bs s =
      (.fail, wrote s [⟨addr, bs⟩] (scrambleBytes s.issued.length addr bs.length s.sink)) := by
  simpa using sinkWrite_wrote_fail (ws := []) h addr bs s.sink

/-- The transactions of `SinkWrite(addr, bs)` where `bs` may be empty (R68). -/
def placeWrites (addr : Nat) (bs : List Byte) : List Transaction := if bs = [] then [] else [⟨addr, bs⟩]

theorem sinkPlace_wrote_ok {s : State} {ws : List Transaction} {addr : Nat} {bs : List Byte}
    (h : bs ≠ [] → answerAt s ws.length = .ok) (m : List Host.Cell) :
    sinkPlace addr bs (wrote s ws m) = (.ok, wrote s (ws ++ placeWrites addr bs) (writeBytes addr bs m)) := by
  cases bs with
  | nil => simp [placeWrites, writeBytes]
  | cons b bs => exact sinkWrite_wrote_ok (h nofun) addr (b :: bs) m

theorem sinkPlace_wrote_fail {s : State} {ws : List Transaction} {addr : Nat} {bs : List Byte} (hne : bs ≠ [])
    (h : answerAt s ws.length = .fail) (m : List Host.Cell) :
    sinkPlace addr bs (wrote s ws m) = (.fail, wrote s (ws ++ [⟨addr, bs⟩])
      (scrambleBytes (s.issued.length + ws.length) addr bs.length m)) := by
  rw [sinkPlace_ne_nil addr _ hne]
  exact sinkWrite_wrote_fail h addr bs m

/-- An answer that is not ok is `fail`. -/
theorem answer_cases (s : State) (j : Nat) : answerAt s j = .ok ∨ answerAt s j = .fail := by
  cases answerAt s j with
  | ok => exact .inl rfl
  | fail => exact .inr rfl

/-- Of the next `m` answers all are ok, or one is the first `fail`. -/
theorem sinkAnswersOk_or_first_fail (s : State) (m : Nat) :
    SinkAnswersOk s m ∨ ∃ p, p < m ∧ SinkAnswersOk s p ∧ answerAt s p = .fail := by
  induction m with
  | zero => exact .inl nofun
  | succ m ih =>
    rcases ih with hok | ⟨p, hp, hfirst⟩
    · rcases answer_cases s m with h | h
      · exact .inl (Nat.forall_lt_succ_right.2 ⟨hok, h⟩)
      · exact .inr ⟨m, Nat.lt_succ_self m, hok, h⟩
    · exact .inr ⟨p, Nat.lt_succ_of_lt hp, hfirst⟩

end Sys2Proof.Machine
end

section
/-! The container family (spec/42_container.md): `CW_BEGIN` (block `B-BEGIN`, R180). -/

namespace Sys2Proof.Machine

theorem zeros_eq_nil_iff {n : Word} : zeros (Config.entrySize * n.toNat) = [] ↔ n = 0 := by
  simp [zeros, BitVec.toNat_eq]

/-- The header, then the placeholders where there are any (R68). -/
theorem beginWrites_eq (m : Magic) (n : Word) (w h : Half) (fps : Byte) :
    beginWrites m n w h fps =
      [⟨0, headerImage m n w h fps 0⟩] ++ placeWrites Config.headerSize (zeros (Config.entrySize * n.toNat)) := by
  by_cases hn : n = 0
  · simp [beginWrites, placeWrites, hn, zeros]
  · rw [beginWrites, placeWrites, if_neg hn, if_neg (mt zeros_eq_nil_iff.1 hn)]
    rfl

/-- In `IDLE`, on a seekable sink and within both capacities, `CW_BEGIN` goes on to its writes. -/
theorem runBegin_writes {n : Word} {s : State} (w h : Half) (fps : Byte) (hp : s.phase = .idle)
    (hseek : s.cfg.seekable = true) (hn : n.toNat ≤ s.cfg.maxFrames.toNat) (hcap : blobBase n ≤ s.cfg.cap.toNat) :
    runBegin n w h fps s = writeHead (setMeta n w h fps s) := by
  rw [runBegin, if_neg (not_not.2 hp)]
  exact (if_neg (by simp [hseek])).trans ((if_neg (not_lt.2 hn)).trans (if_neg (not_lt.2 hcap)))

theorem writeHead_header_fails {s : State} (h0 : answerAt s 0 = .fail) :
    writeHead s = failWith .ioError (wrote s [⟨0, headerImage s.cfg.magic s.n s.w s.h s.fps 0⟩]
      (scrambleBytes s.issued.length 0 20 s.sink)) := by
  rw [writeHead, sinkWrite_first_fail h0]
  rfl

theorem recordIndex_wrote (s : State) (ws : List Transaction) (m : List Host.Cell) :
    recordIndex (wrote s ws m) = wrote (recordIndex s) ws m := rfl

/-- With the header written, the rest of `CW_BEGIN` is the placeholder write. -/
theorem writeHead_header_ok {s : State} (h0 : answerAt s 0 = .ok) :
    writeHead s =
      onOk (sinkPlace Config.headerSize (zeros (Config.entrySize * s.n.toNat))
          (wrote (recordIndex s) [⟨0, headerImage s.cfg.magic s.n s.w s.h s.fps 0⟩]
            (writeBytes 0 (headerImage s.cfg.magic s.n s.w s.h s.fps 0) s.sink)))
        fun s2 => respondOk [] (openConversion s2) := by
  rw [writeHead, sinkWrite_first_ok h0, onOk_of_ok _ rfl, recordIndex_wrote]

theorem writeHead_ok {s : State} (h0 : answerAt s 0 = .ok) (h1 : s.n ≠ 0 → answerAt s 1 = .ok) :
    writeHead s = respondOk [] (openConversion (wrote (recordIndex s)
      (beginWrites s.cfg.magic s.n s.w s.h s.fps)
      (writeBytes Config.headerSize (zeros (Config.entrySize * s.n.toNat))
        (writeBytes 0 (headerImage s.cfg.magic s.n s.w s.h s.fps 0) s.sink)))) := by
  have hplace := sinkPlace_wrote_ok (s := recordIndex s)
    (ws := [⟨0, headerImage s.cfg.magic s.n s.w s.h s.fps 0⟩]) (addr := Config.headerSize)
    fun hne => h1 (mt zeros_eq_nil_iff.2 hne)
  rw [writeHead_header_ok h0, hplace, ← beginWrites_eq]
  rfl

theorem writeHead_holes_fail {s : State} (h0 : answerAt s 0 = .ok) (h1 : answerAt s 1 = .fail) (hn : s.n ≠ 0) :
    writeHead s = failWith .ioError (wrote (recordIndex s)
      (beginWrites s.cfg.magic s.n s.w s.h s.fps)
      (scrambleBytes (s.issued.length + 1) Config.headerSize (Config.entrySize * s.n.toNat)
        (writeBytes 0 (headerImage s.cfg.magic s.n s.w s.h s.fps 0) s.sink))) := by
  have hholes := mt zeros_eq_nil_iff.1 hn
  have hfail := sinkPlace_wrote_fail (s := recordIndex s)
    (ws := [⟨0, headerImage s.cfg.magic s.n s.w s.h s.fps 0⟩]) (addr := Config.headerSize) hholes h1
  rw [writeHead_header_ok h0, hfail, beginWrites_eq, placeWrites, if_neg hholes, zeros_length]
  rfl

/-- Settles O31: both transactions are answered ok, the second one only where a placeholder is written. -/
theorem beginOpensConversion : Obligations.BeginOpensConversion := by
  intro n w h fps s hp hseek hn hcap writes hok
  have hlen : writes.length = if n = 0 then 1 else 2 := beginWrites_length ..
  have h0 : answerAt s 0 = .ok := hok 0 (by rw [hlen]; split_ifs <;> decide)
  have h1 : n ≠ 0 → answerAt s 1 = .ok := fun hne => hok 1 (by rw [hlen, if_neg hne]; decide)
  refine congrArg Host.Outcome.next ?_
  rw [runBegin_writes w h fps hp hseek hn hcap, writeHead_ok (s := setMeta n w h fps s) h0 h1]
  rfl

/-- Settles O33: the three tests of block `B-BEGIN` in their order. -/
theorem beginFailsBeforeWriting : Obligations.BeginFailsBeforeWriting := by
  intro n w h fps s hp failed
  have hrun : exec (.cwBegin n w h fps) s = .next (beginConversion (setMeta n w h fps s)) :=
    congrArg Host.Outcome.next (if_neg (not_not.2 hp))
  rw [hrun]
  refine ⟨fun hseek => ?_, fun hseek hn => ?_, fun hseek hn hcap => ?_⟩
  · exact congrArg Host.Outcome.next (if_pos hseek)
  · exact congrArg Host.Outcome.next ((if_neg (by simp [hseek])).trans (if_pos hn))
  · exact congrArg Host.Outcome.next
      ((if_neg (by simp [hseek])).trans ((if_neg (not_lt.2 hn)).trans (if_pos hcap)))

/-- Settles O34: the header write, or the placeholder write after it, is the one that draws `fail`. -/
theorem beginWriteFails : Obligations.BeginWriteFails := by
  intro n w h fps s hp hseek hn hcap writes
  have hrun : exec (.cwBegin n w h fps) s = .next (writeHead (setMeta n w h fps s)) :=
    congrArg Host.Outcome.next (runBegin_writes w h fps hp hseek hn hcap)
  rw [hrun]
  refine ⟨fun h0 => congrArg Host.Outcome.next ?_, fun h0 h1 hne => congrArg Host.Outcome.next ?_⟩
  · rw [writeHead_header_fails (s := setMeta n w h fps s) h0]
    rfl
  · have hlen : 2 = writes.length := by rw [beginWrites_length, if_neg hne]
    rw [writeHead_holes_fail (s := setMeta n w h fps s) h0 h1 hne, hlen]
    rfl

/-- Settles O39: outside `IDLE` the response is all; else what holds inside `CW_BEGIN` holds of the state it leaves. -/
theorem beginFrame : Obligations.BeginFrame := by
  intro n w h fps s t hx
  cases hx
  rcases runBegin_sum n w h fps s with ⟨hp, eq⟩ | ⟨hp, u, hu, ⟨e, -, eq⟩ | ⟨-, -, -, eq⟩⟩ <;> rw [eq]
  · exact ⟨fun _ => rfl, rfl, id, fun _ => rfl, fun _ _ => rfl⟩
  · refine ⟨fun hne => absurd hp hne, ?_, fun hf => ?_, fun _ => hu.k, hu.outside⟩
    · rw [hu.eq]
      rfl
    · cases hu.finished.symm.trans hf
  · refine ⟨fun hne => absurd hp hne, ?_, fun hf => ?_, fun hne => absurd rfl hne, hu.outside⟩
    · rw [hu.eq]
      rfl
    · cases hu.finished.symm.trans hf

/-- A `CW_BEGIN` opens a conversion only where every test passes and every answer is ok: in every other case it fails
(R180, R236). -/
theorem cwBegin_opens {n : Word} {w h : Half} {fps : Byte} {s t : State} (hp : s.phase = .idle)
    (hx : exec (.cwBegin n w h fps) s = .next t) (ht : t.phase = .opened) :
    s.cfg.seekable = true ∧ n.toNat ≤ s.cfg.maxFrames.toNat ∧ blobBase n ≤ s.cfg.cap.toNat ∧
      SinkAnswersOk s (beginWrites s.cfg.magic n w h fps).length := by
  have hno {u : State} (hu : exec (.cwBegin n w h fps) s = .next u) (hf : u.phase = .failed) : False := by
    cases hx.symm.trans hu
    cases ht.symm.trans hf
  obtain ⟨hs, hn, hc⟩ := beginFailsBeforeWriting n w h fps s hp
  have hseek : s.cfg.seekable = true := Bool.of_not_eq_false fun h => hno (hs h) rfl
  have hmax : n.toNat ≤ s.cfg.maxFrames.toNat := not_lt.1 fun h => hno (hn hseek h) rfl
  have hcap : blobBase n ≤ s.cfg.cap.toNat := not_lt.1 fun h => hno (hc hseek hmax h) rfl
  obtain ⟨hf0, hf1⟩ := beginWriteFails n w h fps s hp hseek hmax hcap
  refine ⟨hseek, hmax, hcap, ?_⟩
  have h0 : answerAt s 0 = .ok := (answer_cases s 0).resolve_right fun h => hno (hf0 h) rfl
  intro j hj
  rw [beginWrites_length] at hj
  split_ifs at hj with hz
  · rwa [Nat.lt_one_iff.1 hj]
  · obtain rfl | rfl : j = 0 ∨ j = 1 := by omega
    · exact h0
    · exact (answer_cases s 1).resolve_right fun h => hno (hf1 h0 h hz) rfl

end Sys2Proof.Machine
end

section
/-! The container family (spec/42_container.md): `CW_FRAME` (block `B-FRAME`, R181). -/

namespace Sys2Proof.Machine

/-- In `OPEN`, with a frame expected and of the right size, `CW_FRAME` goes on to place its blob. -/
theorem runFrame_places {px : List Pixel} {s : State} (hp : s.phase = .opened) (hk : s.k ≠ s.n)
    (hpx : px.length = s.w.toNat * s.h.toNat) :
    runFrame px s = placeBlob (rleEncode (quantizeFrame px)) s :=
  (if_neg (not_not.2 hp)).trans ((if_neg hk).trans (if_neg (not_not.2 hpx)))

theorem placeBlob_ok {blob : List Byte} {s : State} (hcap : s.pos.toNat + blob.length ≤ s.cfg.cap.toNat)
    (hok : blob ≠ [] → answerAt s 0 = .ok) :
    placeBlob blob s = respondOk [] (recordFrame blob.length
      (wrote s (placeWrites s.pos.toNat blob) (writeBytes s.pos.toNat blob s.sink))) := by
  have hplace := sinkPlace_wrote_ok (ws := []) (addr := s.pos.toNat) hok s.sink
  rw [wrote_nil] at hplace
  rw [placeBlob, if_neg (not_lt.2 hcap), hplace]
  rfl

theorem placeBlob_fail {blob : List Byte} {s : State} (hcap : s.pos.toNat + blob.length ≤ s.cfg.cap.toNat)
    (hne : blob ≠ []) (hf : answerAt s 0 = .fail) :
    placeBlob blob s = failWith .ioError (wrote s [⟨s.pos.toNat, blob⟩]
      (scrambleBytes s.issued.length s.pos.toNat blob.length s.sink)) := by
  rw [placeBlob, if_neg (not_lt.2 hcap), sinkPlace_ne_nil _ _ hne, sinkWrite_first_fail hf]
  rfl

/-- Settles O35: the blob's one transaction, if it has one, is answered ok, and the frame is recorded. -/
theorem frameWritesBlob : Obligations.FrameWritesBlob := by
  intro px s hp hk hpx blob writes hcap hok
  have h0 : blob ≠ [] → answerAt s 0 = .ok := fun hne => hok 0 (by simp [writes, hne])
  refine ⟨_, congrArg Host.Outcome.next ((runFrame_places hp hk hpx).trans (placeBlob_ok hcap h0)), rfl, fun i => ?_⟩
  exact ⟨offAt_recordFrame blob.length (wrote s _ _) i, sizeAt_recordFrame blob.length (wrote s _ _) i⟩

/-- Settles O36: the tests of block `B-FRAME` in their order, then its write. -/
theorem frameFails : Obligations.FrameFails := by
  intro px s hp blob failed
  refine ⟨fun hk => ?_, fun hk hpx => ?_, fun hk hpx hcap => ?_, fun hk hpx hcap hne hf => ?_⟩
  · exact congrArg Host.Outcome.next ((if_neg (not_not.2 hp)).trans (if_pos hk))
  · exact congrArg Host.Outcome.next ((if_neg (not_not.2 hp)).trans ((if_neg hk).trans (if_pos hpx)))
  · exact congrArg Host.Outcome.next ((runFrame_places hp hk hpx).trans (if_pos hcap))
  · exact congrArg Host.Outcome.next ((runFrame_places hp hk hpx).trans (placeBlob_fail hcap hne hf))

/-- Settles O40: each outcome of block `B-FRAME` changes only the response, the place of the blob, and on success entry
`K`. -/
theorem frameFrame : Obligations.FrameFrame := by
  intro px s t hx blob
  cases hx
  have hside := sinkPlace_side s.pos.toNat blob s
  have hout : ∀ x, x < s.pos.toNat ∨ s.pos.toNat + blob.length ≤ x →
      cellGet (sinkPlace s.pos.toNat blob s).2.sink x = cellGet s.sink x := fun _ => sinkPlace_outside s
  have hoff := hside.tablesKept.offAt
  have hsize := hside.tablesKept.sizeAt
  rcases runFrame_cases px s with ⟨-, eq⟩ | ⟨hp, ⟨e, -, eq⟩ | ⟨-, -, -, ⟨-, eq⟩ | ⟨-, eq⟩⟩⟩ <;> rw [eq]
  · exact ⟨rfl, fun _ _ => ⟨rfl, rfl⟩, fun _ => ⟨rfl, rfl, rfl, rfl⟩, fun _ _ => rfl⟩
  · exact ⟨rfl, fun _ _ => ⟨rfl, rfl⟩, fun _ => ⟨rfl, rfl, rfl, rfl⟩, fun _ _ => rfl⟩
  · refine ⟨?_, fun i _ => ⟨hoff i, hsize i⟩, fun _ => ⟨hside.off, hside.size, hside.pos, hside.k⟩, hout⟩
    rw [hside.eq]
    rfl
  · refine ⟨?_, fun i hi => ⟨?_, ?_⟩, fun hne => absurd (hside.phase.trans hp) hne, hout⟩
    · rw [hside.eq]
      rfl
    · exact (offAt_recordFrame blob.length _ i).trans ((if_neg (hside.k ▸ hi)).trans (hoff i))
    · exact (sizeAt_recordFrame blob.length _ i).trans ((if_neg (hside.k ▸ hi)).trans (hsize i))

/-- A `CW_FRAME` leaves the conversion open only where every test passes and the blob's write is answered ok: in every
other case it fails (R181, R236). -/
theorem cwFrame_places {px : List Pixel} {s t : State} (hp : s.phase = .opened)
    (hx : exec (.cwFrame px) s = .next t) (ht : t.phase = .opened) :
    s.k ≠ s.n ∧ px.length = s.w.toNat * s.h.toNat ∧
      s.pos.toNat + (rleEncode (quantizeFrame px)).length ≤ s.cfg.cap.toNat ∧
      SinkAnswersOk s (placeWrites s.pos.toNat (rleEncode (quantizeFrame px))).length := by
  have hno {u : State} (hu : exec (.cwFrame px) s = .next u) (hf : u.phase = .failed) : False := by
    cases hx.symm.trans hu
    cases ht.symm.trans hf
  obtain ⟨hmany, hsize, hlong, hwrite⟩ := frameFails px s hp
  have hk : s.k ≠ s.n := fun h => hno (hmany h) rfl
  have hpx : px.length = s.w.toNat * s.h.toNat := not_not.1 fun h => hno (hsize hk h) rfl
  have hcap : s.pos.toNat + (rleEncode (quantizeFrame px)).length ≤ s.cfg.cap.toNat :=
    not_lt.1 fun h => hno (hlong hk hpx h) rfl
  refine ⟨hk, hpx, hcap, fun j hj => ?_⟩
  unfold placeWrites at hj
  split_ifs at hj with hne
  · exact absurd hj (Nat.not_lt_zero j)
  · rw [Nat.lt_one_iff.1 hj]
    exact (answer_cases s 0).resolve_right fun h => hno (hwrite hk hpx hcap hne h) rfl

end Sys2Proof.Machine
end

section
/-! The container family (spec/42_container.md): `CW_FINALIZE` (block `B-FIN`, R182). -/

namespace Sys2Proof.Machine

/-- The patches of the header: the index offset, and the count where frames are missing (R187). -/
def headPatches (s : State) : List Transaction :=
  ⟨16, le32 s.idx⟩ :: if s.k.toNat < s.n.toNat then [⟨4, le32 s.k⟩] else []

/-- The sink of `s` with the header patched. -/
def headPatched (s : State) : List Host.Cell :=
  if s.k.toNat < s.n.toNat then writeBytes 4 (le32 s.k) (writeBytes 16 (le32 s.idx) s.sink)
  else writeBytes 16 (le32 s.idx) s.sink

theorem headPatches_length (s : State) : (headPatches s).length = if s.k.toNat < s.n.toNat then 2 else 1 := by
  unfold headPatches
  split_ifs <;> rfl

/-- The header, then the entries in order (R68). -/
theorem finalizeWrites_eq (s : State) :
    finalizeWrites s = headPatches s ++ (List.range s.k.toNat).map (entryPatch s) := rfl

/-- In `OPEN`, with no frame missing or under `TRUNCATE`, `CW_FINALIZE` goes on to its patches. -/
theorem runFinalize_patches {s : State} (hp : s.phase = .opened)
    (hall : s.k.toNat < s.n.toNat → s.cfg.shortPolicy = .truncate) : runFinalize s = patchContainer s := by
  have hshort : ¬(s.k.toNat < s.n.toNat ∧ s.cfg.shortPolicy = .fail) := fun ⟨hlt, hfail⟩ => by
    cases hfail.symm.trans (hall hlt)
  exact (if_neg (not_not.2 hp)).trans (if_neg hshort)

/-- With the index offset patched, the rest is the count and the entries. -/
theorem patchContainer_idx_ok {s : State} (h0 : answerAt s 0 = .ok) :
    patchContainer s =
      onOk (patchCount (wrote s [⟨16, le32 s.idx⟩] (writeBytes 16 (le32 s.idx) s.sink))) fun s2 =>
        onOk (patchEntries s2.k.toNat 0 s2) fun s3 => respondOk [] { s3 with phase := .done, finished := true } := by
  rw [patchContainer, sinkWrite_first_ok h0, onOk_of_ok _ rfl]

/-- With the header patched, the rest is the entries. -/
theorem patchContainer_head_ok {s : State} (hok : SinkAnswersOk s (headPatches s).length) :
    patchContainer s =
      onOk (patchEntries s.k.toNat 0 (wrote s (headPatches s) (headPatched s))) fun s3 =>
        respondOk [] { s3 with phase := .done, finished := true } := by
  rw [headPatches_length] at hok
  rw [patchContainer_idx_ok (hok 0 (by split_ifs <;> decide)), headPatches, headPatched]
  by_cases hlt : s.k.toNat < s.n.toNat
  · have hcount : patchCount (wrote s [⟨16, le32 s.idx⟩] (writeBytes 16 (le32 s.idx) s.sink)) = _ :=
      (if_pos hlt).trans (sinkWrite_wrote_ok (hok 1 (by rw [if_pos hlt]; decide)) 4 (le32 s.k) _)
    rw [hcount, if_pos hlt, if_pos hlt, onOk_of_ok _ rfl]
    rfl
  · have hcount : patchCount (wrote s [⟨16, le32 s.idx⟩] (writeBytes 16 (le32 s.idx) s.sink)) = _ := if_neg hlt
    rw [hcount, if_neg hlt, if_neg hlt, onOk_of_ok _ rfl]
    rfl

theorem tableEntry_wrote (s : State) (ws : List Transaction) (m : List Host.Cell) :
    tableEntry (wrote s ws m) = tableEntry s := rfl

theorem entryPatch_wrote (s : State) (ws : List Transaction) (m : List Host.Cell) :
    entryPatch (wrote s ws m) = entryPatch s := rfl

/-- The entries after the transactions `ws`, all answered ok. -/
theorem patchEntries_wrote_ok {s : State} {ws : List Transaction} {c : Nat} (hok : SinkAnswersOk s (ws.length + c))
    (m : List Host.Cell) :
    patchEntries c 0 (wrote s ws m) = (.ok, wrote s (ws ++ (List.range c).map (entryPatch s))
      (writeBytes s.idx.toNat ((List.range c).flatMap (tableEntry s)) m)) := by
  rw [patchEntries_ok c 0 (s := wrote s ws m) fun j hj => (answerAt_wrote ..).trans (hok _ (by omega)),
    ← List.range_eq_range', tableEntry_wrote, entryPatch_wrote]
  simp [wrote]

/-- The entries after the transactions `ws`, the `i`-th of them drawing `fail`. -/
theorem patchEntries_wrote_fail {s : State} {ws : List Transaction} {c i : Nat} (hi : i < c)
    (hok : SinkAnswersOk s (ws.length + i)) (hf : answerAt s (ws.length + i) = .fail) (m : List Host.Cell) :
    patchEntries c 0 (wrote s ws m) = (.fail, wrote s (ws ++ (List.range (i + 1)).map (entryPatch s))
      (scrambleBytes (s.issued.length + (ws.length + i)) (s.idx.toNat + 8 * i) 8
        (writeBytes s.idx.toNat ((List.range i).flatMap (tableEntry s)) m))) := by
  rw [patchEntries_fail (s := wrote s ws m) hi (fun j hj => (answerAt_wrote ..).trans (hok _ (by omega)))
    ((answerAt_wrote ..).trans hf), ← List.range_eq_range', ← List.range_eq_range', tableEntry_wrote,
    entryPatch_wrote]
  simp [wrote, Nat.add_assoc]

/-- Settles O37: the header's patches and the entries' are all answered ok. -/
theorem finalizePatches : Obligations.FinalizePatches := by
  intro s hp hall hok
  rw [finalizeWrites_eq] at hok ⊢
  have hlen : ((List.range s.k.toNat).map (entryPatch s)).length = s.k.toNat := by simp
  rw [List.length_append, hlen] at hok
  refine congrArg Host.Outcome.next ?_
  rw [runFinalize_patches hp hall, patchContainer_head_ok (sinkAnswersOk_mono hok (Nat.le_add_right ..)),
    patchEntries_wrote_ok hok]
  rfl

/-- The state in which the patches `ws` end that are the first ones of `CW_FINALIZE`, the last of them drawing
`fail`. -/
theorem exec_cwFinalize_stops {s : State} {ws : List Transaction} {m : List Host.Cell}
    (hrun : runFinalize s = failWith .ioError (wrote s ws m)) (hws : ws <+: finalizeWrites s) :
    exec .cwFinalize s = .next { s with
      err := 0x10, phase := .failed, sink := m, answers := s.answers.drop ws.length
      issued := s.issued ++ (finalizeWrites s).take ws.length, out := s.out ++ [[0x10]] } := by
  rw [← List.prefix_iff_eq_take.1 hws]
  exact congrArg Host.Outcome.next hrun

/-- Settles O38: the patch that fails is the index offset's, the count's, or an entry's. -/
theorem finalizeFails : Obligations.FinalizeFails := by
  intro s hp failed first counted base
  refine ⟨fun hlt hfail => ?_, fun hall => ⟨fun h0 => ?_, fun hlt h0 h1 => ?_, fun i hi hok hf => ?_⟩⟩
  · have hrun : runFinalize s = failWith .frameCountMismatch s :=
      (if_neg (not_not.2 hp)).trans (if_pos ⟨hlt, hfail⟩)
    refine (congrArg Host.Outcome.next hrun).trans ?_
    simp only [failed, List.take_zero, List.append_nil]
    rfl
  · refine exec_cwFinalize_stops (ws := [⟨16, le32 s.idx⟩]) ?_ ⟨_, rfl⟩
    rw [runFinalize_patches hp hall, patchContainer, sinkWrite_first_fail h0]
    rfl
  · refine exec_cwFinalize_stops (ws := [⟨16, le32 s.idx⟩, ⟨4, le32 s.k⟩]) ?_ ?_
    · have hcount : patchCount (wrote s [⟨16, le32 s.idx⟩] first) = _ :=
        (if_pos hlt).trans (sinkWrite_wrote_fail (ws := [_]) h1 4 (le32 s.k) _)
      rw [runFinalize_patches hp hall, patchContainer_idx_ok h0, hcount]
      rfl
    · rw [finalizeWrites_eq, headPatches, if_pos hlt]
      exact List.prefix_append ..
  · rw [show base = _ from (headPatches_length s).symm] at hok hf ⊢
    have hlen : (headPatches s).length + i + 1 =
        (headPatches s ++ (List.range (i + 1)).map (entryPatch s)).length := by simp [Nat.add_assoc]
    rw [hlen]
    refine exec_cwFinalize_stops ?_ ?_
    · rw [runFinalize_patches hp hall, patchContainer_head_ok (sinkAnswersOk_mono hok (Nat.le_add_right ..)),
        patchEntries_wrote_fail hi hok hf]
      rfl
    · have hrange : List.range (i + 1) = (List.range s.k.toNat).take (i + 1) := by
        rw [List.take_range, min_eq_left (Nat.succ_le_of_lt hi)]
      rw [finalizeWrites_eq, List.prefix_append_right_inj, hrange]
      exact (List.take_prefix ..).map _

/-- Settles O41: the patches change the sink at their three places, and the outcome sets `PHASE`, `ERR` and the
response. -/
theorem finalizeFrame : Obligations.FinalizeFrame := by
  intro s t hx
  cases hx
  rcases runFinalize_sum s with ⟨-, eq⟩ | ⟨-, u, hu, ⟨e, -, eq⟩ | eq⟩ <;> rw [eq]
  · exact ⟨rfl, fun _ => rfl, fun _ _ _ _ => rfl⟩
  · refine ⟨?_, fun _ => hu.side.finished, hu.outside⟩
    rw [hu.side.eq]
    rfl
  · refine ⟨?_, fun hne => absurd rfl hne, hu.outside⟩
    rw [hu.side.eq]
    rfl

/-- A `CW_FINALIZE` completes the container only with no frame missing or under `TRUNCATE`, and with every answer ok:
in every other case it fails (R182, R189). -/
theorem cwFinalize_completes {s t : State} (hp : s.phase = .opened) (hx : exec .cwFinalize s = .next t)
    (ht : t.phase = .done) :
    (s.k.toNat < s.n.toNat → s.cfg.shortPolicy = .truncate) ∧ SinkAnswersOk s (finalizeWrites s).length := by
  have hno {u : State} (hu : exec .cwFinalize s = .next u) (hf : u.phase = .failed) : False := by
    cases hx.symm.trans hu
    cases ht.symm.trans hf
  obtain ⟨hshort, hpatch⟩ := finalizeFails s hp
  have hall : s.k.toNat < s.n.toNat → s.cfg.shortPolicy = .truncate := fun hlt => by
    cases hpol : s.cfg.shortPolicy with
    | truncate => rfl
    | fail => exact (hno (hshort hlt hpol) rfl).elim
  obtain ⟨hidx, hcount, hentry⟩ := hpatch hall
  refine ⟨hall, (sinkAnswersOk_or_first_fail s _).resolve_right ?_⟩
  rintro ⟨p, hlt, hok, hf⟩
  rw [finalizeWrites_length] at hlt
  by_cases hp0 : p = 0
  · subst hp0
    exact hno (hidx hf) rfl
  by_cases hhead : p < if s.k.toNat < s.n.toNat then 2 else 1
  · split_ifs at hhead with hmiss
    · obtain rfl : p = 1 := by omega
      exact hno (hcount hmiss (hok 0 Nat.one_pos) hf) rfl
    · omega
  · obtain ⟨i, rfl⟩ := Nat.exists_eq_add_of_le (not_lt.1 hhead)
    exact hno (hentry i (by omega) hok hf) rfl

end Sys2Proof.Machine
end

section
/-! The container family (spec/42_container.md): the bytes of a container while it is built and when it is finished
(R58, R183-R187). -/

namespace Sys2Proof.Machine

/-! ## Bytes that a sink holds -/

/-- The sink `m` holds the bytes `bs` at `a`, `a + 1`, … (R60). -/
def Holds (m : List Host.Cell) (a : Nat) (bs : List Byte) : Prop := readBytes m a bs.length = some bs

theorem holds_append {m : List Host.Cell} {a : Nat} {xs ys : List Byte} :
    Holds m a (xs ++ ys) ↔ Holds m a xs ∧ Holds m (a + xs.length) ys := by
  constructor
  · intro h
    obtain ⟨-, hget⟩ := readBytes_eq_some.1 h
    rw [List.length_append] at hget
    refine ⟨readBytes_eq_some.2 ⟨rfl, fun j hj => ?_⟩, readBytes_eq_some.2 ⟨rfl, fun j hj => ?_⟩⟩
    · rw [hget j (by omega), List.getElem?_append_left hj]
    · rw [Nat.add_assoc, hget _ (by omega), List.getElem?_append_right (Nat.le_add_right ..), Nat.add_sub_cancel_left]
  · rintro ⟨hx, hy⟩
    rw [Holds, List.length_append]
    exact readBytes_append hx hy

theorem holds_writeBytes_same (a : Nat) (bs : List Byte) (m : List Host.Cell) : Holds (writeBytes a bs m) a bs :=
  readBytes_writeBytes_same a bs m

theorem Holds.writeBytes_other {m : List Host.Cell} {a b : Nat} {bs cs : List Byte} (h : Holds m b cs)
    (hab : b + cs.length ≤ a ∨ a + bs.length ≤ b) : Holds (writeBytes a bs m) b cs :=
  (readBytes_writeBytes_other bs m hab).trans h

/-- A write over a part of what is held replaces that part. -/
theorem Holds.patch {m : List Host.Cell} {a b : Nat} {pre old new post : List Byte}
    (h : Holds m a (pre ++ (old ++ post))) (hb : b = a + pre.length) (hlen : new.length = old.length) :
    Holds (writeBytes b new m) a (pre ++ (new ++ post)) := by
  subst hb
  obtain ⟨hpre, hrest⟩ := holds_append.1 h
  obtain ⟨-, hpost⟩ := holds_append.1 hrest
  refine holds_append.2 ⟨hpre.writeBytes_other (.inl le_rfl),
    holds_append.2 ⟨holds_writeBytes_same .., ?_⟩⟩
  rw [hlen]
  exact hpost.writeBytes_other (.inr (by rw [hlen]))

/-! ## The parts of a container -/

theorem blobs_append (fs gs : List (List Color565)) : blobs (fs ++ gs) = blobs fs ++ blobs gs :=
  List.flatMap_append

theorem blobs_cons (f : List Color565) (fs : List (List Color565)) : blobs (f :: fs) = rleEncode f ++ blobs fs :=
  List.flatMap_cons

@[simp] theorem blobs_nil : blobs [] = [] := rfl

theorem blobs_concat (fs : List (List Color565)) (f : List Color565) : blobs (fs ++ [f]) = blobs fs ++ rleEncode f := by
  rw [blobs_append, blobs_cons, blobs_nil, List.append_nil]

/-- The blob of frame `i` stands after those of the frames before it (R183). -/
theorem blobs_split {fs : List (List Color565)} {i : Nat} {f : List Color565} (h : fs[i]? = some f) :
    blobs fs = blobs (fs.take i) ++ (rleEncode f ++ blobs (fs.drop (i + 1))) := by
  obtain ⟨hi, rfl⟩ := List.getElem?_eq_some_iff.1 h
  rw [← blobs_cons, List.cons_getElem_drop_succ, ← blobs_append, List.take_append_drop]

@[simp] theorem entryImages_length (base : Nat) (fs : List (List Color565)) :
    (entryImages base fs).length = 8 * fs.length := by
  induction fs generalizing base with
  | nil => rfl
  | cons f fs ih =>
    rw [entryImages, List.length_append, ih, List.length_cons, show (entryImage _ _).length = 8 from rfl]
    omega

/-- The entries of frames whose blobs begin at `base`, one by one. -/
theorem flatMap_range_eq_entryImages {g : Nat → List Byte} {base : Nat} {fs : List (List Color565)}
    (hg : ∀ i f, fs[i]? = some f →
      g i = entryImage (BitVec.ofNat 32 (base + (blobs (fs.take i)).length)) (BitVec.ofNat 32 (rleEncode f).length)) :
    (List.range fs.length).flatMap g = entryImages base fs := by
  induction fs generalizing base g with
  | nil => rfl
  | cons f fs ih =>
    rw [List.length_cons, List.range_succ_eq_map, List.flatMap_cons, List.flatMap_map, entryImages]
    congr 1
    · exact hg 0 f rfl
    · refine ih fun i f' hf' => (hg (i + 1) f' hf').trans ?_
      rw [List.take_succ_cons, blobs_cons, List.length_append, Nat.add_assoc]

/-- The part of the header between the frame count and the index offset (R90). -/
def headerMiddle (w h : Half) (fps : Byte) : List Byte :=
  le16 w ++ le16 h ++ [fps] ++ [Config.compressionRle] ++ [0, 0]

theorem headerImage_eq (m : Magic) (n : Word) (w h : Half) (fps : Byte) (io : Word) :
    headerImage m n w h fps io = magicBytes m ++ (le32 n ++ (headerMiddle w h fps ++ le32 io)) := rfl

/-- The header and what follows, at the frame count. -/
theorem headerImage_append_count (m : Magic) (n : Word) (w h : Half) (fps : Byte) (io : Word) (l : List Byte) :
    headerImage m n w h fps io ++ l = magicBytes m ++ (le32 n ++ (headerMiddle w h fps ++ (le32 io ++ l))) := by
  simp only [headerImage_eq, List.append_assoc]

/-- The header and what follows, at the index offset. -/
theorem headerImage_append_offset (m : Magic) (n : Word) (w h : Half) (fps : Byte) (io : Word) (l : List Byte) :
    headerImage m n w h fps io ++ l = (magicBytes m ++ (le32 n ++ headerMiddle w h fps)) ++ (le32 io ++ l) := by
  simp only [headerImage_eq, List.append_assoc]

/-- The header of a finished container and what follows it. -/
theorem containerImage_eq (s : State) (fs : List (List Color565)) :
    containerImage s fs = headerImage s.cfg.magic (BitVec.ofNat 32 fs.length) s.w s.h s.fps 20 ++
      (entryImages (blobBase s.n) fs ++ (zeros (Config.entrySize * (s.n.toNat - fs.length)) ++ blobs fs)) := by
  simp only [containerImage, List.append_assoc]

/-! ## The open container -/

/-- The tables of an open conversion are the entries of its frames. -/
theorem OpenWith.entries {fs : List (List Color565)} {s : State} (hs : OpenWith fs s) :
    (List.range s.k.toNat).flatMap (tableEntry s) = entryImages (blobBase s.n) fs := by
  rw [hs.count]
  refine flatMap_range_eq_entryImages fun i f hf => ?_
  rw [tableEntry, ← hs.offs i f hf, ← hs.sizes i f hf, BitVec.ofNat_toNat, BitVec.ofNat_toNat]
  simp

/-- What the sink holds while a conversion is open (R94): the header, the placeholders, the blobs. -/
theorem OpenWith.holds {fs : List (List Color565)} {s : State} (hs : OpenWith fs s) :
    Holds s.sink 0 (headerImage s.cfg.magic s.n s.w s.h s.fps 0 ++
      (zeros (Config.entrySize * s.n.toNat) ++ blobs fs)) := by
  refine holds_append.2 ⟨hs.header, holds_append.2 ⟨?_, ?_⟩⟩
  · rw [Holds, zeros_length]
    exact hs.table
  · rw [zeros_length]
    exact hs.region

/-- A conversion just opened has no frames. -/
theorem openWith_nil {n : Word} {w h : Half} {fps : Byte} {s t : State} (hp : s.phase = .idle)
    (hx : exec (.cwBegin n w h fps) s = .next t) (ht : t.phase = .opened) : OpenWith [] t := by
  obtain ⟨hseek, hn, hcap, hok⟩ := cwBegin_opens hp hx ht
  cases hx.symm.trans (beginOpensConversion n w h fps s hp hseek hn hcap hok)
  have hlt := s.cfg.cap.isLt
  exact {
    phase_eq := rfl
    count := rfl
    room := Nat.zero_le _
    idx_eq := rfl
    pos_eq := Nat.mod_eq_of_lt (hcap.trans_lt hlt)
    offs := nofun
    sizes := nofun
    header := Holds.writeBytes_other (holds_writeBytes_same ..) (.inl le_rfl)
    table := by
      have hholes := holds_writeBytes_same 20 (zeros (8 * n.toNat))
        (writeBytes 0 (headerImage s.cfg.magic n w h fps 0) s.sink)
      rwa [Holds, zeros_length] at hholes
    region := rfl }

/-- What a list with one more value at its end has at `i` is of the list, or the last. -/
theorem getElem?_concat_eq_some {α : Type} {l : List α} {a b : α} {i : Nat} (h : (l ++ [a])[i]? = some b) :
    l[i]? = some b ∨ (i = l.length ∧ b = a) := by
  rcases lt_trichotomy i l.length with hi | rfl | hi
  · exact .inl (by rwa [List.getElem?_append_left hi] at h)
  · exact .inr ⟨rfl, by simpa using h.symm⟩
  · rw [List.getElem?_eq_none (by rw [List.length_append]; exact hi)] at h
    cases h

/-- A frame placed is the last of the container, and its blob follows those before it (R183). -/
theorem OpenWith.frame {fs : List (List Color565)} {px : List Pixel} {s t : State} (hs : OpenWith fs s)
    (hx : exec (.cwFrame px) s = .next t) (ht : t.phase = .opened) : OpenWith (fs ++ [quantizeFrame px]) t := by
  obtain ⟨hk, hpx, hcap, hok⟩ := cwFrame_places hs.phase_eq hx ht
  obtain ⟨t', hx', ht', htab⟩ := frameWritesBlob px s hs.phase_eq hk hpx hcap hok
  cases hx.symm.trans hx'
  generalize t.off = o, t.size = z at ht'
  subst ht'
  have hlt : s.k.toNat < s.n.toNat :=
    lt_of_le_of_ne (hs.count.trans_le hs.room) fun h => hk (BitVec.eq_of_toNat_eq h)
  have hk1 : (s.k + 1).toNat = s.k.toNat + 1 := recordFrame_k_toNat 0 hlt
  have hcap32 := s.cfg.cap.isLt
  have hpos := hs.pos_eq
  have hbase : blobBase s.n ≤ s.pos.toNat := by omega
  exact {
    phase_eq := hs.phase_eq
    count := by rw [hk1, hs.count, List.length_append]; rfl
    room := by rw [List.length_append, ← hs.count]; exact hlt
    idx_eq := hs.idx_eq
    pos_eq := by
      rw [blobs_concat, List.length_append, ← Nat.add_assoc, ← hpos]
      exact Nat.mod_eq_of_lt (hcap.trans_lt hcap32)
    offs := fun i f hf => by
      obtain ⟨hoff, -⟩ := htab i
      rcases getElem?_concat_eq_some hf with hold | ⟨rfl, rfl⟩
      · obtain ⟨hi, -⟩ := List.getElem?_eq_some_iff.1 hold
        rw [hoff, if_neg (by rw [hs.count]; exact hi.ne), hs.offs i f hold, List.take_append_of_le_length hi.le]
      · rw [hoff, if_pos hs.count.symm, List.take_left, hpos]
    sizes := fun i f hf => by
      obtain ⟨-, hsize⟩ := htab i
      rcases getElem?_concat_eq_some hf with hold | ⟨rfl, rfl⟩
      · obtain ⟨hi, -⟩ := List.getElem?_eq_some_iff.1 hold
        rw [hsize, if_neg (by rw [hs.count]; exact hi.ne), hs.sizes i f hold]
      · rw [hsize, if_pos hs.count.symm]
        exact Nat.mod_eq_of_lt (by omega)
    header := (readBytes_writeBytes_other _ _ (.inl ((Nat.le_add_right ..).trans hbase))).trans hs.header
    table := (readBytes_writeBytes_other _ _ (.inl hbase)).trans hs.table
    region := by
      rw [blobs_concat]
      refine holds_append.2 ⟨Holds.writeBytes_other hs.region (.inl hpos.ge), ?_⟩
      rw [← hpos]
      exact holds_writeBytes_same .. }

/-- Settles O56: the two operations in the states that O31 and O35 give. -/
theorem openContainerBuilt : Obligations.OpenContainerBuilt :=
  ⟨fun _ _ _ _ _ _ hp hx ht => openWith_nil hp hx ht, fun _ _ _ _ hs hx ht => hs.frame hx ht⟩

/-! ## The finished container -/

theorem OpenWith.k_le {fs : List (List Color565)} {s : State} (hs : OpenWith fs s) : s.k.toNat ≤ s.n.toNat :=
  hs.count.trans_le hs.room

/-- The header patched: the true count, which is `N` where no frame is missing, and the index offset. -/
theorem OpenWith.holds_headPatched {fs : List (List Color565)} {s : State} (hs : OpenWith fs s) :
    Holds (headPatched s) 0 (headerImage s.cfg.magic s.k s.w s.h s.fps s.idx ++
      (zeros (Config.entrySize * s.n.toNat) ++ blobs fs)) := by
  have hidx : Holds (writeBytes 16 (le32 s.idx) s.sink) 0 (headerImage s.cfg.magic s.n s.w s.h s.fps s.idx ++
      (zeros (Config.entrySize * s.n.toNat) ++ blobs fs)) := by
    have hopen := hs.holds
    rw [headerImage_append_offset] at hopen ⊢
    exact hopen.patch rfl rfl
  unfold headPatched
  split_ifs with hlt
  · rw [headerImage_append_count] at hidx ⊢
    exact hidx.patch rfl rfl
  · rwa [BitVec.eq_of_toNat_eq (le_antisymm hs.k_le (not_lt.1 hlt))]

/-- The entries patched over the first placeholders: the finished container. -/
theorem OpenWith.holds_containerImage {fs : List (List Color565)} {s : State} (hs : OpenWith fs s) :
    Holds (writeBytes s.idx.toNat ((List.range s.k.toNat).flatMap (tableEntry s)) (headPatched s)) 0
      (containerImage s fs) := by
  have hzeros : zeros (Config.entrySize * s.n.toNat) =
      zeros (8 * fs.length) ++ zeros (Config.entrySize * (s.n.toNat - fs.length)) := by
    have := hs.room
    rw [zeros, zeros, zeros, List.replicate_append_replicate, ← Nat.mul_add, Nat.add_sub_cancel' this]
  have hpatched := hs.holds_headPatched
  rw [hzeros, List.append_assoc] at hpatched
  have hcount : s.k = BitVec.ofNat 32 fs.length := by rw [← hs.count, BitVec.ofNat_toNat, BitVec.setWidth_eq]
  rw [hs.entries, containerImage_eq, ← hcount, ← hs.idx_eq]
  exact hpatched.patch (by rw [hs.idx_eq]; rfl) (by rw [entryImages_length, zeros_length])

/-- A finished container is `POS` bytes long (R186). -/
theorem OpenWith.length_containerImage {fs : List (List Color565)} {s : State} (hs : OpenWith fs s) :
    (containerImage s fs).length = s.pos.toNat := by
  have := hs.room
  have := hs.pos_eq
  simp only [containerImage, List.length_append, headerImage_length, entryImages_length, zeros_length,
    blobBase, Config.headerSize, Config.entrySize] at *
  omega

/-- Settles O57: the patches of O37 make the container of the bytes that the open conversion has laid down. -/
theorem finalizedContainer : Obligations.FinalizedContainer := by
  intro fs s t hs hx ht
  obtain ⟨hall, hok⟩ := cwFinalize_completes hs.phase_eq hx ht
  cases hx.symm.trans (finalizePatches s hs.phase_eq hall hok)
  refine ⟨rfl, rfl, ?_, fun hpol => ?_⟩
  · have himage := hs.holds_containerImage
    rwa [Holds, hs.length_containerImage] at himage
  · refine BitVec.eq_of_toNat_eq (le_antisymm hs.k_le (not_lt.1 fun hlt => ?_))
    cases hpol.symm.trans (hall hlt)

end Sys2Proof.Machine
end

section
/-! The container family (spec/42_container.md): the index of a finished container locates its frames (R184). -/

namespace Sys2Proof.Machine

/-! ## Reading a container -/

theorem byteAt_append (pre l : List Byte) (j : Nat) : byteAt (pre ++ l) (pre.length + j) = byteAt l j := by
  rw [byteAt, byteAt, List.getD_append_right _ _ _ _ (Nat.le_add_right ..), Nat.add_sub_cancel_left]

/-- A word of a container is read back from its bytes. -/
theorem containerWord_of_eq {c pre post : List Byte} {v : Word} {i : Nat} (hc : c = pre ++ (le32 v ++ post))
    (hi : i = pre.length) : containerWord c i = v := by
  subst hc hi
  have h0 := byteAt_append pre (le32 v ++ post) 0
  rw [containerWord, byteAt_append, byteAt_append, byteAt_append, ← Nat.add_zero pre.length, h0]
  exact rd32_le32 v

/-- A part of a container. -/
theorem take_drop_of_eq {c pre part post : List Byte} {i n : Nat} (hc : c = pre ++ (part ++ post))
    (hi : pre.length = i) (hn : part.length = n) : (c.drop i).take n = part := by
  rw [hc, List.drop_left' hi, List.take_left' hn]

/-- One of the parts of 8 bytes that a list of bytes is made of. -/
theorem flatMap_range_split {g : Nat → List Byte} (hg : ∀ j, (g j).length = 8) {i k : Nat} (hi : i < k) :
    ∃ pre post, (List.range k).flatMap g = pre ++ (g i ++ post) ∧ pre.length = 8 * i := by
  obtain ⟨d, rfl⟩ := Nat.exists_eq_add_of_lt hi
  refine ⟨(List.range i).flatMap g, ((List.range d).map (i + 1 + ·)).flatMap g, ?_, ?_⟩
  · rw [show i + d + 1 = i + 1 + d by omega, List.range_add, List.range_succ, List.flatMap_append,
      List.flatMap_append, List.append_assoc]
    simp
  · simp [List.length_flatMap, hg, Nat.mul_comm]

/-! ## The finished container -/

theorem containerImage_count (s : State) (fs : List (List Color565)) :
    containerWord (containerImage s fs) 4 = BitVec.ofNat 32 fs.length :=
  containerWord_of_eq ((containerImage_eq s fs).trans (headerImage_append_count ..)) rfl

theorem containerImage_offset (s : State) (fs : List (List Color565)) :
    containerWord (containerImage s fs) 16 = 20 :=
  containerWord_of_eq ((containerImage_eq s fs).trans (headerImage_append_offset ..)) rfl

/-- Entry `i` of the finished container is the recorded pair. -/
theorem OpenWith.containerImage_entry {fs : List (List Color565)} {s : State} (hs : OpenWith fs s) {i : Nat}
    (hi : i < fs.length) :
    containerWord (containerImage s fs) (20 + 8 * i) = offAt s i ∧
      containerWord (containerImage s fs) (20 + 8 * i + 4) = sizeAt s i := by
  obtain ⟨pre, post, hsplit, hpre⟩ := flatMap_range_split (tableEntry_length s) (hi.trans_eq hs.count.symm)
  rw [hs.entries] at hsplit
  have hc : containerImage s fs =
      (headerImage s.cfg.magic (BitVec.ofNat 32 fs.length) s.w s.h s.fps 20 ++ pre) ++ (le32 (offAt s i) ++
        (le32 (sizeAt s i) ++ (post ++ (zeros (Config.entrySize * (s.n.toNat - fs.length)) ++ blobs fs)))) := by
    rw [containerImage_eq, hsplit, tableEntry, entryImage]
    simp only [List.append_assoc]
  refine ⟨containerWord_of_eq hc ?_, containerWord_of_eq (hc.trans (List.append_assoc ..).symm) ?_⟩
  · rw [List.length_append, headerImage_length, hpre]
  · rw [List.length_append, List.length_append, headerImage_length, hpre, le32_length]

/-- The blob of frame `i` stands where its entry says. -/
theorem OpenWith.containerImage_blob {fs : List (List Color565)} {s : State} (hs : OpenWith fs s) {i : Nat}
    {f : List Color565} (hf : fs[i]? = some f) :
    ((containerImage s fs).drop (offAt s i).toNat).take (sizeAt s i).toNat = rleEncode f := by
  have hroom := hs.room
  refine take_drop_of_eq (post := blobs (fs.drop (i + 1))) (pre :=
    (headerImage s.cfg.magic (BitVec.ofNat 32 fs.length) s.w s.h s.fps 20 ++ entryImages (blobBase s.n) fs ++
      zeros (Config.entrySize * (s.n.toNat - fs.length))) ++ blobs (fs.take i)) ?_ ?_ (hs.sizes i f hf).symm
  · rw [containerImage, blobs_split hf, List.append_assoc _ (blobs _)]
  · rw [hs.offs i f hf]
    simp only [List.length_append, headerImage_length, entryImages_length, zeros_length, blobBase,
      Config.headerSize, Config.entrySize]
    omega

/-- Index correctness of the finished container (R184): its blobs are decoded to the frames encoded in them (R155). -/
theorem OpenWith.indexCorrect {fs : List (List Color565)} {s : State} (hs : OpenWith fs s) :
    IndexCorrect (containerImage s fs) fs := by
  constructor
  · rw [containerImage_count]
    exact Nat.mod_eq_of_lt (hs.room.trans_lt s.n.isLt)
  · intro i f hf
    obtain ⟨hi, -⟩ := List.getElem?_eq_some_iff.1 hf
    obtain ⟨hoff, hsize⟩ := hs.containerImage_entry hi
    rw [containerImage_offset]
    change rleDecode (((containerImage s fs).drop (containerWord _ (20 + 8 * i)).toNat).take
      (containerWord _ (20 + 8 * i + 4)).toNat) = some f
    rw [hoff, hsize, hs.containerImage_blob hf, rleRoundTrip f]

/-! ## A conversion from its first packet to its last (R106) -/

/-- The first packet of a sequence is executed, and it is the last one or the rest follows. -/
theorem execAll_cons_next {i : Instr} {is : List Instr} {s t : State} (h : execAll (i :: is) s = .next t) :
    ∃ u, exec i s = .next u ∧ (t = u ∨ execAll is u = .next t) := by
  obtain ⟨u, hu⟩ := exec_next i s
  refine ⟨u, hu, ?_⟩
  cases hok : lastAnswerOk u with
  | true => exact .inr (by rwa [execAll_cons_ok is hu hok] at h)
  | false =>
    rw [execAll_cons_error is hu hok] at h
    cases h
    exact .inl rfl

/-- No packet leaves FAILED (R21). -/
theorem execAll_failed {is : List Instr} {s t : State} (hs : s.phase = .failed) (h : execAll is s = .next t) :
    t.phase = .failed := by
  induction is generalizing s with
  | nil => cases h; exact hs
  | cons i is ih =>
    obtain ⟨u, hu, hrest⟩ := execAll_cons_next h
    have hphase : u.phase = .failed := by
      rcases (exec_cases hu).phase with hk | ⟨hp, -⟩ | ⟨hp, -⟩
      · exact hk.trans hs
      · cases hp.symm.trans hs
      · cases hp.symm.trans hs
    rcases hrest with rfl | hrest
    · exact hphase
    · exact ih hphase hrest

/-- Where a sequence ends in DONE whose first packet leaves the conversion open or failed, the conversion is open after
that packet and the rest follows. -/
theorem execAll_cons_done {i : Instr} {is : List Instr} {s t : State} (h : execAll (i :: is) s = .next t)
    (ht : t.phase = .done) (hi : ∀ u, exec i s = .next u → u.phase = .opened ∨ u.phase = .failed) :
    ∃ u, exec i s = .next u ∧ u.phase = .opened ∧ execAll is u = .next t := by
  obtain ⟨u, hu, rfl | hrest⟩ := execAll_cons_next h
  · rcases hi t hu with hp | hp <;> cases hp.symm.trans ht
  · rcases hi u hu with hp | hp
    · exact ⟨u, hu, hp, hrest⟩
    · cases (execAll_failed hp hrest).symm.trans ht

theorem cwBegin_phase {n : Word} {w h : Half} {fps : Byte} {s u : State} (hp : s.phase = .idle)
    (hx : exec (.cwBegin n w h fps) s = .next u) : u.phase = .opened ∨ u.phase = .failed := by
  cases hx
  rcases runBegin_sum n w h fps s with ⟨hne, -⟩ | ⟨-, v, -, ⟨e, -, eq⟩ | ⟨-, -, -, eq⟩⟩
  · exact absurd hp hne
  · exact .inr (by rw [eq]; rfl)
  · exact .inl (by rw [eq]; rfl)

theorem cwFrame_phase {px : List Pixel} {s u : State} (hp : s.phase = .opened)
    (hx : exec (.cwFrame px) s = .next u) : u.phase = .opened ∨ u.phase = .failed := by
  cases hx
  rcases runFrame_cases px s with ⟨hne, -⟩ | ⟨-, ⟨e, -, eq⟩ | ⟨-, -, -, ⟨-, eq⟩ | ⟨-, eq⟩⟩⟩
  · exact absurd hp hne
  · exact .inr (by rw [eq]; rfl)
  · exact .inr (by rw [eq]; rfl)
  · exact .inl (by rw [eq]; exact (sinkPlace_side ..).phase.trans hp)

/-- The packets of a conversion after its `CW_BEGIN`: where they end in DONE, every frame has been placed when the
`CW_FINALIZE` that completes the container is executed. -/
theorem OpenWith.frames_done {frames : List (List Pixel)} {fs : List (List Color565)} {s t : State}
    (hs : OpenWith fs s) (h : execAll (frames.map Instr.cwFrame ++ [.cwFinalize]) s = .next t)
    (ht : t.phase = .done) :
    ∃ u, OpenWith (fs ++ frames.map quantizeFrame) u ∧ exec .cwFinalize u = .next t := by
  induction frames generalizing fs s with
  | nil =>
    obtain ⟨u, hu, hrest⟩ := execAll_cons_next h
    have htu : t = u := hrest.elim id fun hnil => by cases hnil; rfl
    exact ⟨s, by rwa [List.map_nil, List.append_nil], htu ▸ hu⟩
  | cons px frames ih =>
    obtain ⟨u, hu, hp, hrest⟩ := execAll_cons_done h ht fun _ => cwFrame_phase hs.phase_eq
    obtain ⟨v, hv, hfin⟩ := ih (hs.frame hu hp) hrest
    exact ⟨v, by rwa [List.append_assoc] at hv, hfin⟩

/-- Settles O60: the conversion's frames are those of the open container that its `CW_FINALIZE` finishes, and the tables
are still the ones the entries were patched from. -/
theorem conversionIndexCorrect : Obligations.ConversionIndexCorrect := by
  intro n w h fps frames s t hp hrun ht
  obtain ⟨s1, hbegin, hopen, hrest⟩ := execAll_cons_done hrun ht fun _ => cwBegin_phase hp
  obtain ⟨u, hu, hfin⟩ := (openWith_nil hp hbegin hopen).frames_done hrest ht
  rw [List.nil_append] at hu
  obtain ⟨-, -, hread, -⟩ := finalizedContainer _ u t hu hfin ht
  obtain ⟨htables, -, -⟩ := finalizeFrame u t hfin
  refine ⟨_, hread, hu.indexCorrect, fun i hi => ?_⟩
  rw [containerImage_offset, htables]
  exact hu.containerImage_entry (by rwa [List.length_map])

end Sys2Proof.Machine
end

section
/-! The control family (spec/43_control.md): the fields of the registers, the register map and `RDREG`, and a reset
during an operation. -/

namespace Sys2Proof.Machine

/-! ## Fields of a word

A field is a value extended to the word's width and shifted to its place; the word is the union of its fields. -/

/-- Past the bits of a value there are zeros. -/
@[simp] theorem extractLsb'_of_ge {n start len : Nat} (x : BitVec n) (h : n ≤ start) :
    x.extractLsb' start len = 0 := by
  ext i hi
  simp [BitVec.getLsbD_of_ge x (start + i) (by omega)]

/-- A field is read off where it stands. -/
@[simp] theorem extractLsb'_field_same {n w k : Nat} (x : BitVec n) (h : k + n ≤ w) :
    (x.setWidth w <<< k).extractLsb' k n = x := by
  ext i hi
  simp [show k + i < w by omega, BitVec.getLsbD_eq_getElem hi]

/-- Below and above a field there are zeros. -/
@[simp] theorem extractLsb'_field_apart {n w k start len : Nat} (x : BitVec n)
    (h : start + len ≤ k ∨ k + n ≤ start) : (x.setWidth w <<< k).extractLsb' start len = 0 := by
  ext i hi
  rcases h with h | h
  · simp [show start + i < k by omega]
  · simp [BitVec.getLsbD_of_ge x (start + i - k) (by omega)]

/-! ## The register map (R213) -/

/-- The registers are those at the indices up to 9. -/
theorem registerValue_eq_none_iff {s : State} {a : Byte} : registerValue s a = none ↔ 0x09 < a.toNat := by
  rw [registerValue]
  split
  case h_11 => exact iff_of_true rfl (by grind)
  all_goals exact iff_of_false nofun (by omega)

/-- Settles O42: each row of the map is a case of the definition, and the fields of `DIMS`, `FORMAT` and `MAGIC` stand
apart. -/
theorem registerMap : Obligations.RegisterMap := by
  intro s
  refine ⟨rfl, rfl, rfl, ⟨_, rfl, ?_⟩, ⟨_, rfl, ?_⟩, rfl, rfl, rfl, rfl, ⟨_, rfl, ?_⟩,
    fun a => registerValue_eq_none_iff.2⟩
  · simp [BitVec.extractLsb'_or, BitVec.extractLsb'_setWidth_of_le]
  · simp [BitVec.extractLsb'_or, BitVec.extractLsb'_setWidth_of_le]
  · simpa [le32] using le32_rd32 s.cfg.magic.m0 s.cfg.magic.m1 s.cfg.magic.m2 s.cfg.magic.m3

/-! ## `STATUS` (R214) -/

/-- A field of `STATUS` is the union of what its four values put there. -/
theorem statusWord_extractLsb' (s : State) {start len : Nat} (h : start + len ≤ 32) :
    (statusWord s).extractLsb' start len = (phaseCode s.phase).extractLsb' start len |||
      (s.err.setWidth 32 <<< 8).extractLsb' start len |||
      ((policyBit s.cfg.shortPolicy).setWidth 32 <<< 16).extractLsb' start len |||
      ((BitVec.ofBool s.cfg.seekable).setWidth 32 <<< 17).extractLsb' start len := by
  rw [statusWord, BitVec.extractLsb'_or, BitVec.extractLsb'_or, BitVec.extractLsb'_or,
    BitVec.extractLsb'_setWidth_of_le h]

theorem policyBit_eq_one_iff {p : ShortPolicy} : policyBit p = 1#1 ↔ p = .truncate := by
  cases p <;> decide

theorem ofBool_beq_one (b : Bool) : (BitVec.ofBool b == 1#1) = b := by
  cases b <;> rfl

/-- Settles O43: every field is the one value that has bits there, or zero. -/
theorem statusFields : Obligations.StatusFields := by
  refine ⟨fun s => ⟨?_, ?_, ?_, ?_, ?_, ?_⟩, rfl, rfl, rfl, rfl, rfl⟩
  · simp [statusWord_extractLsb']
  · simp [statusWord_extractLsb']
  · simp [statusWord_extractLsb']
  · rw [BitVec.getLsbD_eq_extractLsb']
    simp [statusWord_extractLsb', policyBit_eq_one_iff]
  · rw [BitVec.getLsbD_eq_extractLsb']
    simp [statusWord_extractLsb', ofBool_beq_one]
  · simp [statusWord_extractLsb']

/-! ## `RDREG` (R210) -/

theorem exec_rdreg_of_some {s : State} {a : Byte} {v : Word} (h : registerValue s a = some v) :
    exec (.rdreg a) s = .next (respondOk (le32 v) s) :=
  congrArg Host.Outcome.next (by rw [runRdreg, h])

theorem exec_rdreg_of_none {s : State} {a : Byte} (h : registerValue s a = none) :
    exec (.rdreg a) s = .next (reject .badReg s) :=
  congrArg Host.Outcome.next (by rw [runRdreg, h])

/-- Settles O44: the map has a register exactly at the indices up to 9, and `RDREG` answers it or rejects. -/
theorem rdregResponds : Obligations.RdregResponds := by
  intro a s
  refine ⟨rfl, fun hle => ?_, fun hlt => exec_rdreg_of_none (registerValue_eq_none_iff.2 hlt)⟩
  obtain ⟨v, hv⟩ := Option.ne_none_iff_exists'.1 (mt registerValue_eq_none_iff.1 (Nat.not_lt.2 hle))
  exact ⟨v, hv, exec_rdreg_of_some hv⟩

/-! ## A reset during an operation (R212) -/

/-- A reset that arrives while a packet executes is taken on what the operation leaves, with the responses as they were
before it (R212). -/
theorem step_resetDuring {s t : State} {i : Instr} {rest : List Byte} {es : List HostEvent} (hs : s.segs = [])
    (hd : decodeCommand s.port = .ok (i, rest)) (hi : s.input = .resetDuring :: es)
    (hx : exec i { s with port := rest } = .next t) :
    step s = .next (takeReset { t with out := s.out, input := es, finished := s.finished && t.finished }) := by
  rw [step_command hs hd, hx, underHost, hi]
  rfl

/-- Settles O47: the reset leaves the operation's sink and transactions as they are, and no instruction writes the
parameters or the host's reads. -/
theorem resetDuringOperation : Obligations.ResetDuringOperation := by
  intro s t i rest es hs hd hi hx
  have hk := exec_keeps hx
  exact ⟨_, step_resetDuring hs hd hi hx, rfl, rfl, hk.cfg, rfl, rfl, registersReset_takeReset _, rfl, rfl, hk.reads,
    rfl⟩

end Sys2Proof.Machine
end

section
/-! The exceptions family (spec/60_exceptions.md): the two error exits, and the phase `FAILED`. -/

namespace Sys2Proof.Machine

/-! ## The error exits (R230, R233, R234) -/

/-- No two statuses share a code (R230). -/
theorem statusCode_injective : Function.Injective statusCode := by
  intro a b
  cases a <;> cases b <;> decide

/-- How an instruction ends from `s`: a segment with no response, a command with `0x00` or by one of the two error
exits, which the class of the status decides (R230). What a command did before its response gave none. -/
inductive Exit (s : State) : State → Prop where
  | segment (i : Instr) : Exit s (takeSegment i s)
  | success {u : State} (p : List Byte) (hu : u.out = s.out) : Exit s (respondOk p u)
  | rejected {e : Status} (he : isSticky e = false) : Exit s (reject e s)
  | failed {u : State} {e : Status} (hu : u.out = s.out) (he : isSticky e = true) : Exit s (failWith e u)

theorem exit_runBegin (n : Word) (w h : Half) (fps : Byte) (s : State) : Exit s (runBegin n w h fps s) := by
  rcases runBegin_sum n w h fps s with ⟨-, eq⟩ | ⟨-, u, hu, ⟨e, he, eq⟩ | ⟨-, -, -, eq⟩⟩ <;> rw [eq]
  · exact .rejected rfl
  · exact .failed hu.out (by rcases he with rfl | rfl <;> rfl)
  · exact .success [] hu.out

theorem exit_runFrame (px : List Pixel) (s : State) : Exit s (runFrame px s) := by
  have hside := sinkPlace_side s.pos.toNat (rleEncode (quantizeFrame px)) s
  rcases runFrame_cases px s with ⟨-, eq⟩ | ⟨-, ⟨e, he, eq⟩ | ⟨-, -, -, ⟨-, eq⟩ | ⟨-, eq⟩⟩⟩ <;> rw [eq]
  · exact .rejected rfl
  · exact .failed rfl (by rcases he with rfl | rfl | rfl <;> rfl)
  · exact .failed hside.out rfl
  · exact .success [] hside.out

theorem exit_runFinalize (s : State) : Exit s (runFinalize s) := by
  rcases runFinalize_sum s with ⟨-, eq⟩ | ⟨-, u, hu, ⟨e, he, eq⟩ | eq⟩ <;> rw [eq]
  · exact .rejected rfl
  · exact .failed hu.side.out (by rcases he with rfl | rfl <;> rfl)
  · exact .success [] hu.side.out

theorem exit_runRleEnc (v : List Color565) (s : State) : Exit s (runRleEnc v s) := by
  unfold runRleEnc
  split_ifs
  · exact .rejected rfl
  · exact .success _ rfl

theorem exit_runRdreg (a : Byte) (s : State) : Exit s (runRdreg a s) := by
  unfold runRdreg
  split
  · exact .success _ rfl
  · exact .rejected rfl

/-- Every instruction ends by one of the exits, in every state. -/
theorem exec_exit {i : Instr} {s t : State} (hx : exec i s = .next t) : Exit s t := by
  cases i with
  | quant r g b => cases hx; exact .success _ rfl
  | rleEnc v => cases hx; exact exit_runRleEnc v s
  | cwBegin n w h fps => cases hx; exact exit_runBegin n w h fps s
  | cwFrame px => cases hx; exact exit_runFrame px s
  | cwFinalize => cases hx; exact exit_runFinalize s
  | rdreg a => cases hx; exact exit_runRdreg a s
  | illegal op => cases hx; exact .rejected rfl
  | run n c => cases hx; exact .segment _
  | lit vs => cases hx; exact .segment _

/-- An instruction answered with an error's code took the exit of that error. -/
theorem Exit.of_error {s t : State} {e : Status} (h : Exit s t) (he : e ≠ .ok)
    (ht : t.out = s.out ++ [[statusCode e]]) :
    (isSticky e = false ∧ t = reject e s) ∨ (isSticky e = true ∧ ∃ u, t = failWith e u) := by
  cases h with
  | segment i => simp at ht
  | @success u p hu =>
    rw [respondOk_out, hu] at ht
    have hok : statusCode .ok = statusCode e :=
      List.head_eq_of_cons_eq (List.singleton_inj.1 (List.append_cancel_left ht))
    exact absurd (statusCode_injective hok).symm he
  | @rejected e' he' =>
    obtain rfl : e' = e := statusCode_injective (by simpa using ht)
    exact .inl ⟨he', rfl⟩
  | @failed u e' hu he' =>
    rw [failWith_out, hu] at ht
    obtain rfl : e' = e := statusCode_injective (by simpa using ht)
    exact .inr ⟨he', u, rfl⟩

/-- Settles O49: the response shows which exit was taken, and each exit is the one of its class. -/
theorem errorExits : Obligations.ErrorExits := by
  intro i s t e he hx ht
  rcases (exec_exit hx).of_error he ht with ⟨hsoft, rfl⟩ | ⟨hsticky, u, rfl⟩
  · exact ⟨fun _ => rfl, fun h => absurd h (by simp [hsoft])⟩
  · exact ⟨fun h => absurd h (by simp [hsticky]), fun _ => ⟨rfl, rfl⟩⟩

/-! ## The phase `FAILED` (R235) -/

/-- `FAILED` accepts no container operation. -/
theorem phaseAccepts_failed {i : Instr} (hi : isContainerOp i = true) : phaseAccepts .failed i = false := by
  cases i with
  | cwBegin n w h fps => rfl
  | cwFrame px => rfl
  | cwFinalize => rfl
  | quant r g b => cases hi
  | rleEnc v => cases hi
  | rdreg a => cases hi
  | illegal op => cases hi
  | run n c => cases hi
  | lit vs => cases hi

/-- Settles O50: the container operations are out of phase, and the other three answer as in every phase. -/
theorem failedPhaseRefusesConversions : Obligations.FailedPhaseRefusesConversions := by
  intro s hs
  refine ⟨fun i hi => outOfPhaseRefused i s hi (by rw [hs, phaseAccepts_failed hi]),
    fun r g b => (quantResponds r g b s).2, fun v hv => ?_, fun a v hv => exec_rdreg_of_some hv⟩
  obtain ⟨-, hencodes, -, -⟩ := rleEncResponds v s
  exact hencodes hv

end Sys2Proof.Machine
end
